-- ==== Sys2Proof/Word.lean ====
section
/-! DEFINITION. The word types of the engine: bytes, and the unsigned 16 and 32 bit fields of frames and registers
(00_scope R19, 30_encoding R98). An `i8` field is a `Byte` read in two's complement. -/

namespace Sys2Proof

/-- u8, and i8 read in two's complement (00_scope R19). -/
abbrev Byte := BitVec 8

/-- u16 (00_scope R19). -/
abbrev U16 := BitVec 16

/-- u32 (00_scope R19). -/
abbrev U32 := BitVec 32

end Sys2Proof
end

