-- ==== Sys2Proof/Syntax.lean ====
section
/-! DEFINITION. The instruction set: one constructor of `Instr` per row of spec/opcode_table.json (30_encoding R85, R91).
An instruction is a frame; inbound ones are commands of the remote device, outbound ones are the event frames. -/

namespace Sys2Proof

/-- The direction of a frame; a type byte means different things in the two (30_encoding R84). -/
inductive Direction where
  | inbound | outbound
  deriving DecidableEq, Repr

/-- The payload of a command with a fixed part. `full` holds the fields of the fixed part and the bytes after it; `short`
is a payload that ends before its fixed part does (30_encoding R99 case 2; log 25). -/
inductive Payload (α : Type) where
  | short (bytes : List Byte)
  | full (args : α) (rest : List Byte)
  deriving DecidableEq, Repr

/-- The fixed part of an init payload (30_encoding R86). -/
structure InitArgs where
  width : U16
  height : U16
  fmtCode : Byte
  rotCode : Byte
  indev : Byte
  deriving DecidableEq, Repr

/-- The rectangle of set-window and set-window+write (30_encoding R87, R89). -/
structure RectArgs where
  x : U16
  y : U16
  w : U16
  h : U16
  deriving DecidableEq, Repr

/-- The fixed part of a draw-point payload (30_encoding R90). -/
structure PointArgs where
  x : U16
  y : U16
  color : U32
  deriving DecidableEq, Repr

/-- The instructions, one constructor per row of spec/opcode_table.json. -/
inductive Instr where
  /-- INIT, inbound 0x01 (R86). -/
  | init (p : Payload InitArgs)
  /-- SET_WINDOW, inbound 0x02 (R87). -/
  | setWindow (p : Payload RectArgs)
  /-- WRITE, inbound 0x03 (R88): the whole payload is pixel data. -/
  | write (data : List Byte)
  /-- SET_WINDOW_WRITE, inbound 0x04 (R89): the bytes after the rectangle are pixel data. -/
  | setWindowWrite (p : Payload RectArgs)
  /-- DRAW_POINT, inbound 0x05 (R90). -/
  | drawPoint (p : Payload PointArgs)
  /-- IGNORED_00, inbound 0x00 (R85, R189). -/
  | ignored00 (payload : List Byte)
  /-- IGNORED_06_07, inbound 0x06 + low (R85, R189). -/
  | ignored06to07 (low : BitVec 1) (payload : List Byte)
  /-- IGNORED_08_0F, inbound 0x08 + low (R85, R189). -/
  | ignored08to0F (low : BitVec 3) (payload : List Byte)
  /-- IGNORED_10_1F, inbound 0x10 + low (R85, R189). -/
  | ignored10to1F (low : BitVec 4) (payload : List Byte)
  /-- IGNORED_20_3F, inbound 0x20 + low (R85, R189). -/
  | ignored20to3F (low : BitVec 5) (payload : List Byte)
  /-- IGNORED_40_7F, inbound 0x40 + low (R85, R189). -/
  | ignored40to7F (low : BitVec 6) (payload : List Byte)
  /-- IGNORED_80_FF, inbound 0x80 + low (R85, R189). -/
  | ignored80toFF (low : BitVec 7) (payload : List Byte)
  /-- EV_KEYBOARD, outbound 0x00 (R92, R212): `modifiers` is the 32-bit operand of the input port (log 16). -/
  | evKeyboard (pressed rep : Bool) (keycode : U16) (modifiers : U32) (ascii : Byte)
  /-- EV_TOUCH, outbound 0x01 (R93, R213). -/
  | evTouch (x y : U16) (down : Bool)
  /-- EV_MOUSE, outbound 0x02 (R94, R214): `wheel` is an i8 (log 17). -/
  | evMouse (x y : U16) (wheel : Byte) (buttons : Byte)
  /-- EV_BUTTON, outbound 0x03 (R95, R215). -/
  | evButton (index : Byte) (pressed : Bool)
  /-- EV_ENCODER, outbound 0x04 (R96, R216): `delta` is an i8 (log 17). -/
  | evEncoder (delta : Byte) (pressed : Bool)
  /-- INIT_REQUEST, outbound 0xFF (R97, R219). -/
  | initRequest
  deriving DecidableEq, Repr

/-- The row's direction in spec/opcode_table.json. -/
def Instr.direction : Instr → Direction
  | .init _ => .inbound
  | .setWindow _ => .inbound
  | .write _ => .inbound
  | .setWindowWrite _ => .inbound
  | .drawPoint _ => .inbound
  | .ignored00 _ => .inbound
  | .ignored06to07 _ _ => .inbound
  | .ignored08to0F _ _ => .inbound
  | .ignored10to1F _ _ => .inbound
  | .ignored20to3F _ _ => .inbound
  | .ignored40to7F _ _ => .inbound
  | .ignored80toFF _ _ => .inbound
  | .evKeyboard _ _ _ _ _ => .outbound
  | .evTouch _ _ _ => .outbound
  | .evMouse _ _ _ _ => .outbound
  | .evButton _ _ => .outbound
  | .evEncoder _ _ => .outbound
  | .initRequest => .outbound

/-- The row's mnemonic in spec/opcode_table.json. -/
def Instr.mnemonic : Instr → String
  | .init _ => "INIT"
  | .setWindow _ => "SET_WINDOW"
  | .write _ => "WRITE"
  | .setWindowWrite _ => "SET_WINDOW_WRITE"
  | .drawPoint _ => "DRAW_POINT"
  | .ignored00 _ => "IGNORED_00"
  | .ignored06to07 _ _ => "IGNORED_06_07"
  | .ignored08to0F _ _ => "IGNORED_08_0F"
  | .ignored10to1F _ _ => "IGNORED_10_1F"
  | .ignored20to3F _ _ => "IGNORED_20_3F"
  | .ignored40to7F _ _ => "IGNORED_40_7F"
  | .ignored80toFF _ _ => "IGNORED_80_FF"
  | .evKeyboard _ _ _ _ _ => "EV_KEYBOARD"
  | .evTouch _ _ _ => "EV_TOUCH"
  | .evMouse _ _ _ _ => "EV_MOUSE"
  | .evButton _ _ => "EV_BUTTON"
  | .evEncoder _ _ => "EV_ENCODER"
  | .initRequest => "INIT_REQUEST"

end Sys2Proof
end

