-- ==== Sys2Proof/WellFormed.lean ====
section
/-! DEFINITION. Which terms of `Instr` are instructions: a `short` payload really is shorter than its fixed part
(43_commands R181 `need`), and the payload's length fits the 32-bit length field (30_encoding R82). -/

namespace Sys2Proof

/-- The number of payload bytes, the fixed part being `need` bytes long (43_commands R181). -/
def Payload.size {α : Type} (need : Nat) : Payload α → Nat
  | .short b => b.length
  | .full _ rest => need + rest.length

/-- A `short` payload ends before its fixed part of `need` bytes does. -/
def Payload.fits {α : Type} (need : Nat) : Payload α → Bool
  | .short b => decide (b.length < need)
  | .full _ _ => true

/-- |P|: the number of payload bytes of the instruction's frame (30_encoding R86 to R97). -/
def Instr.payloadSize : Instr → Nat
  | .init p => p.size 7
  | .setWindow p => p.size 8
  | .write data => data.length
  | .setWindowWrite p => p.size 8
  | .drawPoint p => p.size 8
  | .ignored00 payload => payload.length
  | .ignored06to07 _ payload => payload.length
  | .ignored08to0F _ payload => payload.length
  | .ignored10to1F _ payload => payload.length
  | .ignored20to3F _ payload => payload.length
  | .ignored40to7F _ payload => payload.length
  | .ignored80toFF _ payload => payload.length
  | .evKeyboard _ _ _ _ _ => 6
  | .evTouch _ _ _ => 5
  | .evMouse _ _ _ _ => 6
  | .evButton _ _ => 2
  | .evEncoder _ _ => 2
  | .initRequest => 0

/-- A `short` payload of the instruction is short. -/
def Instr.payloadFits : Instr → Bool
  | .init p => p.fits 7
  | .setWindow p => p.fits 8
  | .write _ => true
  | .setWindowWrite p => p.fits 8
  | .drawPoint p => p.fits 8
  | .ignored00 _ => true
  | .ignored06to07 _ _ => true
  | .ignored08to0F _ _ => true
  | .ignored10to1F _ _ => true
  | .ignored20to3F _ _ => true
  | .ignored40to7F _ _ => true
  | .ignored80toFF _ _ => true
  | .evKeyboard _ _ _ _ _ => true
  | .evTouch _ _ _ => true
  | .evMouse _ _ _ _ => true
  | .evButton _ _ => true
  | .evEncoder _ _ => true
  | .initRequest => true

/-- The instruction has an encoding: each of its checks holds. -/
def Instr.wellFormed (i : Instr) : Bool :=
  i.payloadFits && decide (i.payloadSize < 2 ^ 32)

end Sys2Proof
end

