-- ==== Sys2Proof/Decode.lean ====
section
/-! DEFINITION. The frame encoding (30_encoding): byte order, the decoder of both directions, total on any bytes and
rejecting by name, and after it the encoder; then the opcode table and the numbering of its words. -/

namespace Sys2Proof

/-- The little-endian value of a byte sequence: `le16` and `le32` of 00_scope R19 on two and four bytes (R61). -/
def leNat : List Byte → Nat
  | [] => 0
  | b :: bs => b.toNat + 256 * leNat bs

/-- `LE_n(v)`: the n bytes of `trunc_{8n}(v)`, low byte first (00_scope R19). -/
def leBytes : Nat → Nat → List Byte
  | 0, _ => []
  | n + 1, v => BitVec.ofNat 8 v :: leBytes n (v / 256)

/-- A u16 field: two bytes, low byte first (30_encoding R98). -/
def u16Of (b0 b1 : Byte) : U16 := BitVec.ofNat 16 (leNat [b0, b1])

/-- A u32 field: four bytes, low byte first (30_encoding R98). -/
def u32Of (b0 b1 b2 b3 : Byte) : U32 := BitVec.ofNat 32 (leNat [b0, b1, b2, b3])

/-- An i8 field's byte, `trunc_8(v)` in two's complement (30_encoding R98; PRESUMED, log 17). -/
def i8Of (v : Int) : Byte := BitVec.ofInt 8 v

/-- An i8 field's value, `sext(v)` (30_encoding R98; PRESUMED, log 17). -/
def i8Value (b : Byte) : Int := b.toInt

/-- A Bool field: 0x00 or 0x01 (30_encoding R98). -/
def boolByte (b : Bool) : Byte := if b then 1 else 0

/-- The fixed part of an init payload, 7 bytes (30_encoding R86). -/
def parseInit : List Byte → Payload InitArgs
  | b0 :: b1 :: b2 :: b3 :: b4 :: b5 :: b6 :: rest => .full ⟨u16Of b0 b1, u16Of b2 b3, b4, b5, b6⟩ rest
  | bytes => .short bytes

/-- The fixed part of a rectangle payload, 8 bytes (30_encoding R87, R89). -/
def parseRect : List Byte → Payload RectArgs
  | b0 :: b1 :: b2 :: b3 :: b4 :: b5 :: b6 :: b7 :: rest =>
    .full ⟨u16Of b0 b1, u16Of b2 b3, u16Of b4 b5, u16Of b6 b7⟩ rest
  | bytes => .short bytes

/-- The fixed part of a draw-point payload, 8 bytes (30_encoding R90). -/
def parsePoint : List Byte → Payload PointArgs
  | b0 :: b1 :: b2 :: b3 :: b4 :: b5 :: b6 :: b7 :: rest =>
    .full ⟨u16Of b0 b1, u16Of b2 b3, u32Of b4 b5 b6 b7⟩ rest
  | bytes => .short bytes

/-- The inbound map: the command of a frame `(T, P)` (30_encoding R85; the masks are the table's). It is total: every
type has a meaning, and no state is read (R99, R101). -/
def decodeInbound (t : Byte) (p : List Byte) : Instr :=
  if t = 0x01 then .init (parseInit p)
  else if t = 0x02 then .setWindow (parseRect p)
  else if t = 0x03 then .write p
  else if t = 0x04 then .setWindowWrite (parseRect p)
  else if t = 0x05 then .drawPoint (parsePoint p)
  else if t = 0x00 then .ignored00 p
  else if t &&& 0xFE = 0x06 then .ignored06to07 (t.setWidth 1) p
  else if t &&& 0xF8 = 0x08 then .ignored08to0F (t.setWidth 3) p
  else if t &&& 0xF0 = 0x10 then .ignored10to1F (t.setWidth 4) p
  else if t &&& 0xE0 = 0x20 then .ignored20to3F (t.setWidth 5) p
  else if t &&& 0xC0 = 0x40 then .ignored40to7F (t.setWidth 6) p
  else .ignored80toFF (t.setWidth 7) p

/-- Why bytes are no instruction. -/
inductive DecodeError where
  /-- Fewer bytes than a header, or than the header's length asks for (30_encoding R82, R83). -/
  | truncated
  /-- The bytes do not begin with the sync marker (30_encoding R80, R81). -/
  | noSyncMarker
  /-- An outbound type the engine never emits (30_encoding R91). -/
  | unknownOutboundType (t : Byte)
  /-- An outbound payload of another length than its type's (30_encoding R91). -/
  | outboundLength (t : Byte) (n : Nat)
  /-- An outbound reserved bit set, or a Bool byte that is not 0 or 1 (30_encoding R92 to R98; log 19). -/
  | outboundField (t : Byte)
  deriving DecidableEq, Repr

/-- The Bool a byte stands for, if it is 0x00 or 0x01 (30_encoding R98; log 19). -/
def boolOf (b : Byte) : Option Bool :=
  if b = 0 then some false else if b = 1 then some true else none

/-- A Bool field of an outbound payload, or the refusal of its frame. -/
def withBool (t b : Byte) (k : Bool → Instr) : Except DecodeError Instr :=
  match boolOf b with
  | some v => .ok (k v)
  | none => .error (.outboundField t)

/-- EV_KEYBOARD's payload (30_encoding R92). -/
def decodeKeyboard : List Byte → Except DecodeError Instr
  | [st, k0, k1, m0, m1, a] =>
    if st &&& 0xFC = 0 then
      .ok (.evKeyboard (st.getLsbD 0) (st.getLsbD 1) (u16Of k0 k1) (u32Of m0 m1 0 0) a)
    else .error (.outboundField 0x00)
  | p => .error (.outboundLength 0x00 p.length)

/-- EV_TOUCH's payload (30_encoding R93). -/
def decodeTouch : List Byte → Except DecodeError Instr
  | [x0, x1, y0, y1, d] => withBool 0x01 d fun v => .evTouch (u16Of x0 x1) (u16Of y0 y1) v
  | p => .error (.outboundLength 0x01 p.length)

/-- EV_MOUSE's payload (30_encoding R94). -/
def decodeMouse : List Byte → Except DecodeError Instr
  | [x0, x1, y0, y1, wh, b] => .ok (.evMouse (u16Of x0 x1) (u16Of y0 y1) wh b)
  | p => .error (.outboundLength 0x02 p.length)

/-- EV_BUTTON's payload (30_encoding R95). -/
def decodeButton : List Byte → Except DecodeError Instr
  | [i, d] => withBool 0x03 d fun v => .evButton i v
  | p => .error (.outboundLength 0x03 p.length)

/-- EV_ENCODER's payload (30_encoding R96). -/
def decodeEncoder : List Byte → Except DecodeError Instr
  | [i, d] => withBool 0x04 d fun v => .evEncoder i v
  | p => .error (.outboundLength 0x04 p.length)

/-- INIT_REQUEST's payload (30_encoding R97). -/
def decodeInitRequest : List Byte → Except DecodeError Instr
  | [] => .ok .initRequest
  | p => .error (.outboundLength 0xFF p.length)

/-- The outbound map (30_encoding R91). The engine never decodes outbound frames (R84); the remote device does. -/
def decodeOutbound (t : Byte) (p : List Byte) : Except DecodeError Instr :=
  if t = 0x00 then decodeKeyboard p
  else if t = 0x01 then decodeTouch p
  else if t = 0x02 then decodeMouse p
  else if t = 0x03 then decodeButton p
  else if t = 0x04 then decodeEncoder p
  else if t = 0xFF then decodeInitRequest p
  else .error (.unknownOutboundType t)

/-- The first frame of a byte sequence and the bytes after it (30_encoding R80 to R84): the header, then exactly `L`
payload bytes. -/
def decode (d : Direction) : List Byte → Except DecodeError (Instr × List Byte)
  | s0 :: s1 :: t :: l0 :: l1 :: l2 :: l3 :: body =>
    if s0 = 0xAA ∧ s1 = 0x55 then
      let len := leNat [l0, l1, l2, l3]
      if body.length < len then .error .truncated
      else
        match d with
        | .inbound => .ok (decodeInbound t (body.take len), body.drop len)
        | .outbound =>
          match decodeOutbound t (body.take len) with
          | .ok i => .ok (i, body.drop len)
          | .error e => .error e
    else .error .noSyncMarker
  | _ => .error .truncated

/-! ## The encoder -/

/-- `frame(T, P)`, the envelope of both directions (30_encoding R80). -/
def frameBytes (t : Byte) (p : List Byte) : List Byte :=
  0xAA :: 0x55 :: t :: (leBytes 4 p.length ++ p)

/-- The bytes of an init payload (30_encoding R86). -/
def initBytes : Payload InitArgs → List Byte
  | .short bytes => bytes
  | .full a rest => leBytes 2 a.width.toNat ++ leBytes 2 a.height.toNat ++ [a.fmtCode, a.rotCode, a.indev] ++ rest

/-- The bytes of a rectangle payload (30_encoding R87, R89). -/
def rectBytes : Payload RectArgs → List Byte
  | .short bytes => bytes
  | .full a rest =>
    leBytes 2 a.x.toNat ++ leBytes 2 a.y.toNat ++ leBytes 2 a.w.toNat ++ leBytes 2 a.h.toNat ++ rest

/-- The bytes of a draw-point payload (30_encoding R90). -/
def pointBytes : Payload PointArgs → List Byte
  | .short bytes => bytes
  | .full a rest => leBytes 2 a.x.toNat ++ leBytes 2 a.y.toNat ++ leBytes 4 a.color.toNat ++ rest

/-- The keyboard state byte: bit 0 pressed, bit 1 repeat, bits 7..2 zero (30_encoding R92). -/
def keyStateByte (pressed rep : Bool) : Byte :=
  (if rep then 2 else 0) ||| (if pressed then 1 else 0)

/-- The type byte of an instruction (30_encoding R85, R91). -/
def typeByte : Instr → Byte
  | .init _ => 0x01
  | .setWindow _ => 0x02
  | .write _ => 0x03
  | .setWindowWrite _ => 0x04
  | .drawPoint _ => 0x05
  | .ignored00 _ => 0x00
  | .ignored06to07 low _ => 0x06 ||| low.setWidth 8
  | .ignored08to0F low _ => 0x08 ||| low.setWidth 8
  | .ignored10to1F low _ => 0x10 ||| low.setWidth 8
  | .ignored20to3F low _ => 0x20 ||| low.setWidth 8
  | .ignored40to7F low _ => 0x40 ||| low.setWidth 8
  | .ignored80toFF low _ => 0x80 ||| low.setWidth 8
  | .evKeyboard _ _ _ _ _ => 0x00
  | .evTouch _ _ _ => 0x01
  | .evMouse _ _ _ _ => 0x02
  | .evButton _ _ => 0x03
  | .evEncoder _ _ => 0x04
  | .initRequest => 0xFF

/-- The payload of an instruction: inbound 30_encoding R86 to R90, outbound R92 to R97 as 44_events R212 to R216 and
R219 encode it (the keyboard's `modifiers` masked to 16 bits). -/
def payloadBytes : Instr → List Byte
  | .init p => initBytes p
  | .setWindow p => rectBytes p
  | .write data => data
  | .setWindowWrite p => rectBytes p
  | .drawPoint p => pointBytes p
  | .ignored00 payload => payload
  | .ignored06to07 _ payload => payload
  | .ignored08to0F _ payload => payload
  | .ignored10to1F _ payload => payload
  | .ignored20to3F _ payload => payload
  | .ignored40to7F _ payload => payload
  | .ignored80toFF _ payload => payload
  | .evKeyboard pressed rep keycode modifiers ascii =>
    [keyStateByte pressed rep] ++ leBytes 2 keycode.toNat ++ leBytes 2 modifiers.toNat ++ [ascii]
  | .evTouch x y down => leBytes 2 x.toNat ++ leBytes 2 y.toNat ++ [boolByte down]
  | .evMouse x y wheel buttons => leBytes 2 x.toNat ++ leBytes 2 y.toNat ++ [wheel, buttons]
  | .evButton index pressed => [index, boolByte pressed]
  | .evEncoder delta pressed => [delta, boolByte pressed]
  | .initRequest => []

/-- The frame of an instruction (30_encoding R80). -/
def encode (i : Instr) : List Byte :=
  frameBytes (typeByte i) (payloadBytes i)

/-- The instruction as its frame carries it: the keyboard's `modifiers` keep their low 16 bits (44_events R212; log 16). -/
def onWire : Instr → Instr
  | .evKeyboard pressed rep keycode modifiers ascii =>
    .evKeyboard pressed rep keycode ((modifiers.setWidth 16).setWidth 32) ascii
  | i => i

/-! ## The opcode table -/

/-- A row of spec/opcode_table.json: its match and mask on the 24-bit header prefix (30_encoding R81). -/
structure OpcodeRow where
  mnemonic : String
  direction : Direction
  value : BitVec 24
  mask : BitVec 24
  deriving DecidableEq, Repr

/-- spec/opcode_table.json, inbound rows. -/
def inboundRows : List OpcodeRow :=
  [⟨"INIT", .inbound, 0xAA5501, 0xFFFFFF⟩,
   ⟨"SET_WINDOW", .inbound, 0xAA5502, 0xFFFFFF⟩,
   ⟨"WRITE", .inbound, 0xAA5503, 0xFFFFFF⟩,
   ⟨"SET_WINDOW_WRITE", .inbound, 0xAA5504, 0xFFFFFF⟩,
   ⟨"DRAW_POINT", .inbound, 0xAA5505, 0xFFFFFF⟩,
   ⟨"IGNORED_00", .inbound, 0xAA5500, 0xFFFFFF⟩,
   ⟨"IGNORED_06_07", .inbound, 0xAA5506, 0xFFFFFE⟩,
   ⟨"IGNORED_08_0F", .inbound, 0xAA5508, 0xFFFFF8⟩,
   ⟨"IGNORED_10_1F", .inbound, 0xAA5510, 0xFFFFF0⟩,
   ⟨"IGNORED_20_3F", .inbound, 0xAA5520, 0xFFFFE0⟩,
   ⟨"IGNORED_40_7F", .inbound, 0xAA5540, 0xFFFFC0⟩,
   ⟨"IGNORED_80_FF", .inbound, 0xAA5580, 0xFFFF80⟩]

/-- spec/opcode_table.json, outbound rows. -/
def outboundRows : List OpcodeRow :=
  [⟨"EV_KEYBOARD", .outbound, 0xAA5500, 0xFFFFFF⟩,
   ⟨"EV_TOUCH", .outbound, 0xAA5501, 0xFFFFFF⟩,
   ⟨"EV_MOUSE", .outbound, 0xAA5502, 0xFFFFFF⟩,
   ⟨"EV_BUTTON", .outbound, 0xAA5503, 0xFFFFFF⟩,
   ⟨"EV_ENCODER", .outbound, 0xAA5504, 0xFFFFFF⟩,
   ⟨"INIT_REQUEST", .outbound, 0xAA55FF, 0xFFFFFF⟩]

/-- spec/opcode_table.json. -/
def opcodeTable : List OpcodeRow := inboundRows ++ outboundRows

/-- `H = (byte0 << 16) | (byte1 << 8) | byte2`, the header prefix of a frame (30_encoding R81). -/
def headerPrefix (b0 b1 b2 : Byte) : BitVec 24 :=
  (b0.setWidth 24 <<< 16) ||| (b1.setWidth 24 <<< 8) ||| b2.setWidth 24

/-- The row matches a frame of direction `d` whose header prefix is `h` (30_encoding R81). -/
def OpcodeRow.matches (r : OpcodeRow) (d : Direction) (h : BitVec 24) : Bool :=
  decide (r.direction = d) && decide (h &&& r.mask = r.value)

/-! ## The table's words -/

/-- The bytes of a word `w` numbered as the table numbers it: its low 24 bits are the header prefix `H`, whose first byte
is bits 23..16 (30_encoding R81); the bits above count on byte by byte from byte 3 of the frame. `n` bytes after the
prefix (log 14). -/
def wordBytes (n w : Nat) : List Byte :=
  [BitVec.ofNat 8 (w / 2 ^ 16), BitVec.ofNat 8 (w / 2 ^ 8), BitVec.ofNat 8 w] ++ leBytes n (w / 2 ^ 24)

/-- The whole frame that the `nbits` bits of `w` begin, the bits above them zero: the header, and the payload bytes the
length field asks for. -/
def wordFrame (nbits w : Nat) : List Byte :=
  let v := w % 2 ^ nbits
  wordBytes (4 + leNat (leBytes 4 (v / 2 ^ 24))) v

/-- The instruction the INBOUND decoder reads from a word of the table: the decoder of the engine (30_encoding R84).
An outbound row shares its header prefix with an inbound one, and its word reads as that one (log 14). -/
def decodeTableWord (nbits w : Nat) : Option Instr :=
  match decode .inbound (wordFrame nbits w) with
  | .ok (i, _) => some i
  | .error _ => none

end Sys2Proof
end

