-- ==== Sys2Proof/Config.lean ====
section
/-! DEFINITION. What an implementation of the engine fixes: the parameters of 00_scope section 3 (R11 to R18), as plain
data that State carries and no step writes (log 1), and the one free value of the model (log 7). -/

namespace Sys2Proof

/-- The closed set of pixel formats (10_state R22, 42_pixel_format R160), in the source's listing order. -/
inductive Format where
  | rgb565 | rgb888 | mono | monoInv | gray8
  deriving DecidableEq, Repr

/-- The input classes (00_scope R15). -/
inductive InputClass where
  | keyboard | touch | mouse | button | encoder
  deriving DecidableEq, Repr

/-- `P_FMT_CODE` (00_scope R14), held as the code byte of each format, if it has one: so the map from codes to formats
is injective by its form (log 2). DEDUCED, safe. -/
structure FmtCodes where
  rgb565 : Option Byte
  rgb888 : Option Byte
  mono : Option Byte
  monoInv : Option Byte
  gray8 : Option Byte
  deriving DecidableEq, Repr

/-- `P_INDEV_BIT` (00_scope R15): the bit of each input class in the input-device mask. -/
structure IndevBits where
  keyboard : Fin 8
  touch : Fin 8
  mouse : Fin 8
  button : Fin 8
  encoder : Fin 8
  deriving DecidableEq, Repr

/-- The field of `width` bits from bit `lo` up: `v[lo+width-1 : lo]` (00_scope R19). -/
structure BitSlice where
  lo : Nat
  width : Nat
  deriving DecidableEq, Repr

/-- Where a pixel value holds its three channels: `P_RGB565_LAYOUT` and `P_RGB888_ORDER` (00_scope R17; log 21). -/
structure ChannelLayout where
  red : BitSlice
  green : BitSlice
  blue : BitSlice
  deriving DecidableEq, Repr

/-- `P_GRAY8_POLARITY` (00_scope R17): whether 0x00 or 0xFF is darkest. -/
inductive GrayPolarity where
  | zeroDarkest | zeroBrightest
  deriving DecidableEq, Repr

/-- `P_MONO_PARTIAL` (00_scope R18). -/
inductive MonoPartial where
  | generic | havoc
  deriving DecidableEq, Repr

/-- The parameters R11 to R18 of 00_scope. -/
structure Config where
  /-- `P_MAX_PAYLOAD` (R11). -/
  maxPayload : U32
  /-- `P_MAX_FB_BYTES` (R12). -/
  maxFbBytes : Nat
  /-- `P_DEFAULT_W` (R13). -/
  defaultW : U16
  /-- `P_DEFAULT_H` (R13). -/
  defaultH : U16
  /-- `P_DEFAULT_FMT` (R13). -/
  defaultFmt : Format
  /-- `P_FMT_CODE` (R14). -/
  fmtCode : FmtCodes
  /-- `P_INDEV_BIT` (R15). -/
  indevBit : IndevBits
  /-- `P_INITREQ_PERIOD_MS` (R16). -/
  initReqPeriodMs : U32
  /-- `P_THROTTLE_MS` (R16). -/
  throttleMs : U32
  /-- `P_RGB565_LAYOUT` (R17). -/
  rgb565Layout : ChannelLayout
  /-- `P_RGB888_ORDER` (R17). -/
  rgb888Order : ChannelLayout
  /-- `P_GRAY8_POLARITY` (R17). -/
  gray8Polarity : GrayPolarity
  /-- `P_MONO_PARTIAL` (R18). -/
  monoPartial : MonoPartial
  deriving DecidableEq, Repr

/-- The parameters `State.reset` takes: the rules' defaults, and for the OPEN ones (R11, R12, R13) the values the spec's
test vectors use. DESIGN CHOICE, unsafe for a claim about `State.reset` alone (log 1); PRESUMED colour defaults (log 21). -/
def Config.default : Config where
  maxPayload := 4096
  maxFbBytes := 65536
  defaultW := 8
  defaultH := 8
  defaultFmt := .rgb565
  fmtCode := { rgb565 := some 0, rgb888 := some 1, mono := some 2, monoInv := some 3, gray8 := some 4 }
  indevBit := { keyboard := 0, touch := 1, mouse := 2, button := 3, encoder := 4 }
  initReqPeriodMs := 1000
  throttleMs := 20
  rgb565Layout := { red := ⟨11, 5⟩, green := ⟨5, 6⟩, blue := ⟨0, 5⟩ }
  rgb888Order := { red := ⟨16, 8⟩, green := ⟨8, 8⟩, blue := ⟨0, 8⟩ }
  gray8Polarity := .zeroDarkest
  monoPartial := .generic

/-- THE FREE VALUE of the model: byte `offset` of free draw number `draw` ("any value" of 10_state R41, 43_commands R183,
41_framebuffer R139). Nothing constrains it; it has no body (log 7). DESIGN CHOICE in form, safe. -/
opaque Config.freeByte (draw offset : Nat) : BitVec 8

end Sys2Proof
end

