-- ==== Sys2Proof/Machine/State.lean ====
section
/-! DEFINITION. The state of the engine: `EngineState = (SS, WIN, FB, RA, ENC)` (10_state), the parameters it is built
with (00_scope R11 to R18), and the model's own fields for the environment's side of the interface. -/

namespace Sys2Proof.Machine

/-! ## Inputs and outputs -/

/-- One local input event with the operands of its port (44_events R212 to R216; 92_eei D36). -/
inductive Event where
  | key (pressed rep : Bool) (keycode : U16) (modifiers : U32) (ascii : Byte)
  | touch (x y : U16) (down : Bool)
  | mouse (x y : U16) (wheel : Byte) (buttons : Byte)
  | button (index : Byte) (pressed : Bool)
  | encoder (delta : Byte) (pressed : Bool)
  deriving DecidableEq, Repr

/-- What the environment offers, one per step (00_scope R5). -/
inductive Transaction where
  /-- One byte from the transport (R6). -/
  | rxByte (b : Byte)
  /-- The time, in milliseconds (R8). -/
  | tick (now : U32)
  /-- A local input event and the time (R8). -/
  | input (ev : Event) (now : U32)
  deriving DecidableEq, Repr

/-- The info of InvalidInit (60_exceptions R240, R245). -/
inductive InitError where
  | rotation (rotCode : Byte)
  | size (w h : U16)
  | capacity (bytes : Nat)
  deriving DecidableEq, Repr

/-- The errors of the engine with their info (60_exceptions R240). None stops it (R247). -/
inductive EngineError where
  /-- FramingError SYNC_DISCARD: `k` bytes dropped (40_reassembler R112). -/
  | syncDiscard (k : Nat)
  /-- FramingError LENGTH: the rejected length (40_reassembler R113). -/
  | length (len : Nat)
  /-- InvalidWindow (41_framebuffer R133). -/
  | invalidWindow (x y w h : Nat)
  /-- UnsupportedFormat (43_commands R182). -/
  | unsupportedFormat (fmtCode : Byte)
  /-- BufferShortfall: the type and the payload's length (43_commands R181). -/
  | bufferShortfall (t : Byte) (n : Nat)
  /-- InvalidInit (43_commands R182). -/
  | invalidInit (info : InitError)
  /-- InvalidPoint (41_framebuffer R140). -/
  | invalidPoint (x y : Nat)
  deriving DecidableEq, Repr

/-- The two notifications of the rendering consumer (00_scope R9). -/
inductive Notification where
  | params | frame
  deriving DecidableEq, Repr

/-- What a step produces (00_scope R5). -/
inductive Output where
  /-- `Frame(T, P)`, internal: from the Reassembler to the Dispatcher. -/
  | frame (t : Byte) (p : List Byte)
  /-- `Notify(PARAMS | FRAME)`. -/
  | notify (k : Notification)
  /-- `Err(code, info)`. -/
  | err (e : EngineError)
  /-- `Tx(bytes)`. -/
  | tx (bytes : List Byte)
  deriving DecidableEq, Repr

/-! ## The five parts of the engine's state -/

/-- SS, the Screen State (10_state R20 to R25). -/
structure ScreenState where
  width : U16
  height : U16
  fmt : Format
  rot : BitVec 2
  indev : Byte
  enabled : Bool
  deriving DecidableEq, Repr

/-- WIN, the window registers (10_state R30, R31). The byte-offset registers are natural numbers: their width ADDR_BITS
(`addrBits`) depends on a parameter, the arithmetic is unbounded (41_framebuffer R130), and a state that meets the
invariant holds in each a value of that width (log 11). DEDUCED, safe. -/
structure Window where
  x0 : U16
  y0 : U16
  x1 : U16
  y1 : U16
  front : Nat
  back : Nat
  wrap : Nat
  cursor : Nat
  deriving DecidableEq, Repr

/-- FB, the pixel buffer (10_state R40, R41): `cells` are the bytes written since the buffer was last reallocated, in
rising order of their offsets; every other byte is byte `a` of free draw number `draw` (log 7, log 8). -/
structure Memory where
  cells : List Host.Cell
  draw : Nat
  deriving DecidableEq, Repr

/-- `RA.state` (10_state R50). -/
inductive RxState where
  | seekSync | readHeader | readPayload
  deriving DecidableEq, Repr

/-- RA, the Frame Reassembler's registers (10_state R50 to R52). -/
structure Reassembler where
  state : RxState
  q : List Byte
  t : Byte
  len : U32
  deriving DecidableEq, Repr

/-- `ENC.last_t[c]` and `ENC.last_btn[c]` of one throttled class (10_state R53). -/
structure Throttle where
  lastT : Option U32
  lastBtn : Option Byte
  deriving DecidableEq, Repr

/-- ENC, the Event Encoder's registers (10_state R53, R54). -/
structure Encoder where
  touch : Throttle
  mouse : Throttle
  ireqStart : Option U32
  deriving DecidableEq, Repr

/-- The machine's state. -/
structure State where
  /-- The parameters (00_scope R11 to R18): constant, no step writes them (log 1). -/
  cfg : Config
  ss : ScreenState
  win : Window
  fb : Memory
  ra : Reassembler
  enc : Encoder
  /-- The model's own: the time port of the transaction in progress (00_scope R8; log 6). -/
  now : U32
  /-- The model's own: the transactions the environment offers, the next one first (00_scope R5; log 3). -/
  inbox : List Transaction
  /-- The model's own: the outputs of the step in progress, in order (00_scope R5, 60_exceptions R250; log 5). -/
  out : List Output
  /-- The model's own: the number of the next free draw (log 7). -/
  draws : Nat
  deriving DecidableEq, Repr

/-- Why the model stops. The engine itself never does (60_exceptions R247). -/
inductive Fault where
  /-- Raised by a write to the pixel buffer at an offset at or above `FB_LEN`, which the spec puts outside the buffer and
  says no rule reaches (10_state R40). No state that meets the invariant raises it (log 12). Safe. -/
  | outsideBuffer (offset : Nat)
  deriving DecidableEq, Repr

/-- Why the model has no answer. -/
inductive Refusal where
  /-- Raised by an arm of exec whose instruction has no meaning yet; no arm raises it. Safe. -/
  | notModelled (mnemonic : String)
  deriving DecidableEq, Repr

/-! ## Reset -/

/-- The engine right after its construction with the parameters `c` (70_reset_and_hazards R270). `RA.T` and `RA.L` are
unspecified there; they are 0 here (DESIGN CHOICE, unsafe, log 9). The model's own fields: nothing offered (log 3), no
output, time 0 (DESIGN CHOICE, log 6), FB all of free draw 0 (log 7). -/
def State.resetWith (c : Config) : State where
  cfg := c
  ss := { width := c.defaultW, height := c.defaultH, fmt := c.defaultFmt, rot := 0, indev := 0, enabled := false }
  win := { x0 := 0, y0 := 0, x1 := c.defaultW - 1, y1 := c.defaultH - 1, front := 0, back := 0, wrap := 0, cursor := 0 }
  fb := { cells := [], draw := 0 }
  ra := { state := .seekSync, q := [], t := 0, len := 0 }
  enc := { touch := { lastT := none, lastBtn := none }, mouse := { lastT := none, lastBtn := none }, ireqStart := none }
  now := 0
  inbox := []
  out := []
  draws := 1

/-- The machine right after reset, with the default parameters (log 1). -/
def State.reset : State := State.resetWith Config.default

end Sys2Proof.Machine
end

