-- ==== Sys2Proof/Machine/Formats.lean ====
section
/-! DEFINITION. The Pixel Format Table (42_pixel_format R160 to R162), the parameter maps R14 and R15 of 00_scope, and the
geometry of the screen and of the current window (41_framebuffer R131, R132, R135). All arithmetic is on unbounded
natural numbers (R130). -/

namespace Sys2Proof.Machine

/-- The class of a format (42_pixel_format R160): `bytes B`, or eight pixels to a byte. -/
inductive FormatClass where
  | bytes (n : Nat)
  | packed
  deriving DecidableEq, Repr

/-- The class and `B` of a format (42_pixel_format R160). -/
def formatClass : Format → FormatClass
  | .rgb565 => .bytes 2
  | .rgb888 => .bytes 3
  | .mono => .packed
  | .monoInv => .packed
  | .gray8 => .bytes 1

/-- Eight times the bytes-per-pixel column of 42_pixel_format R160, which is exact. -/
def bitsPerPixel : Format → Nat
  | .rgb565 => 16
  | .rgb888 => 24
  | .mono => 1
  | .monoInv => 1
  | .gray8 => 8

/-- MONO and MONO_INV are the packed formats (42_pixel_format R160). -/
def isPacked (f : Format) : Bool := decide (formatClass f = .packed)

/-- `ceil_div(a, b)` (00_scope R19). -/
def ceilDiv (a b : Nat) : Nat := (a + (b - 1)) / b

/-- `rowBytes(fmt, n)` (42_pixel_format R162). -/
def rowBytes (f : Format) (n : Nat) : Nat :=
  match formatClass f with
  | .bytes b => b * n
  | .packed => ceilDiv n 8

/-- `colOff(x)` (41_framebuffer R132). -/
def colOff (f : Format) (x : Nat) : Nat :=
  match formatClass f with
  | .bytes b => b * x
  | .packed => x / 8

/-- `winRowOf(w)` (41_framebuffer R132). -/
def winRowOf (f : Format) (w : Nat) : Nat :=
  match formatClass f with
  | .bytes b => b * w
  | .packed => ceilDiv w 8

/-- `P_FMT_CODE` of a format byte (00_scope R14, 42_pixel_format R169; log 2). -/
def formatOfCode (c : Config) (code : Byte) : Option Format :=
  if c.fmtCode.rgb565 = some code then some .rgb565
  else if c.fmtCode.rgb888 = some code then some .rgb888
  else if c.fmtCode.mono = some code then some .mono
  else if c.fmtCode.monoInv = some code then some .monoInv
  else if c.fmtCode.gray8 = some code then some .gray8
  else none

/-- The code byte of a format, if it has one (00_scope R14). -/
def codeOfFormat (c : Config) : Format → Option Byte
  | .rgb565 => c.fmtCode.rgb565
  | .rgb888 => c.fmtCode.rgb888
  | .mono => c.fmtCode.mono
  | .monoInv => c.fmtCode.monoInv
  | .gray8 => c.fmtCode.gray8

/-- `ADDR_BITS = ceil(log2(P_MAX_FB_BYTES + 1))`, the width of the byte-offset registers (00_scope R12, 10_state R31). The
registers are held as natural numbers that fit it (log 11). -/
def addrBits (c : Config) : Nat := Nat.clog 2 (c.maxFbBytes + 1)

/-- `P_INDEV_BIT(c)` (00_scope R15). -/
def indevBitOf (c : Config) : InputClass → Nat
  | .keyboard => c.indevBit.keyboard.val
  | .touch => c.indevBit.touch.val
  | .mouse => c.indevBit.mouse.val
  | .button => c.indevBit.button.val
  | .encoder => c.indevBit.encoder.val

/-- `stride` of a screen (42_pixel_format R162). -/
def ScreenState.stride (ss : ScreenState) : Nat := rowBytes ss.fmt ss.width.toNat

/-- `FB_LEN` of a screen (10_state R40, 42_pixel_format R162). -/
def ScreenState.fbLen (ss : ScreenState) : Nat := ss.stride * ss.height.toNat

/-- `stride` (42_pixel_format R162). -/
def State.stride (s : State) : Nat := s.ss.stride

/-- `FB_LEN` (42_pixel_format R162). -/
def State.fbLen (s : State) : Nat := s.ss.fbLen

/-- `winRow` of the current window (41_framebuffer R132). -/
def State.winRow (s : State) : Nat := s.stride - s.win.wrap

/-- `E`, the ring end of the current window (41_framebuffer R132). -/
def State.ringEnd (s : State) : Nat := s.fbLen - s.win.back

/-- `h` of the current window (41_framebuffer R135). Only HAVOC of R139 reads it in a step: 10_state R30 and R57 say that
no rule reads `WIN.y0` and `WIN.y1` after set_window, while the window's byte set R139 needs is written with them (R32,
R135). DEDUCED, safe (log 30). -/
def State.winHeight (s : State) : Nat := s.win.y1.toNat - s.win.y0.toNat + 1

/-- `capacity` of the current window, in bytes (41_framebuffer R135). -/
def State.capacity (s : State) : Nat := s.winHeight * s.winRow

/-- `addr(k)` (41_framebuffer R135). -/
def State.addr (s : State) (k : Nat) : Nat :=
  s.win.front + (k / s.winRow) * s.stride + k % s.winRow

/-- `lin(a)` (41_framebuffer R135). -/
def State.lin (s : State) (a : Nat) : Nat :=
  ((a - s.win.front) / s.stride) * s.winRow + (a - s.win.front) % s.stride

/-- `valid(x, y, w, h)` on a screen (41_framebuffer R131). -/
def ScreenState.validRect (ss : ScreenState) (x y w h : Nat) : Bool :=
  decide (1 ≤ w) && decide (1 ≤ h) && decide (x + w ≤ ss.width.toNat) && decide (y + h ≤ ss.height.toNat) &&
    (!isPacked ss.fmt || (decide (x % 8 = 0) && (decide (w % 8 = 0) || decide (x + w = ss.width.toNat))))

end Sys2Proof.Machine
end

