-- ==== Sys2Proof/Machine/Ops.lean ====
section
/-! DEFINITION. The shared operations: the outputs of a step, raising an error (the engine's whole exception mechanism,
60_exceptions R251), and the memory operations of the pixel buffer. -/

namespace Sys2Proof.Machine

/-- The outcome of a step or of an instruction. -/
abbrev Result := Host.Outcome State Fault Refusal

/-- Run `k` on the next state, if there is one. -/
def andThen (r : Result) (k : State → Result) : Result :=
  match r with
  | .next s => k s
  | .fault f => .fault f
  | .refused f => .refused f

/-! ## Outputs (00_scope R5, R19; 60_exceptions R250) -/

/-- Append an output of the step in progress. -/
def State.output (o : Output) (s : State) : State := { s with out := s.out ++ [o] }

/-- `report E(info)`: `Err(E, info)`, and continue (00_scope R19). No state depends on it (R10). -/
def State.report (e : EngineError) (s : State) : State := s.output (.err e)

/-- `notify(k)` (00_scope R19). -/
def State.notify (k : Notification) (s : State) : State := s.output (.notify k)

/-- `send(T, P)`: one whole frame to the transport (44_events R220). Whether the transport accepts it changes nothing
here (00_scope R7; log 18). -/
def State.send (t : Byte) (p : List Byte) (s : State) : State := s.output (.tx (frameBytes t p))

/-- `raise E(info)`: `Err(E, info)`, and the command ends at once with no change (00_scope R19, 60_exceptions R248). This
is all there is to taking an exception: no state is saved, no mode changes, there is no handler and no return
(60_exceptions R251, R252). -/
def State.raise (e : EngineError) (s : State) : Result := .next (s.report e)

/-- The numeric code of an error (60_exceptions R240). -/
def errorCode : EngineError → Nat
  | .syncDiscard _ => 1
  | .length _ => 2
  | .invalidWindow _ _ _ _ => 3
  | .unsupportedFormat _ => 4
  | .bufferShortfall _ _ => 5
  | .invalidInit _ => 6
  | .invalidPoint _ _ => 7

/-! ## The pixel buffer (10_state R40, 20_memory R60 to R66) -/

/-- The written byte at an offset, if one is listed. -/
def readCells : List Host.Cell → Nat → Option Byte
  | [], _ => none
  | (k, v) :: rest, a => if k = a then some v else readCells rest a

/-- List a byte at an offset, keeping the offsets strictly rising. -/
def writeCells : List Host.Cell → Nat → Byte → List Host.Cell
  | [], a, b => [(a, b)]
  | (k, v) :: rest, a, b =>
    if a < k then (a, b) :: (k, v) :: rest
    else if a = k then (a, b) :: rest
    else (k, v) :: writeCells rest a b

/-- What an unlisted offset reads as: byte `a` of the buffer's free draw (10_state R41; log 8). -/
def Memory.unwritten (m : Memory) (a : Nat) : Byte := Config.freeByte m.draw a

/-- `FB[a]`. -/
def Memory.read (m : Memory) (a : Nat) : Byte := (readCells m.cells a).getD (m.unwritten a)

/-- `FB[a] <- b` (00_scope R19). -/
def Memory.write (m : Memory) (a : Nat) (b : Byte) : Memory := { m with cells := writeCells m.cells a b }

/-- The canonical form of a list of cells: strictly rising offsets. -/
def cellsRising : List Host.Cell → Bool
  | [] => true
  | [_] => true
  | (k, _) :: (k', v) :: rest => decide (k < k') && cellsRising ((k', v) :: rest)

/-- The memory is in its canonical form: strictly rising offsets, so that buffers with the same written bytes are equal
data. An unlisted offset holds no written byte, so no entry can equal what it stands for (log 8). -/
def Memory.wf (m : Memory) : Bool := cellsRising m.cells

/-- `FB[a]` of the state. -/
def State.byteAt (s : State) (a : Nat) : Byte := s.fb.read a

/-- `MemRead(a, n)`: the little-endian integer of `FB[a .. a+n)` (00_scope R19). -/
def State.memRead (s : State) (a n : Nat) : Nat := leNat ((List.range n).map fun i => s.byteAt (a + i))

/-- `FB[a] <- b` where `a` is inside the buffer; the named fault where it is not (10_state R40; log 12). -/
def State.storeByte (a : Nat) (b : Byte) (s : State) : Result :=
  if a < s.fbLen then .next { s with fb := s.fb.write a b } else .fault (.outsideBuffer a)

/-- Bytes at successive offsets from `a` up. -/
def State.storeBytes (a : Nat) : List Byte → State → Result
  | [], s => .next s
  | b :: bs, s => andThen (s.storeByte a b) (State.storeBytes (a + 1) bs)

/-- `MemWrite(a, n, v)`: `LE_n(v)` to `FB[a .. a+n)` (00_scope R19). -/
def State.memWrite (a n v : Nat) (s : State) : Result := s.storeBytes a (leBytes n v)

/-- Every byte of the buffer becomes any value: nothing is listed, and the buffer takes the next free draw
(43_commands R183; 92_eei D11; log 7). -/
def State.freshBuffer (s : State) : State :=
  { s with fb := { cells := [], draw := s.draws }, draws := s.draws + 1 }

/-- Store a byte of free draw number `d` at each of the offsets. -/
def State.storeFree (d : Nat) : List Nat → State → Result
  | [], s => .next s
  | a :: as, s => andThen (s.storeByte a (Config.freeByte d a)) (State.storeFree d as)

end Sys2Proof.Machine
end

