-- ==== Sys2Proof/Machine/Flags.lean ====
section
/-! DEFINITION. The engine has no condition codes (10_state R56). Its flags are `SS.enabled` (R25), which gates the drawing
commands and the events, and the bits of the input-device mask (R24). -/

namespace Sys2Proof.Machine

/-- `SS.enabled <- v` (10_state R25). -/
def State.setEnabled (v : Bool) (s : State) : State := { s with ss := { s.ss with enabled := v } }

/-- Step 2 of 43_commands R181: while the screen is disabled the command is ignored, with no change and no output. -/
def whenEnabled (s : State) (k : State → Result) : Result := if s.ss.enabled then k s else .next s

/-- `gate(c)` (44_events R211). -/
def State.gate (c : InputClass) (s : State) : Bool :=
  s.ss.enabled && s.ss.indev.getLsbD (indevBitOf s.cfg c)

end Sys2Proof.Machine
end

