-- ==== Sys2Proof/Machine/Framebuffer.lean ====
section
/-! DEFINITION. The Windowed Framebuffer (41_framebuffer): set_window, write and draw_point, as operations the commands
share. Each takes what the command does next, so that a raised error ends the command there. -/

namespace Sys2Proof.Machine

/-- The window registers that `set_window(x, y, w, h)` computes on a screen (41_framebuffer R133). -/
def windowOf (ss : ScreenState) (x y w h : Nat) : Window :=
  let front := ss.stride * y + colOff ss.fmt x
  let wr := winRowOf ss.fmt w
  { x0 := BitVec.ofNat 16 x
    y0 := BitVec.ofNat 16 y
    x1 := BitVec.ofNat 16 (x + w - 1)
    y1 := BitVec.ofNat 16 (y + h - 1)
    front := front
    back := ss.fbLen - (front + (h - 1) * ss.stride + wr)
    wrap := ss.stride - wr
    cursor := front }

/-- The full-screen window of a screen (41_framebuffer R134). -/
def fullScreen (ss : ScreenState) : Window :=
  { x0 := 0, y0 := 0, x1 := ss.width - 1, y1 := ss.height - 1, front := 0, back := 0, wrap := 0, cursor := 0 }

/-- `set_window(x, y, w, h)` (41_framebuffer R133), then `k`; an invalid rectangle raises InvalidWindow, the window kept. -/
def setWindowThen (r : RectArgs) (s : State) (k : State → Result) : Result :=
  if s.ss.validRect r.x.toNat r.y.toNat r.w.toNat r.h.toNat then
    k { s with win := windowOf s.ss r.x.toNat r.y.toNat r.w.toNat r.h.toNat }
  else s.raise (.invalidWindow r.x.toNat r.y.toNat r.w.toNat r.h.toNat)

/-- The cursor after one byte: the ring end before the right edge (41_framebuffer R136; 90_conflicts C6). -/
def State.nextCursor (s : State) : Nat :=
  let c := s.win.cursor + 1
  if c = s.ringEnd then s.win.front
  else if 0 < s.win.wrap ∧ (c - s.win.front) % s.stride = s.winRow then c + s.win.wrap
  else c

/-- `WIN.cursor <- a`. -/
def State.setCursor (a : Nat) (s : State) : State := { s with win := { s.win with cursor := a } }

/-- The byte loop of `write(D)` (41_framebuffer R136). -/
def State.writeLoop : List Byte → State → Result
  | [], s => .next s
  | b :: bs, s => andThen (s.storeByte s.win.cursor b) fun s' => State.writeLoop bs (s'.setCursor s'.nextCursor)

/-- The offsets of the current window, `Wset` in its linear order (41_framebuffer R135). Its number of rows is read from
`WIN.y0` and `WIN.y1` (log 30). -/
def State.windowOffsets (s : State) : List Nat := (List.range s.capacity).map s.addr

/-- HAVOC of 41_framebuffer R139: every byte of the window takes any value, a fresh free draw; the cursor stays (log 22). -/
def State.havocWindow (s : State) : Result :=
  andThen (s.storeFree s.draws s.windowOffsets) fun s' => .next { s' with draws := s'.draws + 1 }

/-- `write(D)` ends in HAVOC: a packed format, a partial row, and the parameter says so (41_framebuffer R139). -/
def State.havocs (s : State) (data : List Byte) : Bool :=
  isPacked s.ss.fmt && decide (data.length % s.winRow ≠ 0) && decide (s.cfg.monoPartial = .havoc)

/-- `write(D)` (41_framebuffer R136, R139). -/
def State.writeData (data : List Byte) (s : State) : Result :=
  andThen (s.writeLoop data) fun s' => if s'.havocs data then s'.havocWindow else .next s'

/-- A byte with bit `i` set to `v`, the other bits kept. -/
def setBit (b : Byte) (i : Nat) (v : Bool) : Byte :=
  if v then b ||| (1#8 <<< i) else b &&& ~~~(1#8 <<< i)

/-- The offset of pixel (x, y), or of the byte it shares in a packed format (20_memory R63, 41_framebuffer R140). -/
def State.pixelOffset (x y : Nat) (s : State) : Nat :=
  match formatClass s.ss.fmt with
  | .bytes b => y * s.stride + b * x
  | .packed => y * s.stride + x / 8

/-- The stores of `draw_point` on an in-range point (41_framebuffer R140, 42_pixel_format R164, R165). In a packed format
the byte is read to keep its other bits (log 27). -/
def State.storePixel (x y : Nat) (color : U32) (s : State) : Result :=
  let a := s.pixelOffset x y
  match formatClass s.ss.fmt with
  | .bytes b => s.memWrite a b color.toNat
  | .packed => s.storeByte a (setBit (s.byteAt a) (7 - x % 8) (color.getLsbD 0))

/-- `draw_point(x, y, color)` (41_framebuffer R140), then `k`; a point outside the screen raises InvalidPoint. -/
def drawPointThen (p : PointArgs) (s : State) (k : State → Result) : Result :=
  if s.ss.width.toNat ≤ p.x.toNat ∨ s.ss.height.toNat ≤ p.y.toNat then s.raise (.invalidPoint p.x.toNat p.y.toNat)
  else andThen (s.storePixel p.x.toNat p.y.toNat p.color) k

end Sys2Proof.Machine
end

