-- ==== Sys2Proof/Machine/Operands.lean ====
section
/-! DEFINITION. The operand forms of the inbound commands: a payload with a fixed part, or one that ends before it
(43_commands R181 step 3). -/

namespace Sys2Proof.Machine

/-- `need(T)`: the length of a command's fixed part (43_commands R181). -/
def need (t : Byte) : Nat :=
  if t = 0x01 then 7
  else if t = 0x02 then 8
  else if t = 0x04 then 8
  else if t = 0x05 then 8
  else 0

/-- Step 3 of 43_commands R181: run `k` on the fixed part's fields and the bytes after it; a payload that ends before its
fixed part raises `BufferShortfall(T, |P|)` and changes nothing. -/
def withFixedPart {α : Type} (t : Byte) (p : Payload α) (s : State) (k : α → List Byte → State → Result) : Result :=
  match p with
  | .short bytes => s.raise (.bufferShortfall t bytes.length)
  | .full a rest => k a rest s

end Sys2Proof.Machine
end

