-- ==== Sys2Proof/Machine/Drawing.lean ====
section
/-! DEFINITION. The drawing commands 0x02 to 0x05 (43_commands R185 to R188), in the check order of R181. -/

namespace Sys2Proof.Machine

/-- SET_WINDOW (43_commands R185): no notification. -/
def execSetWindow (p : Payload RectArgs) (s : State) : Result :=
  whenEnabled s fun s => withFixedPart 0x02 p s fun r _ s => setWindowThen r s .next

/-- WRITE (43_commands R186): an empty write notifies too. -/
def execWrite (data : List Byte) (s : State) : Result :=
  whenEnabled s fun s => andThen (s.writeData data) fun s => .next (s.notify .frame)

/-- SET_WINDOW_WRITE (43_commands R187): an invalid rectangle writes nothing and notifies nothing. -/
def execSetWindowWrite (p : Payload RectArgs) (s : State) : Result :=
  whenEnabled s fun s => withFixedPart 0x04 p s fun r data s =>
    setWindowThen r s fun s => andThen (s.writeData data) fun s => .next (s.notify .frame)

/-- DRAW_POINT (43_commands R188): WIN is not written. -/
def execDrawPoint (p : Payload PointArgs) (s : State) : Result :=
  whenEnabled s fun s => withFixedPart 0x05 p s fun a _ s => drawPointThen a s fun s => .next (s.notify .frame)

end Sys2Proof.Machine
end

