-- ==== Sys2Proof/Machine/Events.lean ====
section
/-! DEFINITION. The Event Encoder (44_events): the Input step's gate, throttle and transmission, and the init-request timer.
The time of the transaction in progress is `State.now` (00_scope R8; log 6). -/

namespace Sys2Proof.Machine

/-- `(now - since) mod 2^32` (44_events R217, R218). -/
def State.elapsed (since : U32) (s : State) : Nat := (s.now - since).toNat

/-- The transmission of an instruction's frame, `send(encode(ev))` (44_events R210, R220). -/
def State.sendFrame (i : Instr) (s : State) : State := s.send (typeByte i) (payloadBytes i)

/-- An event of an unthrottled class (44_events R210): sent if the gate lets it through, else dropped silently. -/
def sendGated (c : InputClass) (i : Instr) (s : State) : Result :=
  if s.gate c then .next (s.sendFrame i) else .next s

/-- `throttle(c, ev, now) = SEND` (44_events R217): forced by the first event, a button change or `extra`, or the window
has passed. A `last_btn` without a `last_t` is no state any rule reaches; it sends (DESIGN CHOICE, log 13). -/
def State.throttleSends (th : Throttle) (btn : Byte) (extra : Bool) (s : State) : Bool :=
  decide (th.lastBtn = none) || decide (th.lastBtn ≠ some btn) || extra ||
    (match th.lastT with
     | none => true
     | some t0 => decide (s.cfg.throttleMs.toNat ≤ s.elapsed t0))

/-- What SEND leaves in the class's registers (44_events R217). -/
def State.throttleMark (btn : Byte) (s : State) : Throttle := { lastT := some s.now, lastBtn := some btn }

/-- EV_KEYBOARD (44_events R210, R212): not throttled. -/
def execEvKeyboard (pressed rep : Bool) (keycode : U16) (modifiers : U32) (ascii : Byte) (s : State) : Result :=
  sendGated .keyboard (.evKeyboard pressed rep keycode modifiers ascii) s

/-- EV_TOUCH (44_events R210, R213, R217): throttled, button field `down`. -/
def execEvTouch (x y : U16) (down : Bool) (s : State) : Result :=
  if s.gate .touch && s.throttleSends s.enc.touch (boolByte down) false then
    .next ({ s with enc := { s.enc with touch := s.throttleMark (boolByte down) } }.sendFrame (.evTouch x y down))
  else .next s

/-- EV_MOUSE (44_events R210, R214, R217): throttled, button field `buttons`, forced by a wheel step. -/
def execEvMouse (x y : U16) (wheel : Byte) (buttons : Byte) (s : State) : Result :=
  if s.gate .mouse && s.throttleSends s.enc.mouse buttons (decide (wheel ≠ 0)) then
    .next ({ s with enc := { s.enc with mouse := s.throttleMark buttons } }.sendFrame (.evMouse x y wheel buttons))
  else .next s

/-- EV_BUTTON (44_events R210, R215): not throttled. -/
def execEvButton (index : Byte) (pressed : Bool) (s : State) : Result :=
  sendGated .button (.evButton index pressed) s

/-- EV_ENCODER (44_events R210, R216): not throttled. -/
def execEvEncoder (delta : Byte) (pressed : Bool) (s : State) : Result :=
  sendGated .encoder (.evEncoder delta pressed) s

/-- `ENC.ireq_start <- v`. -/
def State.setIreqStart (v : Option U32) (s : State) : State := { s with enc := { s.enc with ireqStart := v } }

/-- INIT_REQUEST (44_events R218, R219): the rule of the Tick step, the only one that produces the frame. While the screen
is enabled the timer is stopped; a stopped timer starts; a due one sends the frame and restarts (log 15). -/
def execInitRequest (s : State) : Result :=
  if s.ss.enabled then .next (s.setIreqStart none)
  else
    match s.enc.ireqStart with
    | none => .next (s.setIreqStart (some s.now))
    | some t0 =>
      if s.cfg.initReqPeriodMs.toNat ≤ s.elapsed t0 then
        .next ((s.sendFrame .initRequest).setIreqStart (some s.now))
      else .next s

end Sys2Proof.Machine
end

