-- ==== Sys2Proof/Machine/Ignored.lean ====
section
/-! DEFINITION. The ignored inbound types (43_commands R189): a forward-compatible no-op, whatever the state and the
payload; the Reassembler consumes the bytes. One definition per row of the table. -/

namespace Sys2Proof.Machine

/-- `cmd_other(T, P)` (43_commands R189): no state change, no output. -/
def ignoreFrame (_payload : List Byte) (s : State) : Result := .next s

/-- IGNORED_00 (R189). -/
def execIgnored00 (payload : List Byte) (s : State) : Result := ignoreFrame payload s

/-- IGNORED_06_07 (R189). -/
def execIgnored06to07 (_low : BitVec 1) (payload : List Byte) (s : State) : Result := ignoreFrame payload s

/-- IGNORED_08_0F (R189). -/
def execIgnored08to0F (_low : BitVec 3) (payload : List Byte) (s : State) : Result := ignoreFrame payload s

/-- IGNORED_10_1F (R189). -/
def execIgnored10to1F (_low : BitVec 4) (payload : List Byte) (s : State) : Result := ignoreFrame payload s

/-- IGNORED_20_3F (R189). -/
def execIgnored20to3F (_low : BitVec 5) (payload : List Byte) (s : State) : Result := ignoreFrame payload s

/-- IGNORED_40_7F (R189). -/
def execIgnored40to7F (_low : BitVec 6) (payload : List Byte) (s : State) : Result := ignoreFrame payload s

/-- IGNORED_80_FF (R189), 0xFF included, which is an outbound code too (R84). -/
def execIgnored80toFF (_low : BitVec 7) (payload : List Byte) (s : State) : Result := ignoreFrame payload s

end Sys2Proof.Machine
end

