-- ==== Sys2Proof/Machine/Init.lean ====
section
/-! DEFINITION. The init command (43_commands R182 to R184). -/

namespace Sys2Proof.Machine

/-- A rejected init: the error, the screen disabled, `Notify(PARAMS)`, nothing else (43_commands R184). -/
def State.rejectInit (e : EngineError) (s : State) : Result :=
  .next (((s.report e).setEnabled false).notify .params)

/-- The screen a successful init installs (43_commands R183). -/
def screenOf (fmt : Format) (a : InitArgs) : ScreenState :=
  { width := a.width, height := a.height, fmt := fmt, rot := a.rotCode.setWidth 2, indev := a.indev, enabled := true }

/-- A successful init: SS, the buffer's contents and the window replaced in one step, the init-request timer cancelled,
`Notify(PARAMS)` (43_commands R183, 10_state R26). RA and the throttle stay (70_reset_and_hazards R271). -/
def State.acceptInit (fmt : Format) (a : InitArgs) (s : State) : Result :=
  let t := s.freshBuffer
  let ss := screenOf fmt a
  .next ({ t with ss := ss, win := fullScreen ss, enc := { t.enc with ireqStart := none } }.notify .params)

/-- The buffer size an init asks for (43_commands R182). -/
def initBytesNeeded (fmt : Format) (a : InitArgs) : Nat := rowBytes fmt a.width.toNat * a.height.toNat

/-- The field checks of an init, the first failing one reported (43_commands R182). -/
def State.initScreen (a : InitArgs) (s : State) : Result :=
  match formatOfCode s.cfg a.fmtCode with
  | none => s.rejectInit (.unsupportedFormat a.fmtCode)
  | some fmt =>
    if 3 < a.rotCode.toNat then s.rejectInit (.invalidInit (.rotation a.rotCode))
    else if a.width.toNat = 0 ∨ a.height.toNat = 0 then s.rejectInit (.invalidInit (.size a.width a.height))
    else if s.cfg.maxFbBytes < initBytesNeeded fmt a then
      s.rejectInit (.invalidInit (.capacity (initBytesNeeded fmt a)))
    else s.acceptInit fmt a

/-- INIT (43_commands R182): executed whether the screen is enabled or not; bytes after the fixed part are ignored. -/
def execInit (p : Payload InitArgs) (s : State) : Result :=
  withFixedPart 0x01 p s fun a _ t => t.initScreen a

end Sys2Proof.Machine
end

