-- ==== Sys2Proof/Machine/Dispatch.lean ====
section
/-! DEFINITION. The dispatch of 43_commands R180 and of 44_events R210, one arm per instruction. -/

namespace Sys2Proof.Machine

-- The meaning of each instruction; 43_commands section 2 to 7 and 44_events section 2 to 4.
def exec (i : Instr) (s : State) : Host.Outcome State Fault Refusal :=
  match i with
  | .init p => Sys2Proof.Machine.execInit p s
  | .setWindow p => Sys2Proof.Machine.execSetWindow p s
  | .write data => Sys2Proof.Machine.execWrite data s
  | .setWindowWrite p => Sys2Proof.Machine.execSetWindowWrite p s
  | .drawPoint p => Sys2Proof.Machine.execDrawPoint p s
  | .ignored00 payload => Sys2Proof.Machine.execIgnored00 payload s
  | .ignored06to07 low payload => Sys2Proof.Machine.execIgnored06to07 low payload s
  | .ignored08to0F low payload => Sys2Proof.Machine.execIgnored08to0F low payload s
  | .ignored10to1F low payload => Sys2Proof.Machine.execIgnored10to1F low payload s
  | .ignored20to3F low payload => Sys2Proof.Machine.execIgnored20to3F low payload s
  | .ignored40to7F low payload => Sys2Proof.Machine.execIgnored40to7F low payload s
  | .ignored80toFF low payload => Sys2Proof.Machine.execIgnored80toFF low payload s
  | .evKeyboard pressed rep keycode modifiers ascii => Sys2Proof.Machine.execEvKeyboard pressed rep keycode modifiers ascii s
  | .evTouch x y down => Sys2Proof.Machine.execEvTouch x y down s
  | .evMouse x y wheel buttons => Sys2Proof.Machine.execEvMouse x y wheel buttons s
  | .evButton index pressed => Sys2Proof.Machine.execEvButton index pressed s
  | .evEncoder delta pressed => Sys2Proof.Machine.execEvEncoder delta pressed s
  | .initRequest => Sys2Proof.Machine.execInitRequest s

end Sys2Proof.Machine
end

