-- ==== Sys2Proof/Machine/Reassembler.lean ====
section
/-! DEFINITION. The Frame Reassembler (40_reassembler): its three actions as functions of its registers, and the loop of the
`RxByte` step, which hands each emitted frame to the Dispatcher at once (43_commands R180). -/

namespace Sys2Proof.Machine

/-- What one action does: the registers after it, its report, the frame it emits, and whether it ended with WAIT. -/
structure ActionResult where
  ra : Reassembler
  report : Option EngineError
  emitted : Option (Byte × List Byte)
  waits : Bool
  deriving DecidableEq, Repr

/-- The least offset of a sync marker `0xAA 0x55` (40_reassembler R110, R112). -/
def findMarker : List Byte → Option Nat
  | a :: b :: rest =>
    if a = 0xAA ∧ b = 0x55 then some 0
    else match findMarker (b :: rest) with
      | some i => some (i + 1)
      | none => none
  | _ => none

/-- The report of `k` dropped bytes, if any were (40_reassembler R112). -/
def discardReport (k : Nat) : Option EngineError := if 0 < k then some (.syncDiscard k) else none

/-- `keep`: a final 0xAA may be the first half of a marker (40_reassembler R112). -/
def keptBytes (q : List Byte) : Nat := if q.getLast? = some 0xAA then 1 else 0

/-- act_seek (40_reassembler R112). -/
def actSeek (ra : Reassembler) : ActionResult :=
  match findMarker ra.q with
  | some i =>
    { ra := { ra with q := ra.q.drop i, state := .readHeader }, report := discardReport i, emitted := none, waits := false }
  | none =>
    let k := ra.q.length - keptBytes ra.q
    { ra := { ra with q := ra.q.drop k }, report := discardReport k, emitted := none, waits := true }

/-- `Q[2]`, the type of the header (30_encoding R81). -/
def headerType (q : List Byte) : Byte := q.getD 2 0

/-- `le32(Q, 3)`, the length of the header (30_encoding R81). -/
def headerLen (q : List Byte) : Nat := leNat ((q.drop 3).take 4)

/-- act_header (40_reassembler R113 to R115). -/
def actHeader (maxPayload : U32) (ra : Reassembler) : ActionResult :=
  if ra.q.length < 7 then { ra := ra, report := none, emitted := none, waits := true }
  else if maxPayload.toNat < headerLen ra.q then
    { ra := { ra with q := ra.q.drop 2, state := .seekSync }, report := some (.length (headerLen ra.q)),
      emitted := none, waits := false }
  else if headerLen ra.q = 0 then
    { ra := { ra with q := ra.q.drop 7, state := .seekSync }, report := none,
      emitted := some (headerType ra.q, []), waits := false }
  else
    { ra := { ra with t := headerType ra.q, len := BitVec.ofNat 32 (headerLen ra.q), state := .readPayload },
      report := none, emitted := none, waits := false }

/-- act_payload (40_reassembler R116). -/
def actPayload (ra : Reassembler) : ActionResult :=
  if ra.q.length < 7 + ra.len.toNat then { ra := ra, report := none, emitted := none, waits := true }
  else
    { ra := { ra with q := ra.q.drop (7 + ra.len.toNat), state := .seekSync }, report := none,
      emitted := some (ra.t, (ra.q.drop 7).take ra.len.toNat), waits := false }

/-- The action of the current state (40_reassembler R111). -/
def act (maxPayload : U32) (ra : Reassembler) : ActionResult :=
  match ra.state with
  | .seekSync => actSeek ra
  | .readHeader => actHeader maxPayload ra
  | .readPayload => actPayload ra

/-- The output of a report, if there is one. -/
def State.reportIf (e : Option EngineError) (s : State) : State :=
  match e with
  | some e => s.report e
  | none => s

/-- `emit(T, P)`: the Dispatcher takes the frame at once (00_scope R19, 43_commands R180). -/
def State.emitFrame (t : Byte) (p : List Byte) (s : State) : Result :=
  exec (decodeInbound t p) (s.output (.frame t p))

/-- The state after an action's own writes and report. The frame is consumed from `Q` before its command runs; no command
reads RA, so the order does not show (DEDUCED, safe, log 24). -/
def State.afterAction (r : ActionResult) (s : State) : State := { s with ra := r.ra }.reportIf r.report

/-- The loop of 40_reassembler R111: actions until one ends with WAIT, at most `fuel` of them (R119; log 23). -/
def runActions : Nat → State → Result
  | 0, s => .next s
  | fuel + 1, s =>
    let r := act s.cfg.maxPayload s.ra
    match r.emitted with
    | some (t, p) => andThen ((s.afterAction r).emitFrame t p) (runActions fuel)
    | none => if r.waits then .next (s.afterAction r) else runActions fuel (s.afterAction r)

/-- The bound of 40_reassembler R119 on the actions of a step whose `Q` holds `n` bytes. -/
def actionBound (n : Nat) : Nat := 3 * n + 3

/-- Append received bytes to `RA.Q`. -/
def State.receive (chunk : List Byte) (s : State) : State :=
  { s with ra := { s.ra with q := s.ra.q ++ chunk } }

/-- The source's `feed` (00_scope R6, 40_reassembler R118): append the chunk, then run the actions until WAIT. -/
def feed (chunk : List Byte) (s : State) : Result :=
  let t := s.receive chunk
  runActions (actionBound t.ra.q.length) t

/-- A stream fed chunk by chunk (40_reassembler R118). -/
def feedAll : List (List Byte) → State → Result
  | [], s => .next s
  | chunk :: chunks, s => andThen (feed chunk s) (feedAll chunks)

/-- The `RxByte(b)` step (40_reassembler R111). -/
def rxByte (b : Byte) (s : State) : Result := feed [b] s

/-- The registers of a Reassembler that has received `bytes`, the beginning of one frame (40_reassembler R112 to R115):
the state in which it waits for the rest. Bytes that begin no frame it accepts are left to SeekSync (log 20). -/
def awaiting (maxPayload : U32) (ra : Reassembler) (bytes : List Byte) : Reassembler :=
  if bytes.take 2 ≠ [0xAA, 0x55] ∨ (7 ≤ bytes.length ∧ maxPayload.toNat < headerLen bytes) then
    { ra with state := .seekSync, q := bytes }
  else if bytes.length < 7 then { ra with state := .readHeader, q := bytes }
  else { state := .readPayload, q := bytes, t := headerType bytes, len := BitVec.ofNat 32 (headerLen bytes) }

/-- Bytes received one `RxByte` after another (00_scope R6). -/
def rxBytes : List Byte → State → Result
  | [], s => .next s
  | b :: bs, s => andThen (rxByte b s) (rxBytes bs)

end Sys2Proof.Machine
end

