-- ==== Sys2Proof/Machine/Transactions.lean ====
section
/-! DEFINITION. What each transaction of the environment does (00_scope R5, R6, R8). -/

namespace Sys2Proof.Machine

/-- The outbound instruction an input event asks for (44_events R210, R212 to R216). -/
def eventInstr : Event → Instr
  | .key pressed rep keycode modifiers ascii => .evKeyboard pressed rep keycode modifiers ascii
  | .touch x y down => .evTouch x y down
  | .mouse x y wheel buttons => .evMouse x y wheel buttons
  | .button index pressed => .evButton index pressed
  | .encoder delta pressed => .evEncoder delta pressed

/-- The time of a Tick or Input transaction at the time port (00_scope R8; log 6). -/
def State.setNow (now : U32) (s : State) : State := { s with now := now }

/-- One transaction (00_scope R5): a byte to the Reassembler, the time to the init-request timer, or an event to the
Event Encoder. -/
def transact : Transaction → State → Result
  | .rxByte b, s => rxByte b s
  | .tick now, s => exec .initRequest (s.setNow now)
  | .input ev now, s => exec (eventInstr ev) (s.setNow now)

/-- A step starts with no output: none is held from the step before (10_state R58; log 5). -/
def State.startStep (s : State) : State := { s with out := [] }

end Sys2Proof.Machine
end

