-- ==== Sys2Proof/Machine/Step.lean ====
section
/-! DEFINITION. The step: one transaction (00_scope R5), and where the host places the words of an instruction. -/

namespace Sys2Proof.Machine

/-- One step takes the first transaction the environment offers. With none offered the engine is idle and holds its state
(60_exceptions R259; log 4). -/
def step (s : State) : Host.Outcome State Fault Refusal :=
  match s.inbox with
  | [] => .next s.startStep
  | tr :: rest => transact tr { s.startStep with inbox := rest }

/-- `s` with a frame's bytes received up to the last one, which the environment offers next (log 20). -/
def State.withFrame (s : State) (bytes : List Byte) : State :=
  { s with ra := awaiting s.cfg.maxPayload s.ra bytes.dropLast, inbox := .rxByte (bytes.getLastD 0) :: s.inbox }

/-- `s` with the frame of a table word placed so that the next step completes it, decodes it and runs it (log 20). -/
def State.withFetchWord (s : State) (nbits w : Nat) : State := s.withFrame (wordFrame nbits w)

end Sys2Proof.Machine
end

