-- ==== Sys2Proof/Machine/Assembler.lean ====
section
/-! DEFINITION. The spec's notation for programs (30_encoding R103, R104; 92_eei D31): each mnemonic stands for the bytes of
one frame, a program line for the transactions it offers. It adds no instruction. -/

namespace Sys2Proof.Machine

/-- The `fmt` operand of `INIT`: a format's name, coded by `P_FMT_CODE`, or a raw byte (30_encoding R103; log 29). -/
inductive FmtOperand where
  | name (f : Format)
  | raw (code : Byte)
  deriving DecidableEq, Repr

/-- The inbound mnemonics (30_encoding R103). -/
inductive AsmFrame where
  | init (w h : U16) (fmt : FmtOperand) (rot indev : Byte)
  | setwin (x y w h : U16)
  | write (hex : List Byte)
  | setwinw (x y w h : U16) (hex : List Byte)
  | point (x y : U16) (color : U32)
  | frame (t : Byte) (hex : List Byte)
  | raw (hex : List Byte)
  deriving DecidableEq, Repr

/-- The code byte of a `fmt` operand; a format without a code has none (30_encoding R103; log 29). -/
def fmtOperandCode (c : Config) : FmtOperand → Option Byte
  | .name f => codeOfFormat c f
  | .raw code => some code

/-- The stream bytes a mnemonic stands for (30_encoding R103). -/
def asmBytes (c : Config) : AsmFrame → Option (List Byte)
  | .init w h fmt rot indev =>
    (fmtOperandCode c fmt).map fun code =>
      frameBytes 0x01 (leBytes 2 w.toNat ++ leBytes 2 h.toNat ++ [code, rot, indev])
  | .setwin x y w h =>
    some (frameBytes 0x02 (leBytes 2 x.toNat ++ leBytes 2 y.toNat ++ leBytes 2 w.toNat ++ leBytes 2 h.toNat))
  | .write hex => some (frameBytes 0x03 hex)
  | .setwinw x y w h hex =>
    some (frameBytes 0x04 (leBytes 2 x.toNat ++ leBytes 2 y.toNat ++ leBytes 2 w.toNat ++ leBytes 2 h.toNat ++ hex))
  | .point x y color => some (frameBytes 0x05 (leBytes 2 x.toNat ++ leBytes 2 y.toNat ++ leBytes 4 color.toNat))
  | .frame t hex => some (frameBytes t hex)
  | .raw hex => some hex

/-- `FILL x, y, w, h, v`, for the byte formats only (30_encoding R104). -/
def asmFill (fmt : Format) (x y w h : U16) (v : Nat) : Option AsmFrame :=
  match formatClass fmt with
  | .bytes b => some (.setwinw x y w h (List.replicate (w.toNat * h.toNat) (leBytes b v)).flatten)
  | .packed => none

/-- `CLEAR v` (30_encoding R104). -/
def asmClear (ss : ScreenState) (v : Nat) : Option AsmFrame := asmFill ss.fmt 0 0 ss.width ss.height v

/-- `NOP` (30_encoding R104). -/
def asmNop : AsmFrame := .frame 0x00 []

/-- `RESYNC` with its second byte, any but 0x55 and 0xAA (30_encoding R104). -/
def asmResync (b : Byte) : Option AsmFrame := if b = 0x55 ∨ b = 0xAA then none else some (.raw [0xAA, b])

/-- A program line `@t X` (30_encoding R103). -/
inductive AsmLine where
  | rx (f : AsmFrame)
  | tick (t : U32)
  | input (t : U32) (ev : Event)
  deriving DecidableEq, Repr

/-- The transactions a line offers (30_encoding R103, 00_scope R6). -/
def asmLine (c : Config) : AsmLine → Option (List Transaction)
  | .rx f => (asmBytes c f).map fun bytes => bytes.map .rxByte
  | .tick t => some [.tick t]
  | .input t ev => some [.input ev t]

/-- The transactions a program offers, in order; none if a line has no bytes (30_encoding R103). -/
def asmProgram (c : Config) : List AsmLine → Option (List Transaction)
  | [] => some []
  | l :: ls =>
    match asmLine c l, asmProgram c ls with
    | some trs, some rest => some (trs ++ rest)
    | _, _ => none

end Sys2Proof.Machine
end

