-- ==== Sys2Proof/Machine/Interface.lean ====
section
/-! DEFINITION. The consumer's and the transport's side of the interface: the snapshot (00_scope R9), the rendering view of
it (42_pixel_format section 3, which no engine rule reads), and what a transport delivers (00_scope R7). -/

namespace Sys2Proof.Machine

/-- What the rendering consumer reads between steps: the Screen State and `FB[0 .. FB_LEN)` (00_scope R9, 20_memory R66). -/
structure Snapshot where
  ss : ScreenState
  bytes : List Byte
  deriving DecidableEq, Repr

/-- The snapshot of a state. Reading it changes nothing (20_memory R68). -/
def State.snapshot (s : State) : Snapshot := { ss := s.ss, bytes := (List.range s.fbLen).map s.byteAt }

/-- `pixel(x, y)`, the raw pixel value; it has none outside the screen (42_pixel_format R167). -/
def State.pixel (x y : Nat) (s : State) : Option Nat :=
  if x < s.ss.width.toNat ∧ y < s.ss.height.toNat then
    match formatClass s.ss.fmt with
    | .bytes b => some (s.memRead (y * s.stride + b * x) b)
    | .packed => some (((s.byteAt (y * s.stride + x / 8)).toNat >>> (7 - x % 8)) % 2)
  else none

/-- `lit(x, y)`, for the packed formats only (42_pixel_format R163, R167, R173). -/
def State.lit (x y : Nat) (s : State) : Option Bool :=
  match s.ss.fmt with
  | .mono => (s.pixel x y).map fun v => decide (v = 1)
  | .monoInv => (s.pixel x y).map fun v => decide (v = 0)
  | .rgb565 => none
  | .rgb888 => none
  | .gray8 => none

/-- The bits of a slice of a pixel value (00_scope R19). -/
def sliceOf (v : Nat) (b : BitSlice) : Nat := (v >>> b.lo) % 2 ^ b.width

/-- The channels of a pixel value under a layout: red, green, blue (42_pixel_format R170, R171). -/
def channelsOf (l : ChannelLayout) (v : Nat) : Nat × Nat × Nat := (sliceOf v l.red, sliceOf v l.green, sliceOf v l.blue)

/-- The colour of a pixel of a colour format (42_pixel_format R170, R171; log 21). -/
def State.colorAt (x y : Nat) (s : State) : Option (Nat × Nat × Nat) :=
  match s.ss.fmt with
  | .rgb565 => (s.pixel x y).map (channelsOf s.cfg.rgb565Layout)
  | .rgb888 => (s.pixel x y).map (channelsOf s.cfg.rgb888Order)
  | .mono => none
  | .monoInv => none
  | .gray8 => none

/-- The brightness of a GRAY8 intensity, 0 darkest and 255 brightest, under the polarity (42_pixel_format R172; log 21). -/
def brightnessOf (p : GrayPolarity) (v : Nat) : Nat :=
  match p with
  | .zeroDarkest => v
  | .zeroBrightest => 255 - v

/-- The brightness of a pixel of GRAY8 (42_pixel_format R172; log 21). -/
def State.brightnessAt (x y : Nat) (s : State) : Option Nat :=
  match s.ss.fmt with
  | .gray8 => (s.pixel x y).map (brightnessOf s.cfg.gray8Polarity)
  | .rgb565 => none
  | .rgb888 => none
  | .mono => none
  | .monoInv => none

/-- The rotation in degrees the consumer applies; no engine rule reads it (10_state R23, 42_pixel_format R174). -/
def ScreenState.rotationDegrees (ss : ScreenState) : Nat := 90 * ss.rot.toNat

/-- Bit `i` of the byte at offset `a` is row padding of a packed format: it belongs to no pixel (42_pixel_format R168). -/
def State.paddingBit (a i : Nat) (s : State) : Bool :=
  isPacked s.ss.fmt && decide (s.ss.width.toNat % 8 ≠ 0) && decide (a % s.stride = s.stride - 1) &&
    decide (i < 8 - s.ss.width.toNat % 8)

/-- The frames that reach the wire when the transport answers `txOk` to every `Tx` of a step: all of them or none, the
engine's state the same either way (00_scope R7, 44_events R220; log 18). -/
def delivered (txOk : Bool) (out : List Output) : List (List Byte) :=
  out.filterMap fun o =>
    match o with
    | .tx bytes => if txOk then some bytes else none
    | .frame _ _ => none
    | .notify _ => none
    | .err _ => none

end Sys2Proof.Machine
end

