-- ==== Sys2Proof/Safety.lean ====
section
/-! DEFINITION. What the statements are about: legal parameters, the window's byte set, and the invariant of the engine, in
the terms of the rules that give them. -/

namespace Sys2Proof.Machine

/-- The constraints the rules put on the parameters: `P_MAX_PAYLOAD` at least 8 (00_scope R11), a capacity of at least one
byte (R12), a default screen that is not empty and fits (R13), distinct format codes (R14) and distinct mask bits (R15). -/
structure ConfigOk (c : Config) : Prop where
  maxPayload : 8 ≤ c.maxPayload.toNat
  maxFbBytes : 1 ≤ c.maxFbBytes
  defaultW : 1 ≤ c.defaultW.toNat
  defaultH : 1 ≤ c.defaultH.toNat
  defaultFits : rowBytes c.defaultFmt c.defaultW.toNat * c.defaultH.toNat ≤ c.maxFbBytes
  codes : ([c.fmtCode.rgb565, c.fmtCode.rgb888, c.fmtCode.mono, c.fmtCode.monoInv, c.fmtCode.gray8].filterMap id).Nodup
  bits : [c.indevBit.keyboard, c.indevBit.touch, c.indevBit.mouse, c.indevBit.button, c.indevBit.encoder].Nodup

/-- `a ∈ Wset`: offset `a` belongs to the current window (10_state R32). -/
def InWset (s : State) (a : Nat) : Prop :=
  ∃ r c, r ≤ s.win.y1.toNat - s.win.y0.toNat ∧ c < s.winRow ∧ a = s.win.front + r * s.stride + c

/-- The screen is not empty (10_state R20, R21) and fits the pixel memory (10_state R40, 43_commands R182). -/
structure ScreenOk (s : State) : Prop where
  width : 1 ≤ s.ss.width.toNat
  height : 1 ≤ s.ss.height.toNat
  fits : s.fbLen ≤ s.cfg.maxFbBytes

/-- The window registers are those of a valid rectangle of the current screen (10_state R30, R31; 41_framebuffer R131,
R133, R134), and the cursor is in the window (10_state R32). -/
structure WindowOk (s : State) : Prop where
  xs : s.win.x0.toNat ≤ s.win.x1.toNat
  ys : s.win.y0.toNat ≤ s.win.y1.toNat
  valid : s.ss.validRect s.win.x0.toNat s.win.y0.toNat
    (s.win.x1.toNat - s.win.x0.toNat + 1) (s.win.y1.toNat - s.win.y0.toNat + 1) = true
  front : s.win.front = s.stride * s.win.y0.toNat + colOff s.ss.fmt s.win.x0.toNat
  wrap : s.win.wrap = s.stride - winRowOf s.ss.fmt (s.win.x1.toNat - s.win.x0.toNat + 1)
  back : s.win.back = s.fbLen - (s.win.front + (s.win.y1.toNat - s.win.y0.toNat) * s.stride +
    winRowOf s.ss.fmt (s.win.x1.toNat - s.win.x0.toNat + 1))
  cursor : InWset s s.win.cursor

/-- The Reassembler waits: in SeekSync on nothing or a kept 0xAA, in ReadHeader on an incomplete header, in ReadPayload on
an incomplete payload of an accepted length, its latches those of the header in `Q` (10_state R51, R52; 40_reassembler
R112 to R116). -/
def ReassemblerOk (maxPayload : U32) (ra : Reassembler) : Prop :=
  match ra.state with
  | .seekSync => ra.q = [] ∨ ra.q = [0xAA]
  | .readHeader => ra.q.take 2 = [0xAA, 0x55] ∧ ra.q.length < 7
  | .readPayload =>
    ra.q.take 2 = [0xAA, 0x55] ∧ 7 ≤ ra.q.length ∧ ra.q.length < 7 + ra.len.toNat ∧
      ra.len.toNat ≤ maxPayload.toNat ∧ ra.t = headerType ra.q ∧ ra.len.toNat = headerLen ra.q

/-- Both throttle registers of a class are written together (44_events R217). -/
def EncoderOk (e : Encoder) : Prop :=
  e.touch.lastT.isSome = e.touch.lastBtn.isSome ∧ e.mouse.lastT.isSome = e.mouse.lastBtn.isSome

/-- The pixel memory is in canonical form, holds no byte outside the buffer (10_state R40), and its free draw has been
drawn (log 7). -/
structure MemoryOk (s : State) : Prop where
  wf : s.fb.wf = true
  inside : ∀ c ∈ s.fb.cells, c.1 < s.fbLen
  drawn : s.fb.draw < s.draws

/-- The invariant of the engine at step boundaries. -/
structure Inv (s : State) : Prop where
  config : ConfigOk s.cfg
  screen : ScreenOk s
  window : WindowOk s
  reassembler : ReassemblerOk s.cfg.maxPayload s.ra
  encoder : EncoderOk s.enc
  memory : MemoryOk s

/-- The reports of discarded bytes, which alone depend on how a stream is cut into chunks (40_reassembler R118). -/
def isDiscard : Output → Bool
  | .err (.syncDiscard _) => true
  | _ => false

/-- The total number of bytes the reports of discarded bytes count (40_reassembler R118). -/
def discarded : List Output → Nat
  | [] => 0
  | .err (.syncDiscard k) :: os => k + discarded os
  | _ :: os => discarded os

/-- An emitted frame, the internal output (00_scope R5). -/
def isFrame : Output → Bool
  | .frame _ _ => true
  | _ => false

/-- A notification (00_scope R9). -/
def isNotify : Output → Bool
  | .notify _ => true
  | _ => false

/-- A transmitted frame (00_scope R7). -/
def isTx : Output → Bool
  | .tx _ => true
  | _ => false

end Sys2Proof.Machine
end

