-- ==== Sys2Proof/Certificates/Slice0/Obligations.lean ====
section
/-! DEFINITION. The statements for the provers. Each docstring names the rule of spec/ it formalises, and the log entry
where a clause rests on a choice of the model. -/

open Sys2Proof Sys2Proof.Machine

/-! ## Encoding -/

/-- 30_encoding R80 to R90: every well-formed inbound instruction, every operand at every value, reads back from its
frame, and the bytes after the frame are left. -/
def Obligations.InboundFrameDecodesBack : Prop :=
  ∀ (i : Instr) (rest : List Byte), i.direction = .inbound → i.wellFormed = true →
    decode .inbound (encode i ++ rest) = .ok (i, rest)

/-- 30_encoding R91 to R98: every outbound instruction reads back from its frame, but for the high half of the keyboard's
modifiers, which the frame does not carry (44_events R212; log 16). -/
def Obligations.OutboundFrameDecodesBack : Prop :=
  ∀ (i : Instr) (rest : List Byte), i.direction = .outbound →
    decode .outbound (encode i ++ rest) =
      .ok ((match i with
        | .evKeyboard pressed rep keycode modifiers ascii => .evKeyboard pressed rep keycode (modifiers &&& 0xFFFF) ascii
        | j => j), rest)

/-- 30_encoding R80 to R90, the other direction: bytes that decode to an instruction are its frame and the bytes after. -/
def Obligations.InboundBytesEncodeBack : Prop :=
  ∀ (bytes : List Byte) (i : Instr) (rest : List Byte), decode .inbound bytes = .ok (i, rest) →
    i.direction = .inbound ∧ i.wellFormed = true ∧ bytes = encode i ++ rest

/-- 30_encoding R81, R85: the header prefix of an inbound frame matches exactly one row of the opcode table, the row of
the instruction the frame decodes to. -/
def Obligations.EveryInboundTypeIsOneRow : Prop :=
  ∀ (t : Byte) (p : List Byte),
    (opcodeTable.filter fun r => r.matches .inbound (headerPrefix 0xAA 0x55 t)).map OpcodeRow.mnemonic =
      [(decodeInbound t p).mnemonic]

/-- Frames written out byte by byte from 30_encoding R86 to R97 decode to what they stand for. -/
def Obligations.WrittenFramesDecode : Prop :=
  decode .inbound [0xAA, 0x55, 0x01, 7, 0, 0, 0, 0x04, 0, 0x03, 0, 0x02, 0x01, 0x1F] =
      .ok (.init (.full ⟨4, 3, 2, 1, 0x1F⟩ []), []) ∧
    decode .inbound [0xAA, 0x55, 0x05, 8, 0, 0, 0, 3, 0, 4, 1, 0x00, 0xF8, 0x34, 0x12, 0x77] =
      .ok (.drawPoint (.full ⟨3, 0x104, 0x1234F800⟩ []), [0x77]) ∧
    decode .inbound [0xAA, 0x55, 0x02, 2, 0, 0, 0, 1, 2] = .ok (.setWindow (.short [1, 2]), []) ∧
    decode .inbound [0xAA, 0x55, 0xFF, 1, 0, 0, 0, 9] = .ok (.ignored80toFF 0x7F [9], []) ∧
    decode .outbound [0xAA, 0x55, 0x02, 6, 0, 0, 0, 0x0A, 0, 0x14, 0, 0xFF, 0x01] =
      .ok (.evMouse 10 20 0xFF 1, []) ∧
    decode .outbound [0xAA, 0x55, 0xFF, 0, 0, 0, 0] = .ok (.initRequest, [])

/-- 30_encoding R103: the notation's INIT, SETWIN, WRITE, SETWINW and POINT stand for the frames of the instructions. -/
def Obligations.NotationStandsForFrames : Prop :=
  ∀ (c : Config) (x y w h : U16) (code rot indev : Byte) (color : U32) (hex : List Byte),
    asmBytes c (.init w h (.raw code) rot indev) = some (encode (.init (.full ⟨w, h, code, rot, indev⟩ []))) ∧
    asmBytes c (.setwin x y w h) = some (encode (.setWindow (.full ⟨x, y, w, h⟩ []))) ∧
    asmBytes c (.write hex) = some (encode (.write hex)) ∧
    asmBytes c (.setwinw x y w h hex) = some (encode (.setWindowWrite (.full ⟨x, y, w, h⟩ hex))) ∧
    asmBytes c (.point x y color) = some (encode (.drawPoint (.full ⟨x, y, color⟩ [])))

/-! ## The Reassembler and the step -/

/-- A step runs the decoded instruction: the Reassembler holds all of a well-formed inbound frame of an accepted length
but its last byte, that byte comes, and the step is the instruction's meaning on the state with the frame consumed and the
emitted frame among the outputs (00_scope R5, 40_reassembler R111 to R116, 43_commands R180). -/
def Obligations.StepRunsDecodedFrame : Prop :=
  ∀ (s : State) (i : Instr) (bytes : List Byte) (last : Byte) (rest : List Transaction),
    i.direction = .inbound → i.wellFormed = true → i.payloadSize ≤ s.cfg.maxPayload.toNat →
    encode i = bytes ++ [last] → s.inbox = .rxByte last :: rest → s.ra.q = bytes →
    (bytes.length < 7 → s.ra.state = .readHeader) →
    (7 ≤ bytes.length → s.ra.state = .readPayload ∧ s.ra.t = typeByte i ∧ s.ra.len.toNat = i.payloadSize) →
    step s = exec i { s with
      inbox := rest, out := [.frame (typeByte i) (payloadBytes i)],
      ra := { s.ra with state := .seekSync, q := [] } }

/-- 00_scope R5, R8: a Tick runs the init-request timer's rule and an Input the event's, at the time they bring; with
nothing offered the engine holds its state (60_exceptions R259; the empty list and the cleared outputs are the model's,
log 4, log 5). -/
def Obligations.StepRunsTimeAndEvents : Prop :=
  (∀ (s : State) (now : U32) (rest : List Transaction), s.inbox = .tick now :: rest →
    step s = exec .initRequest { s with inbox := rest, now := now, out := [] }) ∧
  (∀ (s : State) (ev : Event) (now : U32) (rest : List Transaction), s.inbox = .input ev now :: rest →
    step s = exec (eventInstr ev) { s with inbox := rest, now := now, out := [] }) ∧
  (∀ s : State, s.inbox = [] → step s = .next { s with out := [] })

/-- 40_reassembler R112: act_seek finds the first marker; without one it drops all but a final 0xAA. -/
def Obligations.SeekFollowsItsRule : Prop :=
  ∀ (maxPayload : U32) (ra : Reassembler), ra.state = .seekSync →
    (∀ i : Nat, ra.q[i]? = some 0xAA → ra.q[i + 1]? = some 0x55 →
      (∀ j : Nat, j < i → ¬ (ra.q[j]? = some 0xAA ∧ ra.q[j + 1]? = some 0x55)) →
      act maxPayload ra =
        { ra := { ra with q := ra.q.drop i, state := .readHeader },
          report := if 0 < i then some (.syncDiscard i) else none, emitted := none, waits := false }) ∧
    ((∀ j : Nat, ¬ (ra.q[j]? = some 0xAA ∧ ra.q[j + 1]? = some 0x55)) →
      act maxPayload ra =
        if ra.q.getLast? = some 0xAA then
          { ra := { ra with q := [0xAA] },
            report := if 1 < ra.q.length then some (.syncDiscard (ra.q.length - 1)) else none,
            emitted := none, waits := true }
        else
          { ra := { ra with q := [] },
            report := if 0 < ra.q.length then some (.syncDiscard ra.q.length) else none,
            emitted := none, waits := true })

/-- 40_reassembler R113, R114, R115: act_header waits for 7 bytes, rejects an over-length header, emits a frame of length
zero, or latches the type and length. -/
def Obligations.HeaderFollowsItsRules : Prop :=
  ∀ (maxPayload : U32) (ra : Reassembler), ra.state = .readHeader →
    act maxPayload ra =
      if ra.q.length < 7 then { ra := ra, report := none, emitted := none, waits := true }
      else if maxPayload.toNat < leNat ((ra.q.drop 3).take 4) then
        { ra := { ra with q := ra.q.drop 2, state := .seekSync },
          report := some (.length (leNat ((ra.q.drop 3).take 4))), emitted := none, waits := false }
      else if leNat ((ra.q.drop 3).take 4) = 0 then
        { ra := { ra with q := ra.q.drop 7, state := .seekSync }, report := none,
          emitted := some (ra.q.getD 2 0, []), waits := false }
      else
        { ra := { state := .readPayload, q := ra.q, t := ra.q.getD 2 0,
                  len := BitVec.ofNat 32 (leNat ((ra.q.drop 3).take 4)) },
          report := none, emitted := none, waits := false }

/-- 40_reassembler R116: act_payload waits for `7 + L` bytes, then emits the payload and consumes the frame. -/
def Obligations.PayloadFollowsItsRule : Prop :=
  ∀ (maxPayload : U32) (ra : Reassembler), ra.state = .readPayload →
    act maxPayload ra =
      if ra.q.length < 7 + ra.len.toNat then { ra := ra, report := none, emitted := none, waits := true }
      else
        { ra := { ra with q := ra.q.drop (7 + ra.len.toNat), state := .seekSync }, report := none,
          emitted := some (ra.t, (ra.q.drop 7).take ra.len.toNat), waits := false }

/-- 40_reassembler R112 to R117: bytes with no marker in them, then any frame of an accepted length, received one by one
from an empty SeekSync: every byte before the frame is reported dropped, its payload is never scanned, and its command
runs once, on a state that differs in the Reassembler and the outputs alone. -/
def Obligations.FrameAfterGarbageRunsOnce : Prop :=
  ∀ (s : State) (garbage : List Byte) (t : Byte) (p : List Byte),
    s.ra.state = .seekSync → s.ra.q = [] → p.length ≤ s.cfg.maxPayload.toNat →
    (∀ j : Nat, j < garbage.length → ¬ (garbage[j]? = some 0xAA ∧ garbage[j + 1]? = some 0x55)) →
    ∃ (ra : Reassembler) (reports : List Output),
      ra.state = .seekSync ∧ ra.q = [] ∧ (∀ o ∈ reports, isDiscard o = true) ∧ discarded reports = garbage.length ∧
      rxBytes (garbage ++ frameBytes t p) s =
        exec (decodeInbound t p) { s with ra := ra, out := s.out ++ reports ++ [.frame t p] }

/-- 40_reassembler R118: however a stream is cut into chunks, the frames, the outputs, the Reassembler and the rest of the
state are those of receiving it byte by byte; only the grouping of the reports of dropped bytes differs, not their total. -/
def Obligations.ChunkingDoesNotShow : Prop :=
  ∀ (s : State) (chunks : List (List Byte)), ReassemblerOk s.cfg.maxPayload s.ra →
    match feedAll chunks s, rxBytes chunks.flatten s with
    | .next t, .next u =>
      ({ t with out := [] } : State) = { u with out := [] } ∧
        t.out.filter (fun o => !isDiscard o) = u.out.filter (fun o => !isDiscard o) ∧
        discarded t.out = discarded u.out
    | .fault f, .fault g => f = g
    | .refused f, .refused g => f = g
    | _, _ => False

/-- 40_reassembler R119: the loop ends with WAIT within `3*|Q| + 3` actions, so more fuel changes nothing. -/
def Obligations.ActionsAreBounded : Prop :=
  ∀ (s : State) (extra : Nat),
    runActions (3 * s.ra.q.length + 3 + extra) s = runActions (3 * s.ra.q.length + 3) s

/-- 60_exceptions R250 and 20_memory R67: the outputs of a step in their order: framing errors, then at most one frame
with at most one error and at most one notification of its command; or one Tx alone. -/
def Obligations.OutputsComeInOrder : Prop :=
  ∀ s t : State, Inv s → step s = .next t →
    ∃ framing rest : List Output, t.out = framing ++ rest ∧
      (∀ o ∈ framing, ∃ k : Nat, o = .err (.syncDiscard k) ∨ o = .err (.length k)) ∧
      (rest = [] ∨ (framing = [] ∧ ∃ bytes : List Byte, rest = [.tx bytes]) ∨
        ∃ (ty : Byte) (p : List Byte) (errs notes : List Output), rest = .frame ty p :: (errs ++ notes) ∧
          errs.length ≤ 1 ∧ (∀ o ∈ errs, ∃ e : EngineError, o = .err e) ∧
          notes.length ≤ 1 ∧ (∀ o ∈ notes, ∃ k : Notification, o = .notify k))

/-! ## The commands -/

/-- 43_commands R182, R183, R184 and R181 for INIT: the checks in their order, each rejection's error, the disabled screen
and the notification; a successful init replaces SS and WIN, cancels the init-request timer and leaves everything else but
the buffer's bytes, which are any value. -/
def Obligations.InitFollowsItsRules : Prop :=
  ∀ (s : State) (p : List Byte),
    let w := leNat (p.take 2)
    let h := leNat ((p.drop 2).take 2)
    let code := p.getD 4 0
    let rot := p.getD 5 0
    let result := exec (.init (parseInit p)) s
    let rejected := fun e : EngineError =>
      result = .next { s with ss := { s.ss with enabled := false }, out := s.out ++ [.err e, .notify .params] }
    if p.length < 7 then result = .next { s with out := s.out ++ [.err (.bufferShortfall 0x01 p.length)] }
    else
      match formatOfCode s.cfg code with
      | none => rejected (.unsupportedFormat code)
      | some fmt =>
        if 3 < rot.toNat then rejected (.invalidInit (.rotation rot))
        else if w = 0 ∨ h = 0 then rejected (.invalidInit (.size (BitVec.ofNat 16 w) (BitVec.ofNat 16 h)))
        else if s.cfg.maxFbBytes < rowBytes fmt w * h then rejected (.invalidInit (.capacity (rowBytes fmt w * h)))
        else
          ∃ (m : Memory) (d : Nat), result = .next { s with
            ss := { width := BitVec.ofNat 16 w, height := BitVec.ofNat 16 h, fmt := fmt,
                    rot := BitVec.ofNat 2 rot.toNat, indev := p.getD 6 0, enabled := true }
            win := { x0 := 0, y0 := 0, x1 := BitVec.ofNat 16 (w - 1), y1 := BitVec.ofNat 16 (h - 1),
                     front := 0, back := 0, wrap := 0, cursor := 0 }
            fb := m
            draws := d
            enc := { s.enc with ireqStart := none }
            out := s.out ++ [.notify .params] }

/-- The model's form of "any value" after an init (43_commands R183, 92_eei D11; DESIGN CHOICE, log 7): an init that
enables the screen gives the buffer a free draw no byte came from before, and every byte reads as that draw's. -/
def Obligations.InitDrawsFreshBytes : Prop :=
  ∀ (s t : State) (p : Payload InitArgs), exec (.init p) s = .next t → t.fb ≠ s.fb →
    t.draws = s.draws + 1 ∧ t.fb.draw = s.draws ∧ ∀ a : Nat, t.byteAt a = Config.freeByte s.draws a

/-- 43_commands R185, 41_framebuffer R131, R133: SET_WINDOW ignored while disabled, short, invalid with the window kept,
or valid with the window registers recomputed and nothing else changed. -/
def Obligations.SetWindowFollowsItsRules : Prop :=
  ∀ (s : State) (p : List Byte),
    let x := leNat (p.take 2)
    let y := leNat ((p.drop 2).take 2)
    let w := leNat ((p.drop 4).take 2)
    let h := leNat ((p.drop 6).take 2)
    let front := s.stride * y + colOff s.ss.fmt x
    let wr := winRowOf s.ss.fmt w
    exec (.setWindow (parseRect p)) s =
      if s.ss.enabled = false then .next s
      else if p.length < 8 then .next { s with out := s.out ++ [.err (.bufferShortfall 0x02 p.length)] }
      else if 1 ≤ w ∧ 1 ≤ h ∧ x + w ≤ s.ss.width.toNat ∧ y + h ≤ s.ss.height.toNat ∧
          ((s.ss.fmt = .mono ∨ s.ss.fmt = .monoInv) → x % 8 = 0 ∧ (w % 8 = 0 ∨ x + w = s.ss.width.toNat)) then
        .next { s with win := {
          x0 := BitVec.ofNat 16 x, y0 := BitVec.ofNat 16 y
          x1 := BitVec.ofNat 16 (x + w - 1), y1 := BitVec.ofNat 16 (y + h - 1)
          front := front, back := s.fbLen - (front + (h - 1) * s.stride + wr)
          wrap := s.stride - wr, cursor := front } }
      else .next { s with out := s.out ++ [.err (.invalidWindow x y w h)] }

/-- 41_framebuffer R132, R133: on a byte format a valid set-window gives the source's own formulas for front, wrap and back. -/
def Obligations.ByteWindowHasSourceFormulas : Prop :=
  ∀ (s : State) (r : RectArgs) (rest : List Byte) (n : Nat), s.ss.enabled = true → formatClass s.ss.fmt = .bytes n →
    1 ≤ r.w.toNat → 1 ≤ r.h.toNat → r.x.toNat + r.w.toNat ≤ s.ss.width.toNat →
    r.y.toNat + r.h.toNat ≤ s.ss.height.toNat →
    ∃ t : State, exec (.setWindow (.full r rest)) s = .next t ∧
      t.win.front = n * s.ss.width.toNat * r.y.toNat + n * r.x.toNat ∧
      t.win.wrap = n * (s.ss.width.toNat - r.w.toNat) ∧
      t.win.back = n * s.ss.width.toNat * (s.ss.height.toNat - r.y.toNat - r.h.toNat) +
        n * (s.ss.width.toNat - r.x.toNat - r.w.toNat) ∧
      t.win.cursor = t.win.front

/-- 43_commands R186, 41_framebuffer R136 (in its closed form), R139: WRITE ignored while disabled; else byte j of the data
goes to ring position lin(cursor) + j, the cursor ends |D| positions on, nothing else changes, and Notify(FRAME). Under
HAVOC a packed partial row leaves the window's bytes at any value and every other byte as it was. -/
def Obligations.WriteFollowsItsRules : Prop :=
  ∀ (s : State) (data : List Byte), WindowOk s →
    if s.ss.enabled = false then exec (.write data) s = .next s
    else
      let place := fun j : Nat => s.addr ((s.lin s.win.cursor + j) % s.capacity)
      let havoc := (s.ss.fmt = .mono ∨ s.ss.fmt = .monoInv) ∧ data.length % s.winRow ≠ 0 ∧ s.cfg.monoPartial = .havoc
      ∃ (m : Memory) (d : Nat),
        exec (.write data) s = .next { s with
          fb := m, draws := d, win := { s.win with cursor := place data.length }, out := s.out ++ [.notify .frame] } ∧
        (¬ havoc →
          (∀ (j : Nat) (hj : j < data.length), data.length ≤ j + s.capacity → m.read (place j) = data[j]) ∧
          (∀ a : Nat, (∀ j : Nat, j < data.length → a ≠ place j) → m.read a = s.byteAt a)) ∧
        (havoc → ∀ a : Nat, ¬ InWset s a → m.read a = s.byteAt a)

/-- The model's form of HAVOC's "any value" (41_framebuffer R139; DESIGN CHOICE, log 22): each byte of the window is a
byte of a free draw taken by the write. -/
def Obligations.HavocDrawsFreshBytes : Prop :=
  ∀ (s t : State) (data : List Byte), WindowOk s → s.ss.enabled = true → isPacked s.ss.fmt = true →
    data.length % s.winRow ≠ 0 → s.cfg.monoPartial = .havoc → exec (.write data) s = .next t →
    t.draws = s.draws + 1 ∧ t.fb.draw = s.fb.draw ∧ ∀ a : Nat, InWset s a → t.byteAt a = Config.freeByte s.draws a

/-- 43_commands R187, R181: SET_WINDOW_WRITE ignored while disabled, short, invalid with nothing written, or the window of
R133 with the data written from its first byte as R136 says, nothing else changed, and Notify(FRAME). -/
def Obligations.SetWindowWriteFollowsItsRules : Prop :=
  ∀ (s : State) (p : List Byte),
    let x := leNat (p.take 2)
    let y := leNat ((p.drop 2).take 2)
    let w := leNat ((p.drop 4).take 2)
    let h := leNat ((p.drop 6).take 2)
    let data := p.drop 8
    let front := s.stride * y + colOff s.ss.fmt x
    let wr := winRowOf s.ss.fmt w
    let place := fun j : Nat => front + (j % (h * wr)) / wr * s.stride + (j % (h * wr)) % wr
    let havoc := (s.ss.fmt = .mono ∨ s.ss.fmt = .monoInv) ∧ data.length % wr ≠ 0 ∧ s.cfg.monoPartial = .havoc
    let result := exec (.setWindowWrite (parseRect p)) s
    if s.ss.enabled = false then result = .next s
    else if p.length < 8 then result = .next { s with out := s.out ++ [.err (.bufferShortfall 0x04 p.length)] }
    else if 1 ≤ w ∧ 1 ≤ h ∧ x + w ≤ s.ss.width.toNat ∧ y + h ≤ s.ss.height.toNat ∧
        ((s.ss.fmt = .mono ∨ s.ss.fmt = .monoInv) → x % 8 = 0 ∧ (w % 8 = 0 ∨ x + w = s.ss.width.toNat)) then
      ∃ (m : Memory) (d : Nat),
        result = .next { s with
          fb := m
          draws := d
          win := {
            x0 := BitVec.ofNat 16 x, y0 := BitVec.ofNat 16 y
            x1 := BitVec.ofNat 16 (x + w - 1), y1 := BitVec.ofNat 16 (y + h - 1)
            front := front, back := s.fbLen - (front + (h - 1) * s.stride + wr)
            wrap := s.stride - wr, cursor := place data.length }
          out := s.out ++ [.notify .frame] } ∧
        (¬ havoc →
          (∀ (j : Nat) (hj : j < data.length), data.length ≤ j + h * wr → m.read (place j) = data[j]) ∧
          (∀ a : Nat, (∀ j : Nat, j < data.length → a ≠ place j) → m.read a = s.byteAt a)) ∧
        (havoc → ∀ a : Nat, (∀ j : Nat, j < h * wr → a ≠ place j) → m.read a = s.byteAt a)
    else result = .next { s with out := s.out ++ [.err (.invalidWindow x y w h)] }

/-- 43_commands R188, 41_framebuffer R140: DRAW_POINT ignored while disabled, short, outside the screen, or the B low bytes
of the colour stored little-endian at the pixel, or its bit 0 at the pixel's bit; no other byte, no other bit, no window
register changes, and Notify(FRAME). -/
def Obligations.DrawPointFollowsItsRules : Prop :=
  ∀ (s : State) (p : List Byte),
    let x := leNat (p.take 2)
    let y := leNat ((p.drop 2).take 2)
    let color := leNat ((p.drop 4).take 4)
    let result := exec (.drawPoint (parsePoint p)) s
    if s.ss.enabled = false then result = .next s
    else if p.length < 8 then result = .next { s with out := s.out ++ [.err (.bufferShortfall 0x05 p.length)] }
    else if s.ss.width.toNat ≤ x ∨ s.ss.height.toNat ≤ y then
      result = .next { s with out := s.out ++ [.err (.invalidPoint x y)] }
    else
      ∃ m : Memory, result = .next { s with fb := m, out := s.out ++ [.notify .frame] } ∧
        match formatClass s.ss.fmt with
        | .bytes n =>
          (∀ i : Nat, i < n → m.read (y * s.stride + n * x + i) = BitVec.ofNat 8 (color / 256 ^ i)) ∧
          (∀ a : Nat, a < y * s.stride + n * x ∨ y * s.stride + n * x + n ≤ a → m.read a = s.byteAt a)
        | .packed =>
          (∀ i : Nat, i < 8 → (m.read (y * s.stride + x / 8)).getLsbD i =
            if i = 7 - x % 8 then color.testBit 0 else (s.byteAt (y * s.stride + x / 8)).getLsbD i) ∧
          (∀ a : Nat, a ≠ y * s.stride + x / 8 → m.read a = s.byteAt a)

/-- 43_commands R189: the frames of the types 0x00 and 0x06 to 0xFF change nothing and produce nothing, whatever the state
and the payload (the constructors ignored00, ignored06to07, ignored08to0F, ignored10to1F, ignored20to3F, ignored40to7F and
ignored80toFF), and the Reassembler consumes their bytes. -/
def Obligations.IgnoredTypesDoNothing : Prop :=
  (∀ (s : State) (payload : List Byte),
    exec (.ignored00 payload) s = .next s ∧
    (∀ low : BitVec 1, exec (.ignored06to07 low payload) s = .next s) ∧
    (∀ low : BitVec 3, exec (.ignored08to0F low payload) s = .next s) ∧
    (∀ low : BitVec 4, exec (.ignored10to1F low payload) s = .next s) ∧
    (∀ low : BitVec 5, exec (.ignored20to3F low payload) s = .next s) ∧
    (∀ low : BitVec 6, exec (.ignored40to7F low payload) s = .next s) ∧
    (∀ low : BitVec 7, exec (.ignored80toFF low payload) s = .next s)) ∧
  (∀ (s : State) (t : Byte) (p : List Byte), t.toNat = 0 ∨ 6 ≤ t.toNat → p.length ≤ s.cfg.maxPayload.toNat →
    s.ra.state = .seekSync → s.ra.q = [] →
    ∃ ra : Reassembler, ra.state = .seekSync ∧ ra.q = [] ∧
      rxBytes (frameBytes t p) s = .next { s with ra := ra, out := s.out ++ [.frame t p] })

/-! ## The window and the picture -/

/-- 41_framebuffer R135: `addr` and `lin` are inverse bijections between the linear positions and the window's bytes. -/
def Obligations.WindowOrderIsABijection : Prop :=
  ∀ s : State, WindowOk s →
    (∀ k : Nat, k < s.capacity → InWset s (s.addr k) ∧ s.lin (s.addr k) = k) ∧
    (∀ a : Nat, InWset s a → s.lin a < s.capacity ∧ s.addr (s.lin a) = a) ∧
    s.ringEnd = s.addr (s.capacity - 1) + 1

/-- 41_framebuffer R137, 10_state R32: whatever the data and the parameters, a write or set-window+write that completes
leaves the cursor in the window and every byte outside the window as it was. -/
def Obligations.WritesStayInTheWindow : Prop :=
  ∀ (s t : State), WindowOk s →
    ((∃ data : List Byte, exec (.write data) s = .next t) ∨
      (∃ p : Payload RectArgs, exec (.setWindowWrite p) s = .next t)) →
    InWset t t.win.cursor ∧ ∀ a : Nat, ¬ InWset t a → t.byteAt a = s.byteAt a

/-- 41_framebuffer R138: a valid set-window and then a write of exactly its capacity leave the data in raster order, no
other byte changed, and the cursor at the window's first byte. -/
def Obligations.RasterFillIsExact : Prop :=
  ∀ (s : State) (r : RectArgs) (extra data : List Byte), s.ss.enabled = true →
    s.ss.validRect r.x.toNat r.y.toNat r.w.toNat r.h.toNat = true →
    data.length = r.h.toNat * winRowOf s.ss.fmt r.w.toNat →
    ∃ t u : State, exec (.setWindow (.full r extra)) s = .next t ∧ exec (.write data) t = .next u ∧
      (∀ row col : Nat, row < r.h.toNat → col < winRowOf s.ss.fmt r.w.toNat →
        data[row * winRowOf s.ss.fmt r.w.toNat + col]? =
          some (u.byteAt ((r.y.toNat + row) * s.stride + colOff s.ss.fmt r.x.toNat + col))) ∧
      (∀ a : Nat, (∀ row col : Nat, row < r.h.toNat → col < winRowOf s.ss.fmt r.w.toNat →
        a ≠ (r.y.toNat + row) * s.stride + colOff s.ss.fmt r.x.toNat + col) → u.byteAt a = s.byteAt a) ∧
      u.win.cursor = t.win.front

/-- 41_framebuffer R138: writing one capacity of data twice leaves the bytes and the cursor of writing it once. -/
def Obligations.RingFillIsIdempotent : Prop :=
  ∀ (s : State) (data : List Byte), WindowOk s → s.ss.enabled = true → data.length = s.capacity →
    ∃ t u : State, exec (.write data) s = .next t ∧ exec (.write data) t = .next u ∧
      t.win = s.win ∧ u.win = t.win ∧ ∀ a : Nat, u.byteAt a = t.byteAt a

/-- 42_pixel_format R167: the pixel a draw-point drew reads back as its colour truncated to the format, and every other
pixel of the screen reads as before. -/
def Obligations.DrawnPixelReadsBack : Prop :=
  ∀ (s : State) (a : PointArgs) (rest : List Byte), s.ss.enabled = true →
    a.x.toNat < s.ss.width.toNat → a.y.toNat < s.ss.height.toNat →
    ∃ t : State, exec (.drawPoint (.full a rest)) s = .next t ∧
      t.pixel a.x.toNat a.y.toNat =
        some (match formatClass s.ss.fmt with
          | .bytes n => a.color.toNat % 256 ^ n
          | .packed => a.color.toNat % 2) ∧
      ∀ x y : Nat, ¬ (x = a.x.toNat ∧ y = a.y.toNat) → t.pixel x y = s.pixel x y

/-- 42_pixel_format R168: a draw-point never changes a padding bit. -/
def Obligations.DrawPointKeepsPadding : Prop :=
  ∀ (s t : State) (p : Payload PointArgs) (a i : Nat), exec (.drawPoint p) s = .next t → s.paddingBit a i = true →
    (t.byteAt a).getLsbD i = (s.byteAt a).getLsbD i

/-- 42_pixel_format R162: rows of the byte formats are B bytes a pixel, rows of the packed formats round up to whole
bytes, and the buffer is the rows. -/
def Obligations.RowsAndBufferSizes : Prop :=
  (∀ n : Nat, rowBytes .rgb565 n = 2 * n ∧ rowBytes .rgb888 n = 3 * n ∧ rowBytes .gray8 n = n ∧
    rowBytes .mono n = (n + 7) / 8 ∧ rowBytes .monoInv n = (n + 7) / 8) ∧
  (∀ s : State, s.stride = rowBytes s.ss.fmt s.ss.width.toNat ∧ s.fbLen = s.stride * s.ss.height.toNat)

/-- 42_pixel_format R163, R167: a stored 1 is a lit pixel in MONO and an unlit one in MONO_INV. -/
def Obligations.PolarityOfPackedPixels : Prop :=
  ∀ (s : State) (x y : Nat), x < s.ss.width.toNat → y < s.ss.height.toNat →
    let bit := (s.byteAt (y * s.stride + x / 8)).getLsbD (7 - x % 8)
    (s.ss.fmt = .mono → s.lit x y = some bit) ∧ (s.ss.fmt = .monoInv → s.lit x y = some (!bit))

/-! ## The Event Encoder -/

/-- 44_events R212, R215, R216 with the gate of R211: the keyboard, button and encoder events send exactly their frame when
the screen is enabled and the class's mask bit is set, and do nothing else; otherwise they do nothing. -/
def Obligations.UnthrottledEventsSend : Prop :=
  (∀ (s : State) (pressed rep : Bool) (keycode : U16) (modifiers : U32) (ascii : Byte),
    exec (.evKeyboard pressed rep keycode modifiers ascii) s = .next
      (if s.ss.enabled = true ∧ s.ss.indev.getLsbD s.cfg.indevBit.keyboard.val = true then
        { s with out := s.out ++ [.tx [0xAA, 0x55, 0x00, 6, 0, 0, 0,
          BitVec.ofNat 8 (2 * rep.toNat + pressed.toNat),
          keycode.extractLsb' 0 8, keycode.extractLsb' 8 8,
          modifiers.extractLsb' 0 8, modifiers.extractLsb' 8 8, ascii]] }
      else s)) ∧
  (∀ (s : State) (index : Byte) (pressed : Bool),
    exec (.evButton index pressed) s = .next
      (if s.ss.enabled = true ∧ s.ss.indev.getLsbD s.cfg.indevBit.button.val = true then
        { s with out := s.out ++ [.tx [0xAA, 0x55, 0x03, 2, 0, 0, 0, index, BitVec.ofNat 8 pressed.toNat]] }
      else s)) ∧
  (∀ (s : State) (delta : Byte) (pressed : Bool),
    exec (.evEncoder delta pressed) s = .next
      (if s.ss.enabled = true ∧ s.ss.indev.getLsbD s.cfg.indevBit.encoder.val = true then
        { s with out := s.out ++ [.tx [0xAA, 0x55, 0x04, 2, 0, 0, 0, delta, BitVec.ofNat 8 pressed.toNat]] }
      else s))

/-- 44_events R213, R217 with the gate of R211: a touch event that passes the gate and is the first, changes the button
field or comes a window after the last sent one is sent and marks the registers; any other does nothing. -/
def Obligations.TouchEventsThrottle : Prop :=
  ∀ (s : State) (x y : U16) (down : Bool), EncoderOk s.enc →
    let btn : Byte := BitVec.ofNat 8 down.toNat
    let sends := s.ss.enabled = true ∧ s.ss.indev.getLsbD s.cfg.indevBit.touch.val = true ∧
      (s.enc.touch.lastBtn = none ∨ s.enc.touch.lastBtn ≠ some btn ∨
        ∃ t0 : U32, s.enc.touch.lastT = some t0 ∧
          s.cfg.throttleMs.toNat ≤ (s.now.toNat + 2 ^ 32 - t0.toNat) % 2 ^ 32)
    (sends → exec (.evTouch x y down) s = .next { s with
      enc := { s.enc with touch := { lastT := some s.now, lastBtn := some btn } }
      out := s.out ++ [.tx [0xAA, 0x55, 0x01, 5, 0, 0, 0, x.extractLsb' 0 8, x.extractLsb' 8 8,
        y.extractLsb' 0 8, y.extractLsb' 8 8, btn]] }) ∧
    (¬ sends → exec (.evTouch x y down) s = .next s)

/-- 44_events R214, R217 with the gate of R211: the same of a mouse event, which a wheel step forces too. -/
def Obligations.MouseEventsThrottle : Prop :=
  ∀ (s : State) (x y : U16) (wheel buttons : Byte), EncoderOk s.enc →
    let sends := s.ss.enabled = true ∧ s.ss.indev.getLsbD s.cfg.indevBit.mouse.val = true ∧
      (s.enc.mouse.lastBtn = none ∨ s.enc.mouse.lastBtn ≠ some buttons ∨ wheel ≠ 0 ∨
        ∃ t0 : U32, s.enc.mouse.lastT = some t0 ∧
          s.cfg.throttleMs.toNat ≤ (s.now.toNat + 2 ^ 32 - t0.toNat) % 2 ^ 32)
    (sends → exec (.evMouse x y wheel buttons) s = .next { s with
      enc := { s.enc with mouse := { lastT := some s.now, lastBtn := some buttons } }
      out := s.out ++ [.tx [0xAA, 0x55, 0x02, 6, 0, 0, 0, x.extractLsb' 0 8, x.extractLsb' 8 8,
        y.extractLsb' 0 8, y.extractLsb' 8 8, wheel, buttons]] }) ∧
    (¬ sends → exec (.evMouse x y wheel buttons) s = .next s)

/-- 44_events R217, the source's testable property: after a mouse event that was sent, a second one within the window with
the same buttons and no wheel step is dropped, and one with other buttons is sent. -/
def Obligations.MouseSendsOncePerWindow : Prop :=
  ∀ (s t : State) (x y x' y' : U16) (wheel buttons buttons' : Byte) (now' : U32),
    exec (.evMouse x y wheel buttons) s = .next t → t.out ≠ s.out →
    (now' - s.now).toNat < s.cfg.throttleMs.toNat →
    exec (.evMouse x' y' 0 buttons) { t with now := now' } = .next { t with now := now' } ∧
    (buttons' ≠ buttons → ∃ (u : State) (bytes : List Byte),
      exec (.evMouse x' y' 0 buttons') { t with now := now' } = .next u ∧ u.out = t.out ++ [.tx bytes])

/-- 44_events R218, with R219's frame: a Tick stops the timer while enabled, starts a stopped one while disabled, sends the
init-request and restarts when a period has passed, and else does nothing; nothing else changes. -/
def Obligations.InitRequestTimerFollowsItsRule : Prop :=
  ∀ s : State, exec .initRequest s = .next
    (if s.ss.enabled = true then { s with enc := { s.enc with ireqStart := none } }
    else
      match s.enc.ireqStart with
      | none => { s with enc := { s.enc with ireqStart := some s.now } }
      | some t0 =>
        if s.cfg.initReqPeriodMs.toNat ≤ (s.now.toNat + 2 ^ 32 - t0.toNat) % 2 ^ 32 then
          { s with enc := { s.enc with ireqStart := some s.now },
                   out := s.out ++ [.tx [0xAA, 0x55, 0xFF, 0, 0, 0, 0]] }
        else s)

/-- 44_events R219: only the Tick rule produces an init-request, on a disabled screen, and it is the 7 bytes of 30_encoding
R97; the input-device mask does not gate it. -/
def Obligations.OnlyTicksSendInitRequests : Prop :=
  ∀ (s t : State) (bytes : List Byte), step s = .next t → Output.tx bytes ∈ t.out → bytes[2]? = some 0xFF →
    bytes = [0xAA, 0x55, 0xFF, 0, 0, 0, 0] ∧ s.ss.enabled = false ∧
      ∃ (now : U32) (rest : List Transaction), s.inbox = .tick now :: rest ∧
        ∀ mask : Byte, ∃ u : State, step { s with ss := { s.ss with indev := mask } } = .next u ∧ u.out = t.out

/-! ## The whole machine -/

/-- 10_state R57, the access summary: which instruction may write each part of the state. SS by init alone; WIN by init,
the set-windows and the writes; FB by init, the writes and draw-point; the throttle registers by their class's event; the
timer by init and the Tick rule; RA and the parameters by none. Outputs are only added. -/
def Obligations.OnlyTheNamedWritersWrite : Prop :=
  ∀ (i : Instr) (s t : State), exec i s = .next t →
    (t.ss ≠ s.ss → ∃ p, i = .init p) ∧
    (t.win ≠ s.win → (∃ p, i = .init p) ∨ (∃ p, i = .setWindow p) ∨ (∃ d, i = .write d) ∨ ∃ p, i = .setWindowWrite p) ∧
    (t.fb ≠ s.fb → (∃ p, i = .init p) ∨ (∃ d, i = .write d) ∨ (∃ p, i = .setWindowWrite p) ∨ ∃ p, i = .drawPoint p) ∧
    (t.enc.touch ≠ s.enc.touch → ∃ x y d, i = .evTouch x y d) ∧
    (t.enc.mouse ≠ s.enc.mouse → ∃ x y w b, i = .evMouse x y w b) ∧
    (t.enc.ireqStart ≠ s.enc.ireqStart → (∃ p, i = .init p) ∨ i = .initRequest) ∧
    t.ra = s.ra ∧ t.cfg = s.cfg ∧ t.now = s.now ∧ t.inbox = s.inbox ∧ s.out <+: t.out

/-- 44_events R210, R221, 20_memory R75: an Input or Tick step leaves SS, WIN, FB and RA as they were and sends at most one
frame, its only output; and a byte received changes no throttle register. -/
def Obligations.PathsAreIndependent : Prop :=
  ∀ (s t : State) (tr : Transaction) (rest : List Transaction), s.inbox = tr :: rest → step s = .next t →
    match tr with
    | .rxByte _ => t.enc.touch = s.enc.touch ∧ t.enc.mouse = s.enc.mouse ∧ t.now = s.now ∧ ∀ b, Output.tx b ∉ t.out
    | .tick _ => t.ss = s.ss ∧ t.win = s.win ∧ t.fb = s.fb ∧ t.ra = s.ra ∧ (t.out = [] ∨ ∃ b, t.out = [.tx b])
    | .input _ _ => t.ss = s.ss ∧ t.win = s.win ∧ t.fb = s.fb ∧ t.ra = s.ra ∧ (t.out = [] ∨ ∃ b, t.out = [.tx b])

/-- 00_scope R10, 10_state R58: no state depends on an output. With other outputs before it an instruction does the same
and adds the same outputs. -/
def Obligations.NothingDependsOnOutputs : Prop :=
  ∀ (i : Instr) (s t : State) (other : List Output), exec i s = .next t →
    ∃ added : List Output, t.out = s.out ++ added ∧
      exec i { s with out := other } = .next { t with out := other ++ added }

/-- 10_state R23, 42_pixel_format R174: no instruction reads the rotation. On a screen that differs in its rotation alone,
an instruction that is not an init leads to a state that differs in it alone. -/
def Obligations.RotationIsNeverRead : Prop :=
  ∀ (i : Instr) (s t : State) (rot : BitVec 2), (∀ p, i ≠ .init p) → exec i s = .next t →
    exec i { s with ss := { s.ss with rot := rot } } = .next { t with ss := { t.ss with rot := rot } }

/-- 00_scope section 3: a step takes one offered transaction and leaves the parameters as they are. -/
def Obligations.StepKeepsParameters : Prop :=
  ∀ s t : State, step s = .next t → t.cfg = s.cfg ∧ t.inbox = s.inbox.tail

/-- 70_reset_and_hazards R270: the reset value of every register the rule gives one. -/
def Obligations.ResetFollowsItsTable : Prop :=
  ∀ c : Config, let s := State.resetWith c
    s.ss.width = c.defaultW ∧ s.ss.height = c.defaultH ∧ s.ss.fmt = c.defaultFmt ∧ s.ss.rot = 0 ∧ s.ss.indev = 0x00 ∧
    s.ss.enabled = false ∧ s.win.x0 = 0 ∧ s.win.y0 = 0 ∧ s.win.x1 = c.defaultW - 1 ∧ s.win.y1 = c.defaultH - 1 ∧
    s.win.front = 0 ∧ s.win.back = 0 ∧ s.win.wrap = 0 ∧ s.win.cursor = 0 ∧ s.ra.state = .seekSync ∧ s.ra.q = [] ∧
    s.enc.touch.lastT = none ∧ s.enc.mouse.lastT = none ∧ s.enc.touch.lastBtn = none ∧ s.enc.mouse.lastBtn = none ∧
    s.enc.ireqStart = none ∧ s.out = []

/-- The invariant holds at reset, for every legal choice of parameters and for the default one (70_reset_and_hazards R270,
10_state R30, R32). -/
def Obligations.ResetMeetsTheInvariant : Prop :=
  (∀ c : Config, ConfigOk c → Inv (State.resetWith c)) ∧ Inv State.reset

/-- Every step from a state that meets the invariant gives one that meets it: the screen fits the memory, the window is a
valid rectangle with the cursor in it, the Reassembler waits on the beginning of one frame, the pixel memory is canonical
and inside the buffer (10_state R30, R32, R40, R51, R52; 41_framebuffer R137; 40_reassembler R112 to R116). -/
def Obligations.StepKeepsTheInvariant : Prop :=
  ∀ s t : State, Inv s → step s = .next t → Inv t

/-- 60_exceptions R247: nothing is fatal. From a state that meets the invariant every step answers a next state. -/
def Obligations.NoStepStops : Prop :=
  ∀ s : State, Inv s → ∃ t : State, step s = .next t

/-- 60_exceptions R247, over runs: with any legal parameters, whatever the environment offers, a run from reset goes on for
any number of steps and meets the invariant. -/
def Obligations.EveryRunGoesOn : Prop :=
  ∀ (c : Config) (offered : List Transaction) (n : Nat), ConfigOk c →
    ∃ t : State, Host.Core.run Sys2Proof.core n ({ State.resetWith c with inbox := offered } : State) = .next t ∧ Inv t

/-- 00_scope R12, 10_state R31, 41_framebuffer R130: in every state that meets the invariant the four byte-offset registers
are below `FB_LEN`, which is at most the capacity, so each fits the width ADDR_BITS; and ADDR_BITS is the least width that
holds the capacity. -/
def Obligations.OffsetsFitTheirRegisters : Prop :=
  ∀ s : State, Inv s →
    s.win.front < s.fbLen ∧ s.win.back < s.fbLen ∧ s.win.wrap < s.fbLen ∧ s.win.cursor < s.fbLen ∧
    s.fbLen ≤ s.cfg.maxFbBytes ∧ ∀ n : Nat, s.cfg.maxFbBytes < 2 ^ n ↔ addrBits s.cfg ≤ n
end

