-- ==== Sys2Proof/Laws/Bytes.lean ====
section
/-! SUPPORT. Byte order (00_scope R19, 20_memory R61): `leBytes` and `leNat` undo each other, lengths of frames, and the
round trip of each field of a payload. -/

namespace Sys2Proof

@[simp] theorem leBytes_length (n v : Nat) : (leBytes n v).length = n := by
  induction n generalizing v with
  | zero => rfl
  | succ n ih => simp [leBytes, ih]

theorem leNat_leBytes (n v : Nat) : leNat (leBytes n v) = v % 256 ^ n := by
  induction n generalizing v with
  | zero => simp [leBytes, leNat, Nat.mod_one]
  | succ n ih =>
    have h : v % 256 ^ (n + 1) = v % 256 + 256 * (v / 256 % 256 ^ n) := by rw [pow_succ', Nat.mod_mul]
    rw [h, leBytes, leNat, ih, BitVec.toNat_ofNat]

theorem leNat_lt (bs : List Byte) : leNat bs < 256 ^ bs.length := by
  induction bs with
  | nil => simp [leNat]
  | cons b bs ih =>
    have hb : b.toNat < 256 := b.isLt
    simp only [leNat, List.length_cons, pow_succ']
    omega

theorem leBytes_leNat (bs : List Byte) : leBytes bs.length (leNat bs) = bs := by
  induction bs with
  | nil => rfl
  | cons b bs ih =>
    have hb : b.toNat < 256 := b.isLt
    have h1 : (b.toNat + 256 * leNat bs) / 256 = leNat bs := by omega
    simp only [List.length_cons, leBytes, leNat, h1, ih]
    congr 1
    apply BitVec.eq_of_toNat_eq
    rw [BitVec.toNat_ofNat]
    omega

/-- The two bytes of a u16 field, written out. -/
theorem leBytes_two (v : U16) :
    leBytes 2 v.toNat = [BitVec.ofNat 8 v.toNat, BitVec.ofNat 8 (v.toNat / 256)] := rfl

/-- The four bytes of a u32 field, written out. -/
theorem leBytes_four (v : Nat) :
    leBytes 4 v = [BitVec.ofNat 8 v, BitVec.ofNat 8 (v / 256), BitVec.ofNat 8 (v / 256 / 256),
      BitVec.ofNat 8 (v / 256 / 256 / 256)] := rfl

/-- A u16 field reads back (30_encoding R98). -/
theorem u16Of_leBytes (v : U16) : u16Of (BitVec.ofNat 8 v.toNat) (BitVec.ofNat 8 (v.toNat / 256)) = v := by
  have h := leNat_leBytes 2 v.toNat
  rw [leBytes_two] at h
  apply BitVec.eq_of_toNat_eq
  rw [u16Of, h, BitVec.toNat_ofNat]
  have := v.isLt
  omega

/-- A u32 field reads back (30_encoding R98). -/
theorem u32Of_leBytes (v : U32) :
    u32Of (BitVec.ofNat 8 v.toNat) (BitVec.ofNat 8 (v.toNat / 256)) (BitVec.ofNat 8 (v.toNat / 256 / 256))
      (BitVec.ofNat 8 (v.toNat / 256 / 256 / 256)) = v := by
  have h := leNat_leBytes 4 v.toNat
  rw [leBytes_four] at h
  apply BitVec.eq_of_toNat_eq
  rw [u32Of, h, BitVec.toNat_ofNat]
  have := v.isLt
  omega

/-- The same in the form `simp` gives a low byte. -/
@[simp] theorem u16Of_setWidth (v : U16) : u16Of (v.setWidth 8) (BitVec.ofNat 8 (v.toNat / 256)) = v := u16Of_leBytes v

/-- The same in the form `simp` gives a low byte. -/
@[simp] theorem u32Of_setWidth (v : U32) :
    u32Of (v.setWidth 8) (BitVec.ofNat 8 (v.toNat / 256)) (BitVec.ofNat 8 (v.toNat / 256 / 256))
      (BitVec.ofNat 8 (v.toNat / 256 / 256 / 256)) = v := u32Of_leBytes v

/-- The bytes of a u16 read from two bytes are those bytes. -/
@[simp] theorem leBytes_u16Of (b0 b1 : Byte) : leBytes 2 (u16Of b0 b1).toNat = [b0, b1] := by
  have h := leNat_lt [b0, b1]
  have : (u16Of b0 b1).toNat = leNat [b0, b1] := by
    rw [u16Of, BitVec.toNat_ofNat]; exact Nat.mod_eq_of_lt (by simpa using h)
  rw [this]; exact leBytes_leNat [b0, b1]

/-- The bytes of a u32 read from four bytes are those bytes. -/
@[simp] theorem leBytes_u32Of (b0 b1 b2 b3 : Byte) : leBytes 4 (u32Of b0 b1 b2 b3).toNat = [b0, b1, b2, b3] := by
  have h := leNat_lt [b0, b1, b2, b3]
  have : (u32Of b0 b1 b2 b3).toNat = leNat [b0, b1, b2, b3] := by
    rw [u32Of, BitVec.toNat_ofNat]; exact Nat.mod_eq_of_lt (by simpa using h)
  rw [this]; exact leBytes_leNat [b0, b1, b2, b3]

/-- A frame is 7 bytes and its payload (30_encoding R82). -/
@[simp] theorem frameBytes_length (t : Byte) (p : List Byte) : (frameBytes t p).length = 7 + p.length := by
  simp [frameBytes]; omega

/-- The payload of an instruction has the length its frame's header says (30_encoding R82). -/
theorem payloadBytes_length (i : Instr) : (payloadBytes i).length = i.payloadSize := by
  cases i with
  | init p => cases p <;> simp [payloadBytes, initBytes, Instr.payloadSize, Payload.size]; omega
  | setWindow p => cases p <;> simp [payloadBytes, rectBytes, Instr.payloadSize, Payload.size]; omega
  | setWindowWrite p => cases p <;> simp [payloadBytes, rectBytes, Instr.payloadSize, Payload.size]; omega
  | drawPoint p => cases p <;> simp [payloadBytes, pointBytes, Instr.payloadSize, Payload.size]; omega
  | _ => simp [payloadBytes, Instr.payloadSize]

/-- Decoding reads the header's length and takes exactly that many bytes (30_encoding R82, R83). -/
theorem decode_frameBytes (d : Direction) (t : Byte) (p rest : List Byte) (h : p.length < 2 ^ 32) :
    decode d (frameBytes t p ++ rest) =
      match d with
      | .inbound => .ok (decodeInbound t p, rest)
      | .outbound =>
        match decodeOutbound t p with
        | .ok i => .ok (i, rest)
        | .error e => .error e := by
  have hl : leNat (leBytes 4 p.length) = p.length := by
    rw [leNat_leBytes]; exact Nat.mod_eq_of_lt h
  rw [leBytes_four] at hl
  cases d
  · simp [frameBytes, decode, leBytes_four, hl]
  · simp only [frameBytes, decode, leBytes_four, List.cons_append, List.nil_append, hl]
    simp only [true_and, if_true, List.length_append, List.take_left', List.drop_left']
    refine (if_neg (by omega)).trans ?_
    cases decodeOutbound t p <;> rfl

end Sys2Proof
end

