-- ==== Sys2Proof/Laws/State.lean ====
section
/-! SUPPORT. One lemma per field per update of the state, each true by rfl, and the byte reads of the updated states. -/

namespace Sys2Proof.Machine

/-! ### State.output -/

@[simp] theorem State.output_cfg (o : Output) (s : State) : (s.output o).cfg = s.cfg := rfl
@[simp] theorem State.output_ss (o : Output) (s : State) : (s.output o).ss = s.ss := rfl
@[simp] theorem State.output_win (o : Output) (s : State) : (s.output o).win = s.win := rfl
@[simp] theorem State.output_fb (o : Output) (s : State) : (s.output o).fb = s.fb := rfl
@[simp] theorem State.output_ra (o : Output) (s : State) : (s.output o).ra = s.ra := rfl
@[simp] theorem State.output_enc (o : Output) (s : State) : (s.output o).enc = s.enc := rfl
@[simp] theorem State.output_now (o : Output) (s : State) : (s.output o).now = s.now := rfl
@[simp] theorem State.output_inbox (o : Output) (s : State) : (s.output o).inbox = s.inbox := rfl
@[simp] theorem State.output_out (o : Output) (s : State) : (s.output o).out = s.out ++ [o] := rfl
@[simp] theorem State.output_draws (o : Output) (s : State) : (s.output o).draws = s.draws := rfl
@[simp] theorem State.output_byteAt (o : Output) (s : State) (x : Nat) : (s.output o).byteAt x = s.byteAt x := rfl
@[simp] theorem State.output_stride (o : Output) (s : State) : (s.output o).stride = s.stride := rfl
@[simp] theorem State.output_fbLen (o : Output) (s : State) : (s.output o).fbLen = s.fbLen := rfl

/-! ### State.report -/

@[simp] theorem State.report_cfg (e : EngineError) (s : State) : (s.report e).cfg = s.cfg := rfl
@[simp] theorem State.report_ss (e : EngineError) (s : State) : (s.report e).ss = s.ss := rfl
@[simp] theorem State.report_win (e : EngineError) (s : State) : (s.report e).win = s.win := rfl
@[simp] theorem State.report_fb (e : EngineError) (s : State) : (s.report e).fb = s.fb := rfl
@[simp] theorem State.report_ra (e : EngineError) (s : State) : (s.report e).ra = s.ra := rfl
@[simp] theorem State.report_enc (e : EngineError) (s : State) : (s.report e).enc = s.enc := rfl
@[simp] theorem State.report_now (e : EngineError) (s : State) : (s.report e).now = s.now := rfl
@[simp] theorem State.report_inbox (e : EngineError) (s : State) : (s.report e).inbox = s.inbox := rfl
@[simp] theorem State.report_out (e : EngineError) (s : State) : (s.report e).out = s.out ++ [.err e] := rfl
@[simp] theorem State.report_draws (e : EngineError) (s : State) : (s.report e).draws = s.draws := rfl
@[simp] theorem State.report_byteAt (e : EngineError) (s : State) (x : Nat) : (s.report e).byteAt x = s.byteAt x := rfl
@[simp] theorem State.report_stride (e : EngineError) (s : State) : (s.report e).stride = s.stride := rfl
@[simp] theorem State.report_fbLen (e : EngineError) (s : State) : (s.report e).fbLen = s.fbLen := rfl

/-! ### State.notify -/

@[simp] theorem State.notify_cfg (k : Notification) (s : State) : (s.notify k).cfg = s.cfg := rfl
@[simp] theorem State.notify_ss (k : Notification) (s : State) : (s.notify k).ss = s.ss := rfl
@[simp] theorem State.notify_win (k : Notification) (s : State) : (s.notify k).win = s.win := rfl
@[simp] theorem State.notify_fb (k : Notification) (s : State) : (s.notify k).fb = s.fb := rfl
@[simp] theorem State.notify_ra (k : Notification) (s : State) : (s.notify k).ra = s.ra := rfl
@[simp] theorem State.notify_enc (k : Notification) (s : State) : (s.notify k).enc = s.enc := rfl
@[simp] theorem State.notify_now (k : Notification) (s : State) : (s.notify k).now = s.now := rfl
@[simp] theorem State.notify_inbox (k : Notification) (s : State) : (s.notify k).inbox = s.inbox := rfl
@[simp] theorem State.notify_out (k : Notification) (s : State) : (s.notify k).out = s.out ++ [.notify k] := rfl
@[simp] theorem State.notify_draws (k : Notification) (s : State) : (s.notify k).draws = s.draws := rfl
@[simp] theorem State.notify_byteAt (k : Notification) (s : State) (x : Nat) : (s.notify k).byteAt x = s.byteAt x := rfl
@[simp] theorem State.notify_stride (k : Notification) (s : State) : (s.notify k).stride = s.stride := rfl
@[simp] theorem State.notify_fbLen (k : Notification) (s : State) : (s.notify k).fbLen = s.fbLen := rfl

/-! ### State.send -/

@[simp] theorem State.send_cfg (t : Byte) (p : List Byte) (s : State) : (s.send t p).cfg = s.cfg := rfl
@[simp] theorem State.send_ss (t : Byte) (p : List Byte) (s : State) : (s.send t p).ss = s.ss := rfl
@[simp] theorem State.send_win (t : Byte) (p : List Byte) (s : State) : (s.send t p).win = s.win := rfl
@[simp] theorem State.send_fb (t : Byte) (p : List Byte) (s : State) : (s.send t p).fb = s.fb := rfl
@[simp] theorem State.send_ra (t : Byte) (p : List Byte) (s : State) : (s.send t p).ra = s.ra := rfl
@[simp] theorem State.send_enc (t : Byte) (p : List Byte) (s : State) : (s.send t p).enc = s.enc := rfl
@[simp] theorem State.send_now (t : Byte) (p : List Byte) (s : State) : (s.send t p).now = s.now := rfl
@[simp] theorem State.send_inbox (t : Byte) (p : List Byte) (s : State) : (s.send t p).inbox = s.inbox := rfl
@[simp] theorem State.send_out (t : Byte) (p : List Byte) (s : State) : (s.send t p).out = s.out ++ [.tx (frameBytes t p)] := rfl
@[simp] theorem State.send_draws (t : Byte) (p : List Byte) (s : State) : (s.send t p).draws = s.draws := rfl
@[simp] theorem State.send_byteAt (t : Byte) (p : List Byte) (s : State) (x : Nat) : (s.send t p).byteAt x = s.byteAt x := rfl
@[simp] theorem State.send_stride (t : Byte) (p : List Byte) (s : State) : (s.send t p).stride = s.stride := rfl
@[simp] theorem State.send_fbLen (t : Byte) (p : List Byte) (s : State) : (s.send t p).fbLen = s.fbLen := rfl

/-! ### State.sendFrame -/

@[simp] theorem State.sendFrame_cfg (i : Instr) (s : State) : (s.sendFrame i).cfg = s.cfg := rfl
@[simp] theorem State.sendFrame_ss (i : Instr) (s : State) : (s.sendFrame i).ss = s.ss := rfl
@[simp] theorem State.sendFrame_win (i : Instr) (s : State) : (s.sendFrame i).win = s.win := rfl
@[simp] theorem State.sendFrame_fb (i : Instr) (s : State) : (s.sendFrame i).fb = s.fb := rfl
@[simp] theorem State.sendFrame_ra (i : Instr) (s : State) : (s.sendFrame i).ra = s.ra := rfl
@[simp] theorem State.sendFrame_enc (i : Instr) (s : State) : (s.sendFrame i).enc = s.enc := rfl
@[simp] theorem State.sendFrame_now (i : Instr) (s : State) : (s.sendFrame i).now = s.now := rfl
@[simp] theorem State.sendFrame_inbox (i : Instr) (s : State) : (s.sendFrame i).inbox = s.inbox := rfl
@[simp] theorem State.sendFrame_out (i : Instr) (s : State) : (s.sendFrame i).out = s.out ++ [.tx (encode i)] := rfl
@[simp] theorem State.sendFrame_draws (i : Instr) (s : State) : (s.sendFrame i).draws = s.draws := rfl
@[simp] theorem State.sendFrame_byteAt (i : Instr) (s : State) (x : Nat) : (s.sendFrame i).byteAt x = s.byteAt x := rfl
@[simp] theorem State.sendFrame_stride (i : Instr) (s : State) : (s.sendFrame i).stride = s.stride := rfl
@[simp] theorem State.sendFrame_fbLen (i : Instr) (s : State) : (s.sendFrame i).fbLen = s.fbLen := rfl

/-! ### State.setEnabled -/

@[simp] theorem State.setEnabled_cfg (v : Bool) (s : State) : (s.setEnabled v).cfg = s.cfg := rfl
@[simp] theorem State.setEnabled_ss (v : Bool) (s : State) : (s.setEnabled v).ss = { s.ss with enabled := v } := rfl
@[simp] theorem State.setEnabled_win (v : Bool) (s : State) : (s.setEnabled v).win = s.win := rfl
@[simp] theorem State.setEnabled_fb (v : Bool) (s : State) : (s.setEnabled v).fb = s.fb := rfl
@[simp] theorem State.setEnabled_ra (v : Bool) (s : State) : (s.setEnabled v).ra = s.ra := rfl
@[simp] theorem State.setEnabled_enc (v : Bool) (s : State) : (s.setEnabled v).enc = s.enc := rfl
@[simp] theorem State.setEnabled_now (v : Bool) (s : State) : (s.setEnabled v).now = s.now := rfl
@[simp] theorem State.setEnabled_inbox (v : Bool) (s : State) : (s.setEnabled v).inbox = s.inbox := rfl
@[simp] theorem State.setEnabled_out (v : Bool) (s : State) : (s.setEnabled v).out = s.out := rfl
@[simp] theorem State.setEnabled_draws (v : Bool) (s : State) : (s.setEnabled v).draws = s.draws := rfl
@[simp] theorem State.setEnabled_byteAt (v : Bool) (s : State) (x : Nat) : (s.setEnabled v).byteAt x = s.byteAt x := rfl

/-! ### State.setCursor -/

@[simp] theorem State.setCursor_cfg (a : Nat) (s : State) : (s.setCursor a).cfg = s.cfg := rfl
@[simp] theorem State.setCursor_ss (a : Nat) (s : State) : (s.setCursor a).ss = s.ss := rfl
@[simp] theorem State.setCursor_win (a : Nat) (s : State) : (s.setCursor a).win = { s.win with cursor := a } := rfl
@[simp] theorem State.setCursor_fb (a : Nat) (s : State) : (s.setCursor a).fb = s.fb := rfl
@[simp] theorem State.setCursor_ra (a : Nat) (s : State) : (s.setCursor a).ra = s.ra := rfl
@[simp] theorem State.setCursor_enc (a : Nat) (s : State) : (s.setCursor a).enc = s.enc := rfl
@[simp] theorem State.setCursor_now (a : Nat) (s : State) : (s.setCursor a).now = s.now := rfl
@[simp] theorem State.setCursor_inbox (a : Nat) (s : State) : (s.setCursor a).inbox = s.inbox := rfl
@[simp] theorem State.setCursor_out (a : Nat) (s : State) : (s.setCursor a).out = s.out := rfl
@[simp] theorem State.setCursor_draws (a : Nat) (s : State) : (s.setCursor a).draws = s.draws := rfl
@[simp] theorem State.setCursor_byteAt (a : Nat) (s : State) (x : Nat) : (s.setCursor a).byteAt x = s.byteAt x := rfl
@[simp] theorem State.setCursor_stride (a : Nat) (s : State) : (s.setCursor a).stride = s.stride := rfl
@[simp] theorem State.setCursor_fbLen (a : Nat) (s : State) : (s.setCursor a).fbLen = s.fbLen := rfl

/-! ### State.setIreqStart -/

@[simp] theorem State.setIreqStart_cfg (v : Option U32) (s : State) : (s.setIreqStart v).cfg = s.cfg := rfl
@[simp] theorem State.setIreqStart_ss (v : Option U32) (s : State) : (s.setIreqStart v).ss = s.ss := rfl
@[simp] theorem State.setIreqStart_win (v : Option U32) (s : State) : (s.setIreqStart v).win = s.win := rfl
@[simp] theorem State.setIreqStart_fb (v : Option U32) (s : State) : (s.setIreqStart v).fb = s.fb := rfl
@[simp] theorem State.setIreqStart_ra (v : Option U32) (s : State) : (s.setIreqStart v).ra = s.ra := rfl
@[simp] theorem State.setIreqStart_enc (v : Option U32) (s : State) : (s.setIreqStart v).enc = { s.enc with ireqStart := v } := rfl
@[simp] theorem State.setIreqStart_now (v : Option U32) (s : State) : (s.setIreqStart v).now = s.now := rfl
@[simp] theorem State.setIreqStart_inbox (v : Option U32) (s : State) : (s.setIreqStart v).inbox = s.inbox := rfl
@[simp] theorem State.setIreqStart_out (v : Option U32) (s : State) : (s.setIreqStart v).out = s.out := rfl
@[simp] theorem State.setIreqStart_draws (v : Option U32) (s : State) : (s.setIreqStart v).draws = s.draws := rfl
@[simp] theorem State.setIreqStart_byteAt (v : Option U32) (s : State) (x : Nat) : (s.setIreqStart v).byteAt x = s.byteAt x := rfl
@[simp] theorem State.setIreqStart_stride (v : Option U32) (s : State) : (s.setIreqStart v).stride = s.stride := rfl
@[simp] theorem State.setIreqStart_fbLen (v : Option U32) (s : State) : (s.setIreqStart v).fbLen = s.fbLen := rfl

/-! ### State.setNow -/

@[simp] theorem State.setNow_cfg (v : U32) (s : State) : (s.setNow v).cfg = s.cfg := rfl
@[simp] theorem State.setNow_ss (v : U32) (s : State) : (s.setNow v).ss = s.ss := rfl
@[simp] theorem State.setNow_win (v : U32) (s : State) : (s.setNow v).win = s.win := rfl
@[simp] theorem State.setNow_fb (v : U32) (s : State) : (s.setNow v).fb = s.fb := rfl
@[simp] theorem State.setNow_ra (v : U32) (s : State) : (s.setNow v).ra = s.ra := rfl
@[simp] theorem State.setNow_enc (v : U32) (s : State) : (s.setNow v).enc = s.enc := rfl
@[simp] theorem State.setNow_now (v : U32) (s : State) : (s.setNow v).now = v := rfl
@[simp] theorem State.setNow_inbox (v : U32) (s : State) : (s.setNow v).inbox = s.inbox := rfl
@[simp] theorem State.setNow_out (v : U32) (s : State) : (s.setNow v).out = s.out := rfl
@[simp] theorem State.setNow_draws (v : U32) (s : State) : (s.setNow v).draws = s.draws := rfl
@[simp] theorem State.setNow_byteAt (v : U32) (s : State) (x : Nat) : (s.setNow v).byteAt x = s.byteAt x := rfl
@[simp] theorem State.setNow_stride (v : U32) (s : State) : (s.setNow v).stride = s.stride := rfl
@[simp] theorem State.setNow_fbLen (v : U32) (s : State) : (s.setNow v).fbLen = s.fbLen := rfl

/-! ### State.freshBuffer -/

@[simp] theorem State.freshBuffer_cfg (s : State) : (s.freshBuffer).cfg = s.cfg := rfl
@[simp] theorem State.freshBuffer_ss (s : State) : (s.freshBuffer).ss = s.ss := rfl
@[simp] theorem State.freshBuffer_win (s : State) : (s.freshBuffer).win = s.win := rfl
@[simp] theorem State.freshBuffer_fb (s : State) : (s.freshBuffer).fb = { cells := [], draw := s.draws } := rfl
@[simp] theorem State.freshBuffer_ra (s : State) : (s.freshBuffer).ra = s.ra := rfl
@[simp] theorem State.freshBuffer_enc (s : State) : (s.freshBuffer).enc = s.enc := rfl
@[simp] theorem State.freshBuffer_now (s : State) : (s.freshBuffer).now = s.now := rfl
@[simp] theorem State.freshBuffer_inbox (s : State) : (s.freshBuffer).inbox = s.inbox := rfl
@[simp] theorem State.freshBuffer_out (s : State) : (s.freshBuffer).out = s.out := rfl
@[simp] theorem State.freshBuffer_draws (s : State) : (s.freshBuffer).draws = s.draws + 1 := rfl
@[simp] theorem State.freshBuffer_stride (s : State) : (s.freshBuffer).stride = s.stride := rfl
@[simp] theorem State.freshBuffer_fbLen (s : State) : (s.freshBuffer).fbLen = s.fbLen := rfl

/-! ### State.receive -/

@[simp] theorem State.receive_cfg (chunk : List Byte) (s : State) : (s.receive chunk).cfg = s.cfg := rfl
@[simp] theorem State.receive_ss (chunk : List Byte) (s : State) : (s.receive chunk).ss = s.ss := rfl
@[simp] theorem State.receive_win (chunk : List Byte) (s : State) : (s.receive chunk).win = s.win := rfl
@[simp] theorem State.receive_fb (chunk : List Byte) (s : State) : (s.receive chunk).fb = s.fb := rfl
@[simp] theorem State.receive_ra (chunk : List Byte) (s : State) : (s.receive chunk).ra = { s.ra with q := s.ra.q ++ chunk } := rfl
@[simp] theorem State.receive_enc (chunk : List Byte) (s : State) : (s.receive chunk).enc = s.enc := rfl
@[simp] theorem State.receive_now (chunk : List Byte) (s : State) : (s.receive chunk).now = s.now := rfl
@[simp] theorem State.receive_inbox (chunk : List Byte) (s : State) : (s.receive chunk).inbox = s.inbox := rfl
@[simp] theorem State.receive_out (chunk : List Byte) (s : State) : (s.receive chunk).out = s.out := rfl
@[simp] theorem State.receive_draws (chunk : List Byte) (s : State) : (s.receive chunk).draws = s.draws := rfl
@[simp] theorem State.receive_byteAt (chunk : List Byte) (s : State) (x : Nat) : (s.receive chunk).byteAt x = s.byteAt x := rfl
@[simp] theorem State.receive_stride (chunk : List Byte) (s : State) : (s.receive chunk).stride = s.stride := rfl
@[simp] theorem State.receive_fbLen (chunk : List Byte) (s : State) : (s.receive chunk).fbLen = s.fbLen := rfl

/-! ### State.startStep -/

@[simp] theorem State.startStep_cfg (s : State) : (s.startStep).cfg = s.cfg := rfl
@[simp] theorem State.startStep_ss (s : State) : (s.startStep).ss = s.ss := rfl
@[simp] theorem State.startStep_win (s : State) : (s.startStep).win = s.win := rfl
@[simp] theorem State.startStep_fb (s : State) : (s.startStep).fb = s.fb := rfl
@[simp] theorem State.startStep_ra (s : State) : (s.startStep).ra = s.ra := rfl
@[simp] theorem State.startStep_enc (s : State) : (s.startStep).enc = s.enc := rfl
@[simp] theorem State.startStep_now (s : State) : (s.startStep).now = s.now := rfl
@[simp] theorem State.startStep_inbox (s : State) : (s.startStep).inbox = s.inbox := rfl
@[simp] theorem State.startStep_out (s : State) : (s.startStep).out = [] := rfl
@[simp] theorem State.startStep_draws (s : State) : (s.startStep).draws = s.draws := rfl
@[simp] theorem State.startStep_byteAt (s : State) (x : Nat) : (s.startStep).byteAt x = s.byteAt x := rfl
@[simp] theorem State.startStep_stride (s : State) : (s.startStep).stride = s.stride := rfl
@[simp] theorem State.startStep_fbLen (s : State) : (s.startStep).fbLen = s.fbLen := rfl

end Sys2Proof.Machine
end

