-- ==== Sys2Proof/Laws/Memory.lean ====
section
/-! SUPPORT. The pixel memory: a read after a write, and every memory operation keeps the canonical form. -/

namespace Sys2Proof.Machine

theorem readCells_writeCells_same (cs : List Host.Cell) (a : Nat) (b : Byte) :
    readCells (writeCells cs a b) a = some b := by
  induction cs with
  | nil => simp [writeCells, readCells]
  | cons c cs ih =>
    obtain ⟨k, v⟩ := c
    rcases Nat.lt_trichotomy a k with h | h | h
    · simp [writeCells, readCells, h]
    · simp [writeCells, readCells, h]
    · have h1 : ¬ a < k := by omega
      have h2 : ¬ a = k := by omega
      have h3 : ¬ k = a := by omega
      simp [writeCells, readCells, h1, h2, h3, ih]

theorem readCells_writeCells_other (cs : List Host.Cell) (a x : Nat) (b : Byte) (hx : x ≠ a) :
    readCells (writeCells cs a b) x = readCells cs x := by
  have hx' : ¬ a = x := fun h => hx h.symm
  induction cs with
  | nil => simp [writeCells, readCells, hx']
  | cons c cs ih =>
    obtain ⟨k, v⟩ := c
    rcases Nat.lt_trichotomy a k with h | h | h
    · simp [writeCells, readCells, h, hx']
    · subst h; simp [writeCells, readCells, hx']
    · have h1 : ¬ a < k := by omega
      have h2 : ¬ a = k := by omega
      simp [writeCells, readCells, h1, h2, ih]

@[simp] theorem Memory.read_write_same (m : Memory) (a : Nat) (b : Byte) : (m.write a b).read a = b := by
  simp [Memory.read, Memory.write, readCells_writeCells_same]

theorem Memory.read_write_other (m : Memory) (a x : Nat) (b : Byte) (h : x ≠ a) :
    (m.write a b).read x = m.read x := by
  simp [Memory.read, Memory.write, Memory.unwritten, readCells_writeCells_other _ _ _ _ h]

theorem Memory.read_write (m : Memory) (a x : Nat) (b : Byte) :
    (m.write a b).read x = if x = a then b else m.read x := by
  split
  · next h => rw [h, Memory.read_write_same]
  · next h => exact Memory.read_write_other m a x b h

/-- An offset of the list after a write is the one written or was listed. -/
theorem mem_writeCells {cs : List Host.Cell} {a : Nat} {b : Byte} {c : Host.Cell} (h : c ∈ writeCells cs a b) :
    c = (a, b) ∨ c ∈ cs := by
  induction cs with
  | nil => simp [writeCells] at h; exact .inl h
  | cons d cs ih =>
    obtain ⟨k, v⟩ := d
    unfold writeCells at h
    split at h
    · simpa using h
    · split at h
      · simp at h ⊢; tauto
      · rcases List.mem_cons.1 h with h | h
        · exact .inr (by simp [h])
        · rcases ih h with h | h
          · exact .inl h
          · exact .inr (by simp [h])

/-- The canonical form, as a statement about every pair of cells. -/
theorem cellsRising_iff (cs : List Host.Cell) : cellsRising cs = true ↔ cs.Pairwise (fun c d => c.1 < d.1) := by
  induction cs with
  | nil => simp [cellsRising]
  | cons c cs ih =>
    cases cs with
    | nil => simp [cellsRising]
    | cons d cs =>
      obtain ⟨k, v⟩ := c
      obtain ⟨k', v'⟩ := d
      rw [cellsRising, Bool.and_eq_true, decide_eq_true_eq, ih]
      constructor
      · rintro ⟨h, hp⟩
        refine List.pairwise_cons.2 ⟨?_, hp⟩
        intro e he
        rcases List.mem_cons.1 he with rfl | he
        · exact h
        · exact Nat.lt_trans h ((List.pairwise_cons.1 hp).1 e he)
      · intro hp
        have h := List.pairwise_cons.1 hp
        exact ⟨h.1 (k', v') (by simp), h.2⟩

/-- A write keeps the canonical form. -/
theorem Memory.write_wf (m : Memory) (a : Nat) (b : Byte) (h : m.wf = true) : (m.write a b).wf = true := by
  unfold Memory.wf Memory.write at *
  simp only [cellsRising_iff] at *
  generalize m.cells = cs at h
  induction cs with
  | nil => simp [writeCells]
  | cons c cs ih =>
    obtain ⟨k, v⟩ := c
    have hc := List.pairwise_cons.1 h
    unfold writeCells
    split
    · next hak =>
      refine List.pairwise_cons.2 ⟨?_, h⟩
      intro e he
      rcases List.mem_cons.1 he with rfl | he
      · exact hak
      · exact Nat.lt_trans hak (hc.1 e he)
    · split
      · next hak => subst hak; exact List.pairwise_cons.2 ⟨hc.1, hc.2⟩
      · refine List.pairwise_cons.2 ⟨?_, ih hc.2⟩
        intro e he
        rcases mem_writeCells he with rfl | he
        · show k < a; omega
        · exact hc.1 e he

/-- A buffer of which nothing is written is in canonical form. -/
@[simp] theorem Memory.empty_wf (d : Nat) : ({ cells := [], draw := d } : Memory).wf = true := rfl

/-- A buffer of which nothing is written reads as its free draw. -/
@[simp] theorem Memory.empty_read (d a : Nat) : ({ cells := [], draw := d } : Memory).read a = Config.freeByte d a := rfl

@[simp] theorem Memory.write_draw (m : Memory) (a : Nat) (b : Byte) : (m.write a b).draw = m.draw := rfl

/-- The memory after reset is in canonical form. -/
theorem reset_fb_wf (c : Config) : (State.resetWith c).fb.wf = true := rfl

end Sys2Proof.Machine
end

