-- ==== Sys2Proof/Laws/Ops.lean ====
section
/-! SUPPORT. What each shared operation can do, said once: if it answers next t, then the named facts hold. -/

namespace Sys2Proof.Machine

@[simp] theorem andThen_next (s : State) (k : State → Result) : andThen (.next s) k = k s := rfl
@[simp] theorem andThen_fault (f : Fault) (k : State → Result) : andThen (.fault f) k = .fault f := rfl
@[simp] theorem andThen_refused (f : Refusal) (k : State → Result) : andThen (.refused f) k = .refused f := rfl

/-- A sequence answers next t just when both parts do. -/
theorem andThen_eq_next {r : Result} {k : State → Result} {t : State} :
    andThen r k = .next t ↔ ∃ s, r = .next s ∧ k s = .next t := by
  cases r <;> simp

theorem andThen_assoc (r : Result) (k l : State → Result) :
    andThen (andThen r k) l = andThen r fun s => andThen (k s) l := by
  cases r <;> rfl

@[simp] theorem andThen_pure (r : Result) : andThen r .next = r := by cases r <;> rfl

/-! ## Raising -/

@[simp] theorem State.raise_eq (e : EngineError) (s : State) : s.raise e = .next (s.report e) := rfl

/-! ## The pixel memory -/

theorem State.byteAt_write (s : State) (a x : Nat) (b : Byte) :
    ({ s with fb := s.fb.write a b } : State).byteAt x = if x = a then b else s.byteAt x :=
  Memory.read_write s.fb a x b

/-- A store of one byte answers next just inside the buffer, and changes that byte alone. -/
theorem State.storeByte_eq_next {a : Nat} {b : Byte} {s t : State} :
    s.storeByte a b = .next t ↔ a < s.fbLen ∧ t = { s with fb := s.fb.write a b } := by
  unfold State.storeByte
  split <;> simp_all [eq_comm]

theorem State.storeByte_of_lt {a : Nat} {b : Byte} {s : State} (h : a < s.fbLen) :
    s.storeByte a b = .next { s with fb := s.fb.write a b } := if_pos h

/-- What a store of some bytes of the buffer changes: the pixel memory alone, at the offsets given by `P`, keeping its
canonical form and its free draw. -/
structure StoresOnly (s t : State) (P : Nat → Prop) : Prop where
  state : t = { s with fb := t.fb }
  draw : t.fb.draw = s.fb.draw
  kept : ∀ x, ¬ P x → t.byteAt x = s.byteAt x
  wf : s.fb.wf = true → t.fb.wf = true
  cells : ∀ c ∈ t.fb.cells, c ∈ s.fb.cells ∨ c.1 < s.fbLen

theorem StoresOnly.refl (s : State) (P : Nat → Prop) : StoresOnly s s P :=
  ⟨rfl, rfl, fun _ _ => rfl, id, fun _ h => .inl h⟩

theorem StoresOnly.fbLen_eq {s t : State} {P : Nat → Prop} (h : StoresOnly s t P) : t.fbLen = s.fbLen := by
  rw [h.state]; rfl

theorem StoresOnly.trans {s t u : State} {P Q R : Nat → Prop} (h1 : StoresOnly s t P) (h2 : StoresOnly t u Q)
    (hP : ∀ x, P x → R x) (hQ : ∀ x, Q x → R x) : StoresOnly s u R where
  state := by rw [h2.state, h1.state]
  draw := h2.draw.trans h1.draw
  kept x hx := (h2.kept x (fun h => hx (hQ x h))).trans (h1.kept x (fun h => hx (hP x h)))
  wf h := h2.wf (h1.wf h)
  cells c hc := by
    rcases h2.cells c hc with h | h
    · exact h1.cells c h
    · exact .inr (h1.fbLen_eq ▸ h)

theorem State.storeByte_storesOnly {a : Nat} {b : Byte} {s t : State} (h : s.storeByte a b = .next t) :
    StoresOnly s t (· = a) := by
  obtain ⟨hlt, rfl⟩ := State.storeByte_eq_next.1 h
  refine ⟨rfl, rfl, fun x hx => ?_, Memory.write_wf s.fb a b, fun c hc => ?_⟩
  · rw [State.byteAt_write, if_neg hx]
  · rcases mem_writeCells hc with rfl | h
    · exact .inr hlt
    · exact .inl h

/-- A store of bytes at successive offsets. -/
theorem State.storeBytes_storesOnly {a : Nat} {bs : List Byte} {s t : State} (h : s.storeBytes a bs = .next t) :
    StoresOnly s t (fun x => a ≤ x ∧ x < a + bs.length) := by
  induction bs generalizing a s with
  | nil =>
    obtain rfl : s = t := by simpa [State.storeBytes] using h
    exact StoresOnly.refl s _
  | cons b bs ih =>
    obtain ⟨s1, h1, h2⟩ := andThen_eq_next.1 h
    refine (State.storeByte_storesOnly h1).trans (ih h2) (fun x hx => ?_) (fun x hx => ?_)
    · simp only [List.length_cons]; omega
    · simp only [List.length_cons]; omega

/-- The bytes a store of successive bytes leaves. -/
theorem State.storeBytes_byteAt {a : Nat} {bs : List Byte} {s t : State} (h : s.storeBytes a bs = .next t)
    {i : Nat} (hi : i < bs.length) : t.byteAt (a + i) = bs[i] := by
  induction bs generalizing a s i with
  | nil => simp at hi
  | cons b bs ih =>
    obtain ⟨s1, h1, h2⟩ := andThen_eq_next.1 h
    cases i with
    | zero =>
      obtain ⟨_, rfl⟩ := State.storeByte_eq_next.1 h1
      rw [Nat.add_zero, (State.storeBytes_storesOnly h2).kept a (by omega), State.byteAt_write, if_pos rfl]
      rfl
    | succ i =>
      have := ih h2 (i := i) (by simpa using hi)
      rw [show a + (i + 1) = a + 1 + i by omega, this]
      rfl

/-- A store of successive bytes answers next when all of them lie inside the buffer. -/
theorem State.storeBytes_next {a : Nat} {bs : List Byte} {s : State} (h : a + bs.length ≤ s.fbLen) :
    ∃ t, s.storeBytes a bs = .next t := by
  induction bs generalizing a s with
  | nil => exact ⟨s, rfl⟩
  | cons b bs ih =>
    simp only [List.length_cons] at h
    have := State.storeByte_of_lt (b := b) (show a < s.fbLen by omega)
    simp only [State.storeBytes, this, andThen_next]
    exact ih (show a + 1 + bs.length ≤ s.fbLen by omega)

/-- A store of free bytes at a list of offsets. -/
theorem State.storeFree_storesOnly {d : Nat} {as : List Nat} {s t : State} (h : s.storeFree d as = .next t) :
    StoresOnly s t (· ∈ as) := by
  induction as generalizing s with
  | nil =>
    obtain rfl : s = t := by simpa [State.storeFree] using h
    exact StoresOnly.refl s _
  | cons a as ih =>
    obtain ⟨s1, h1, h2⟩ := andThen_eq_next.1 h
    refine (State.storeByte_storesOnly h1).trans (ih h2) (fun x hx => ?_) (fun x hx => ?_)
    · simp [hx]
    · simp [hx]

/-- The bytes a store of free bytes leaves. -/
theorem State.storeFree_byteAt {d : Nat} {as : List Nat} {s t : State} (h : s.storeFree d as = .next t)
    {x : Nat} (hx : x ∈ as) : t.byteAt x = Config.freeByte d x := by
  induction as generalizing s with
  | nil => simp at hx
  | cons a as ih =>
    obtain ⟨s1, h1, h2⟩ := andThen_eq_next.1 h
    by_cases hm : x ∈ as
    · exact ih h2 hm
    · obtain rfl : x = a := by simpa [hm] using hx
      obtain ⟨_, rfl⟩ := State.storeByte_eq_next.1 h1
      rw [(State.storeFree_storesOnly h2).kept x hm, State.byteAt_write, if_pos rfl]

/-- A store of free bytes answers next when all the offsets lie inside the buffer. -/
theorem State.storeFree_next {d : Nat} {as : List Nat} {s : State} (h : ∀ a ∈ as, a < s.fbLen) :
    ∃ t, s.storeFree d as = .next t := by
  induction as generalizing s with
  | nil => exact ⟨s, rfl⟩
  | cons a as ih =>
    have := State.storeByte_of_lt (b := Config.freeByte d a) (h a (by simp))
    simp only [State.storeFree, this, andThen_next]
    exact ih fun x hx => h x (by simp [hx])

/-! ## Gates and operand forms -/

theorem whenEnabled_of_enabled {s : State} {k : State → Result} (h : s.ss.enabled = true) : whenEnabled s k = k s :=
  if_pos h

theorem whenEnabled_of_disabled {s : State} {k : State → Result} (h : s.ss.enabled = false) :
    whenEnabled s k = .next s := by simp [whenEnabled, h]

/-- A gated command answers next t: the screen is disabled and nothing happens, or it is enabled and the command runs. -/
theorem whenEnabled_eq_next {s t : State} {k : State → Result} :
    whenEnabled s k = .next t ↔ (s.ss.enabled = false ∧ t = s) ∨ (s.ss.enabled = true ∧ k s = .next t) := by
  unfold whenEnabled
  cases s.ss.enabled <;> simp [eq_comm]

@[simp] theorem withFixedPart_short {α : Type} (t : Byte) (b : List Byte) (s : State)
    (k : α → List Byte → State → Result) :
    withFixedPart t (.short b) s k = .next (s.report (.bufferShortfall t b.length)) := rfl

@[simp] theorem withFixedPart_full {α : Type} (t : Byte) (a : α) (rest : List Byte) (s : State)
    (k : α → List Byte → State → Result) : withFixedPart t (.full a rest) s k = k a rest s := rfl

/-- set_window, then a continuation: the new window and the continuation, or InvalidWindow and nothing else. -/
theorem setWindowThen_eq_next {r : RectArgs} {s t : State} {k : State → Result} :
    setWindowThen r s k = .next t ↔
      (s.ss.validRect r.x.toNat r.y.toNat r.w.toNat r.h.toNat = true ∧
        k { s with win := windowOf s.ss r.x.toNat r.y.toNat r.w.toNat r.h.toNat } = .next t) ∨
      (s.ss.validRect r.x.toNat r.y.toNat r.w.toNat r.h.toNat = false ∧
        t = s.report (.invalidWindow r.x.toNat r.y.toNat r.w.toNat r.h.toNat)) := by
  unfold setWindowThen
  cases s.ss.validRect r.x.toNat r.y.toNat r.w.toNat r.h.toNat <;> simp [eq_comm]

/-! ## The window -/

/-- What a write changes beside the pixel memory: the cursor, and the counter of free draws. -/
structure WritesOnly (s t : State) : Prop where
  state : t = { s with fb := t.fb, win := { s.win with cursor := t.win.cursor }, draws := t.draws }
  draw : t.fb.draw = s.fb.draw
  draws : t.draws = s.draws ∨ t.draws = s.draws + 1
  wf : s.fb.wf = true → t.fb.wf = true
  cells : ∀ c ∈ t.fb.cells, c ∈ s.fb.cells ∨ c.1 < s.fbLen

/-- The byte loop of a write: the pixel memory and the cursor alone change, and no free draw is taken. -/
theorem State.writeLoop_writesOnly {data : List Byte} {s t : State} (h : s.writeLoop data = .next t) :
    WritesOnly s t ∧ t.draws = s.draws := by
  induction data generalizing s with
  | nil =>
    obtain rfl : s = t := by simpa [State.writeLoop] using h
    exact ⟨⟨rfl, rfl, .inl rfl, id, fun _ h => .inl h⟩, rfl⟩
  | cons b bs ih =>
    obtain ⟨s1, h1, h2⟩ := andThen_eq_next.1 h
    have hs := State.storeByte_storesOnly h1
    obtain ⟨hw, hd⟩ := ih h2
    have hlen : (s1.setCursor s1.nextCursor).fbLen = s.fbLen := hs.fbLen_eq
    have hds : t.draws = s.draws := by rw [hd, State.setCursor_draws, hs.state]
    refine ⟨⟨?_, ?_, .inl hds, fun hwf => hw.wf (hs.wf hwf), fun c hc => ?_⟩, hds⟩
    · rw [hw.state, hs.state]; rfl
    · rw [hw.draw, State.setCursor_fb, hs.draw]
    · rcases hw.cells c hc with h | h
      · exact hs.cells c h
      · exact .inr (hlen ▸ h)

/-- HAVOC: the bytes of the window alone change, each to the byte of the draw it takes. -/
theorem State.havocWindow_eq_next {s t : State} (h : s.havocWindow = .next t) :
    ∃ u, StoresOnly s u (· ∈ s.windowOffsets) ∧ (∀ x ∈ s.windowOffsets, u.byteAt x = Config.freeByte s.draws x) ∧
      t = { u with draws := s.draws + 1 } := by
  obtain ⟨u, h1, h2⟩ := andThen_eq_next.1 h
  have hs := State.storeFree_storesOnly h1
  refine ⟨u, hs, fun x hx => State.storeFree_byteAt h1 hx, ?_⟩
  have hd : u.draws = s.draws := by rw [hs.state]
  simp only [Host.Outcome.next.injEq] at h2
  rw [← h2, hd]

/-- A write answers next t: its byte loop ended in a state, and HAVOC follows or not. -/
theorem State.writeData_eq_next {data : List Byte} {s t : State} (h : s.writeData data = .next t) :
    ∃ u, s.writeLoop data = .next u ∧
      ((u.havocs data = true ∧ u.havocWindow = .next t) ∨ (u.havocs data = false ∧ t = u)) := by
  obtain ⟨u, h1, h2⟩ := andThen_eq_next.1 h
  refine ⟨u, h1, ?_⟩
  revert h2
  cases u.havocs data <;> simp [eq_comm]

/-- A write changes the pixel memory, the cursor and the counter of free draws alone. -/
theorem State.writeData_writesOnly {data : List Byte} {s t : State} (h : s.writeData data = .next t) :
    WritesOnly s t := by
  obtain ⟨u, h1, ⟨-, h2⟩ | ⟨-, rfl⟩⟩ := State.writeData_eq_next h
  · obtain ⟨hw, hd⟩ := State.writeLoop_writesOnly h1
    obtain ⟨v, hs, -, rfl⟩ := State.havocWindow_eq_next h2
    have hlen : u.fbLen = s.fbLen := by rw [hw.state]; rfl
    refine ⟨?_, ?_, .inr (by rw [hd]), fun hwf => hs.wf (hw.wf hwf), fun c hc => ?_⟩
    · show ({ v with draws := u.draws + 1 } : State) = _
      rw [hs.state, hw.state]
    · exact hs.draw.trans hw.draw
    · rcases hs.cells c hc with h | h
      · exact hw.cells c h
      · exact .inr (hlen ▸ h)
  · exact (State.writeLoop_writesOnly h1).1

/-- The stores of a point change the pixel memory alone, at the bytes of its pixel. -/
theorem State.storePixel_storesOnly {x y : Nat} {color : U32} {s t : State} (h : s.storePixel x y color = .next t) :
    StoresOnly s t (fun a => s.pixelOffset x y ≤ a ∧
      a < s.pixelOffset x y + (match formatClass s.ss.fmt with | .bytes b => b | .packed => 1)) := by
  unfold State.storePixel at h
  cases hc : formatClass s.ss.fmt with
  | bytes b =>
    simp only [hc] at h ⊢
    simpa using State.storeBytes_storesOnly h
  | packed =>
    simp only [hc] at h ⊢
    exact (State.storeByte_storesOnly h).trans (StoresOnly.refl t (fun _ => False))
      (fun x hx => by omega) (fun x hx => hx.elim)

/-- draw_point, then a continuation: the stores and the continuation, or InvalidPoint and nothing else. -/
theorem drawPointThen_eq_next {p : PointArgs} {s t : State} {k : State → Result} :
    drawPointThen p s k = .next t ↔
      ((p.x.toNat < s.ss.width.toNat ∧ p.y.toNat < s.ss.height.toNat) ∧
        ∃ u, s.storePixel p.x.toNat p.y.toNat p.color = .next u ∧ k u = .next t) ∨
      ((s.ss.width.toNat ≤ p.x.toNat ∨ s.ss.height.toNat ≤ p.y.toNat) ∧
        t = s.report (.invalidPoint p.x.toNat p.y.toNat)) := by
  unfold drawPointThen
  split
  · next h =>
    simp only [State.raise_eq, Host.Outcome.next.injEq]
    constructor
    · intro ht; exact .inr ⟨h, ht.symm⟩
    · rintro (⟨⟨h1, h2⟩, -⟩ | ⟨-, ht⟩)
      · omega
      · exact ht.symm
  · next h =>
    rw [andThen_eq_next]
    constructor
    · intro ht; exact .inl ⟨by omega, ht⟩
    · rintro (⟨-, ht⟩ | ⟨h1, -⟩)
      · exact ht
      · exact absurd h1 h

/-! ## Init -/

@[simp] theorem State.rejectInit_eq (e : EngineError) (s : State) :
    s.rejectInit e = .next { s with ss := { s.ss with enabled := false }, out := s.out ++ [.err e, .notify .params] } := by
  simp [State.rejectInit, State.report, State.setEnabled, State.notify, State.output]

@[simp] theorem State.acceptInit_eq (fmt : Format) (a : InitArgs) (s : State) :
    s.acceptInit fmt a = .next { s with
      ss := screenOf fmt a, win := fullScreen (screenOf fmt a), fb := { cells := [], draw := s.draws },
      draws := s.draws + 1, enc := { s.enc with ireqStart := none }, out := s.out ++ [.notify .params] } := rfl

/-- An init with its whole fixed part: rejected with one error, or accepted with a format and legal fields. -/
theorem State.initScreen_cases (a : InitArgs) (s : State) :
    (∃ e, s.initScreen a = s.rejectInit e) ∨
    (∃ fmt, formatOfCode s.cfg a.fmtCode = some fmt ∧ a.rotCode.toNat ≤ 3 ∧ a.width.toNat ≠ 0 ∧ a.height.toNat ≠ 0 ∧
      initBytesNeeded fmt a ≤ s.cfg.maxFbBytes ∧ s.initScreen a = s.acceptInit fmt a) := by
  unfold State.initScreen
  cases hf : formatOfCode s.cfg a.fmtCode with
  | none => exact .inl ⟨_, rfl⟩
  | some fmt =>
    simp only
    split
    · exact .inl ⟨_, rfl⟩
    · split
      · exact .inl ⟨_, rfl⟩
      · split
        · exact .inl ⟨_, rfl⟩
        · exact .inr ⟨fmt, rfl, by omega, by omega, by omega, by omega, rfl⟩

/-! ## Events -/

/-- An event of an unthrottled class: one frame, or nothing. -/
theorem sendGated_eq_next {c : InputClass} {i : Instr} {s t : State} :
    sendGated c i s = .next t ↔ (s.gate c = true ∧ t = s.sendFrame i) ∨ (s.gate c = false ∧ t = s) := by
  unfold sendGated
  cases s.gate c <;> simp [eq_comm]

end Sys2Proof.Machine
end

