-- ==== Sys2Proof/Laws/Commute.lean ====
section
/-! SUPPORT. The shared operations read neither the outputs, nor the Reassembler, nor the offered transactions (00_scope
R10, 10_state R57, R58): each commutes with putting others in their place. -/

namespace Sys2Proof.Machine

/-- Apply a function to the next state, if there is one. -/
def mapNext (f : State → State) : Result → Result
  | .next s => .next (f s)
  | .fault x => .fault x
  | .refused x => .refused x

/-- The state with outputs put before its own, another Reassembler and other transactions offered. -/
def State.reseat (o : List Output) (r : Reassembler) (ib : List Transaction) (s : State) : State :=
  { s with out := o ++ s.out, ra := r, inbox := ib }

variable (o : List Output) (r : Reassembler) (ib : List Transaction)

theorem andThen_reseat (x : Result) (k k' : State → Result)
    (h : ∀ s, k' (State.reseat o r ib s) = mapNext (State.reseat o r ib) (k s)) :
    andThen (mapNext (State.reseat o r ib) x) k' = mapNext (State.reseat o r ib) (andThen x k) := by
  cases x <;> simp [mapNext, h]

theorem State.storeByte_reseat (a : Nat) (b : Byte) (s : State) :
    (s.reseat o r ib).storeByte a b = mapNext (State.reseat o r ib) (s.storeByte a b) := by
  unfold State.storeByte
  show (if a < s.fbLen then _ else _) = _
  split <;> rfl

theorem State.storeBytes_reseat (a : Nat) (bs : List Byte) (s : State) :
    (s.reseat o r ib).storeBytes a bs = mapNext (State.reseat o r ib) (s.storeBytes a bs) := by
  induction bs generalizing a s with
  | nil => rfl
  | cons b bs ih =>
    simp only [State.storeBytes, State.storeByte_reseat]
    exact andThen_reseat _ _ _ _ _ _ fun s => ih _ s

theorem State.storeFree_reseat (d : Nat) (as : List Nat) (s : State) :
    (s.reseat o r ib).storeFree d as = mapNext (State.reseat o r ib) (s.storeFree d as) := by
  induction as generalizing s with
  | nil => rfl
  | cons b bs ih =>
    simp only [State.storeFree, State.storeByte_reseat]
    exact andThen_reseat _ _ _ _ _ _ fun s => ih s

theorem State.writeLoop_reseat (bs : List Byte) (s : State) :
    (s.reseat o r ib).writeLoop bs = mapNext (State.reseat o r ib) (s.writeLoop bs) := by
  induction bs generalizing s with
  | nil => rfl
  | cons b bs ih =>
    simp only [State.writeLoop]
    show andThen ((s.reseat o r ib).storeByte s.win.cursor b) _ = _
    rw [State.storeByte_reseat]
    exact andThen_reseat _ _ _ _ _ _ fun s => ih (s.setCursor s.nextCursor)

theorem State.writeData_reseat (bs : List Byte) (s : State) :
    (s.reseat o r ib).writeData bs = mapNext (State.reseat o r ib) (s.writeData bs) := by
  simp only [State.writeData, State.writeLoop_reseat]
  refine andThen_reseat _ _ _ _ _ _ fun s => ?_
  show (if s.havocs bs then _ else _) = _
  split
  · simp only [State.havocWindow]
    show andThen ((s.reseat o r ib).storeFree s.draws s.windowOffsets) _ = _
    rw [State.storeFree_reseat]
    exact andThen_reseat _ _ _ _ _ _ fun s => rfl
  · rfl

theorem State.output_reseat (x : Output) (s : State) : (s.reseat o r ib).output x = (s.output x).reseat o r ib := by
  simp [State.reseat, State.output]

theorem whenEnabled_reseat (k : State → Result) (s : State)
    (h : ∀ s, k (s.reseat o r ib) = mapNext (State.reseat o r ib) (k s)) :
    whenEnabled (s.reseat o r ib) k = mapNext (State.reseat o r ib) (whenEnabled s k) := by
  unfold whenEnabled
  show (if s.ss.enabled = true then _ else _) = _
  split
  · exact h s
  · rfl

theorem withFixedPart_reseat {α : Type} (t : Byte) (p : Payload α) (k : α → List Byte → State → Result) (s : State)
    (h : ∀ a b s, k a b (s.reseat o r ib) = mapNext (State.reseat o r ib) (k a b s)) :
    withFixedPart t p (s.reseat o r ib) k = mapNext (State.reseat o r ib) (withFixedPart t p s k) := by
  cases p
  · simp [State.report, State.output_reseat, mapNext]
  · exact h _ _ _

theorem setWindowThen_reseat (q : RectArgs) (k : State → Result) (s : State)
    (h : ∀ s, k (s.reseat o r ib) = mapNext (State.reseat o r ib) (k s)) :
    setWindowThen q (s.reseat o r ib) k = mapNext (State.reseat o r ib) (setWindowThen q s k) := by
  unfold setWindowThen
  show (if s.ss.validRect q.x.toNat q.y.toNat q.w.toNat q.h.toNat = true then _ else _) = _
  split
  · exact h { s with win := windowOf s.ss q.x.toNat q.y.toNat q.w.toNat q.h.toNat }
  · simp [State.report, State.output_reseat, mapNext]

theorem sendGated_reseat (c : InputClass) (i : Instr) (s : State) :
    sendGated c i (s.reseat o r ib) = mapNext (State.reseat o r ib) (sendGated c i s) := by
  unfold sendGated
  show (if s.gate c = true then _ else _) = _
  split
  · simp [State.sendFrame, State.send, State.output_reseat, mapNext]
  · rfl

end Sys2Proof.Machine
end

