-- ==== Sys2Proof/Laws/Parse.lean ====
section
/-! SUPPORT. The fixed part of a payload (30_encoding R86 to R90): its fields are the little-endian values of its bytes,
and a payload shorter than it stays whole. -/

namespace Sys2Proof

theorem u16Of_toNat (b0 b1 : Byte) : (u16Of b0 b1).toNat = leNat [b0, b1] := by
  rw [u16Of, BitVec.toNat_ofNat]
  exact Nat.mod_eq_of_lt (by simpa using leNat_lt [b0, b1])

theorem u32Of_toNat (b0 b1 b2 b3 : Byte) : (u32Of b0 b1 b2 b3).toNat = leNat [b0, b1, b2, b3] := by
  rw [u32Of, BitVec.toNat_ofNat]
  exact Nat.mod_eq_of_lt (by simpa using leNat_lt [b0, b1, b2, b3])

theorem parseInit_short {p : List Byte} (h : p.length < 7) : parseInit p = .short p := by
  rcases p with _ | ⟨b0, _ | ⟨b1, _ | ⟨b2, _ | ⟨b3, _ | ⟨b4, _ | ⟨b5, _ | ⟨b6, p⟩⟩⟩⟩⟩⟩⟩
  all_goals first | rfl | (simp at h; omega)

theorem parseInit_full {p : List Byte} (h : 7 ≤ p.length) :
    ∃ a rest, parseInit p = .full a rest ∧ a.width.toNat = leNat (p.take 2) ∧
      a.height.toNat = leNat ((p.drop 2).take 2) ∧ a.fmtCode = p.getD 4 0 ∧ a.rotCode = p.getD 5 0 ∧
      a.indev = p.getD 6 0 ∧ rest = p.drop 7 := by
  rcases p with _ | ⟨b0, _ | ⟨b1, _ | ⟨b2, _ | ⟨b3, _ | ⟨b4, _ | ⟨b5, _ | ⟨b6, p⟩⟩⟩⟩⟩⟩⟩
  all_goals simp at h
  exact ⟨_, _, rfl, u16Of_toNat _ _, u16Of_toNat _ _, rfl, rfl, rfl, rfl⟩

theorem parseRect_short {p : List Byte} (h : p.length < 8) : parseRect p = .short p := by
  rcases p with _ | ⟨b0, _ | ⟨b1, _ | ⟨b2, _ | ⟨b3, _ | ⟨b4, _ | ⟨b5, _ | ⟨b6, _ | ⟨b7, p⟩⟩⟩⟩⟩⟩⟩⟩
  all_goals first | rfl | (simp at h; omega)

theorem parseRect_full {p : List Byte} (h : 8 ≤ p.length) :
    ∃ r rest, parseRect p = .full r rest ∧ r.x.toNat = leNat (p.take 2) ∧ r.y.toNat = leNat ((p.drop 2).take 2) ∧
      r.w.toNat = leNat ((p.drop 4).take 2) ∧ r.h.toNat = leNat ((p.drop 6).take 2) ∧ rest = p.drop 8 := by
  rcases p with _ | ⟨b0, _ | ⟨b1, _ | ⟨b2, _ | ⟨b3, _ | ⟨b4, _ | ⟨b5, _ | ⟨b6, _ | ⟨b7, p⟩⟩⟩⟩⟩⟩⟩⟩
  all_goals simp at h
  exact ⟨_, _, rfl, u16Of_toNat _ _, u16Of_toNat _ _, u16Of_toNat _ _, u16Of_toNat _ _, rfl⟩

theorem parsePoint_short {p : List Byte} (h : p.length < 8) : parsePoint p = .short p := by
  rcases p with _ | ⟨b0, _ | ⟨b1, _ | ⟨b2, _ | ⟨b3, _ | ⟨b4, _ | ⟨b5, _ | ⟨b6, _ | ⟨b7, p⟩⟩⟩⟩⟩⟩⟩⟩
  all_goals first | rfl | (simp at h; omega)

theorem parsePoint_full {p : List Byte} (h : 8 ≤ p.length) :
    ∃ a rest, parsePoint p = .full a rest ∧ a.x.toNat = leNat (p.take 2) ∧ a.y.toNat = leNat ((p.drop 2).take 2) ∧
      a.color.toNat = leNat ((p.drop 4).take 4) ∧ rest = p.drop 8 := by
  rcases p with _ | ⟨b0, _ | ⟨b1, _ | ⟨b2, _ | ⟨b3, _ | ⟨b4, _ | ⟨b5, _ | ⟨b6, _ | ⟨b7, p⟩⟩⟩⟩⟩⟩⟩⟩
  all_goals simp at h
  exact ⟨_, _, rfl, u16Of_toNat _ _, u16Of_toNat _ _, u32Of_toNat _ _ _ _, rfl⟩

/-! A parsed payload has the bytes it was parsed from. -/

theorem initBytes_parseInit (p : List Byte) :
    initBytes (parseInit p) = p ∧ (parseInit p).fits 7 = true ∧ (parseInit p).size 7 = p.length := by
  rcases p with _ | ⟨b0, _ | ⟨b1, _ | ⟨b2, _ | ⟨b3, _ | ⟨b4, _ | ⟨b5, _ | ⟨b6, p⟩⟩⟩⟩⟩⟩⟩
  all_goals simp [parseInit, initBytes, Payload.fits, Payload.size]
  omega

theorem rectBytes_parseRect (p : List Byte) :
    rectBytes (parseRect p) = p ∧ (parseRect p).fits 8 = true ∧ (parseRect p).size 8 = p.length := by
  rcases p with _ | ⟨b0, _ | ⟨b1, _ | ⟨b2, _ | ⟨b3, _ | ⟨b4, _ | ⟨b5, _ | ⟨b6, _ | ⟨b7, p⟩⟩⟩⟩⟩⟩⟩⟩
  all_goals simp [parseRect, rectBytes, Payload.fits, Payload.size]
  omega

theorem pointBytes_parsePoint (p : List Byte) :
    pointBytes (parsePoint p) = p ∧ (parsePoint p).fits 8 = true ∧ (parsePoint p).size 8 = p.length := by
  rcases p with _ | ⟨b0, _ | ⟨b1, _ | ⟨b2, _ | ⟨b3, _ | ⟨b4, _ | ⟨b5, _ | ⟨b6, _ | ⟨b7, p⟩⟩⟩⟩⟩⟩⟩⟩
  all_goals simp [parsePoint, pointBytes, Payload.fits, Payload.size]
  omega

/-- Byte `i` of `LE_n(v)` (00_scope R19). -/
theorem leBytes_getElem (n v i : Nat) (h : i < (leBytes n v).length) :
    (leBytes n v)[i] = BitVec.ofNat 8 (v / 256 ^ i) := by
  induction n generalizing v i with
  | zero => simp [leBytes] at h
  | succ n ih =>
    cases i with
    | zero => simp [leBytes]
    | succ i =>
      have := ih (v / 256) i (by simpa [leBytes] using h)
      simp only [leBytes, List.getElem_cons_succ, this, Nat.div_div_eq_div_mul, pow_succ']

/-- A little-endian read of bytes that are those of `v` gives `v` truncated to them (20_memory R61). -/
theorem leNat_map_range (n : Nat) (f : Nat → Byte) (v : Nat) (h : ∀ i, i < n → f i = BitVec.ofNat 8 (v / 256 ^ i)) :
    leNat ((List.range n).map f) = v % 256 ^ n := by
  rw [← leNat_leBytes]
  congr 1
  apply List.ext_getElem
  · simp
  · intro i h1 h2
    rw [leBytes_getElem]
    simpa using h i (by simpa using h1)

end Sys2Proof
end

