-- ==== Sys2Proof/Laws/Decode.lean ====
section
/-! SUPPORT. The inbound map by cases (30_encoding R85): each row of the table with the low bits of the type it keeps. -/

namespace Sys2Proof

set_option maxRecDepth 100000 in
theorem typeByte_06to07 : ∀ t : Byte,
    t &&& 0xFE = 0x06 → (0x06 ||| (t.setWidth 1).setWidth 8 : Byte) = t := by decide

set_option maxRecDepth 100000 in
theorem typeByte_08to0F : ∀ t : Byte,
    t &&& 0xF8 = 0x08 → (0x08 ||| (t.setWidth 3).setWidth 8 : Byte) = t := by decide

set_option maxRecDepth 100000 in
theorem typeByte_10to1F : ∀ t : Byte,
    t &&& 0xF0 = 0x10 → (0x10 ||| (t.setWidth 4).setWidth 8 : Byte) = t := by decide

set_option maxRecDepth 100000 in
theorem typeByte_20to3F : ∀ t : Byte,
    t &&& 0xE0 = 0x20 → (0x20 ||| (t.setWidth 5).setWidth 8 : Byte) = t := by decide

set_option maxRecDepth 100000 in
theorem typeByte_40to7F : ∀ t : Byte,
    t &&& 0xC0 = 0x40 → (0x40 ||| (t.setWidth 6).setWidth 8 : Byte) = t := by decide

set_option maxRecDepth 100000 in
theorem typeByte_80toFF_or : ∀ t : Byte,
    t = 1 ∨ t = 2 ∨ t = 3 ∨ t = 4 ∨ t = 5 ∨ t = 0 ∨ t &&& 0xFE = 0x06 ∨ t &&& 0xF8 = 0x08 ∨ t &&& 0xF0 = 0x10 ∨
      t &&& 0xE0 = 0x20 ∨ t &&& 0xC0 = 0x40 ∨ (0x80 ||| (t.setWidth 7).setWidth 8 : Byte) = t := by decide

/-- A property of the command of a frame holds if it holds of each row's, under what the row's match says of the type. -/
theorem decodeInbound_cases (P : Instr → Prop) (t : Byte) (p : List Byte)
    (h1 : t = 0x01 → P (.init (parseInit p))) (h2 : t = 0x02 → P (.setWindow (parseRect p)))
    (h3 : t = 0x03 → P (.write p)) (h4 : t = 0x04 → P (.setWindowWrite (parseRect p)))
    (h5 : t = 0x05 → P (.drawPoint (parsePoint p))) (h0 : t = 0x00 → P (.ignored00 p))
    (h6 : t &&& 0xFE = 0x06 → P (.ignored06to07 (t.setWidth 1) p))
    (h8 : t &&& 0xF8 = 0x08 → P (.ignored08to0F (t.setWidth 3) p))
    (h10 : t &&& 0xF0 = 0x10 → P (.ignored10to1F (t.setWidth 4) p))
    (h20 : t &&& 0xE0 = 0x20 → P (.ignored20to3F (t.setWidth 5) p))
    (h40 : t &&& 0xC0 = 0x40 → P (.ignored40to7F (t.setWidth 6) p))
    (h80 : (0x80 ||| (t.setWidth 7).setWidth 8 : Byte) = t → P (.ignored80toFF (t.setWidth 7) p)) :
    P (decodeInbound t p) := by
  rw [decodeInbound]
  by_cases c1 : t = 1
  · rw [if_pos c1]; exact h1 c1
  rw [if_neg c1]
  by_cases c2 : t = 2
  · rw [if_pos c2]; exact h2 c2
  rw [if_neg c2]
  by_cases c3 : t = 3
  · rw [if_pos c3]; exact h3 c3
  rw [if_neg c3]
  by_cases c4 : t = 4
  · rw [if_pos c4]; exact h4 c4
  rw [if_neg c4]
  by_cases c5 : t = 5
  · rw [if_pos c5]; exact h5 c5
  rw [if_neg c5]
  by_cases c0 : t = 0
  · rw [if_pos c0]; exact h0 c0
  rw [if_neg c0]
  by_cases c6 : t &&& 0xFE = 0x06
  · rw [if_pos c6]; exact h6 c6
  rw [if_neg c6]
  by_cases c8 : t &&& 0xF8 = 0x08
  · rw [if_pos c8]; exact h8 c8
  rw [if_neg c8]
  by_cases c10 : t &&& 0xF0 = 0x10
  · rw [if_pos c10]; exact h10 c10
  rw [if_neg c10]
  by_cases c20 : t &&& 0xE0 = 0x20
  · rw [if_pos c20]; exact h20 c20
  rw [if_neg c20]
  by_cases c40 : t &&& 0xC0 = 0x40
  · rw [if_pos c40]; exact h40 c40
  rw [if_neg c40]
  refine h80 ?_
  rcases typeByte_80toFF_or t with h | h | h | h | h | h | h | h | h | h | h | h
  · exact absurd h c1
  · exact absurd h c2
  · exact absurd h c3
  · exact absurd h c4
  · exact absurd h c5
  · exact absurd h c0
  · exact absurd h c6
  · exact absurd h c8
  · exact absurd h c10
  · exact absurd h c20
  · exact absurd h c40
  · exact h

end Sys2Proof
end

