-- ==== Sys2Proof/Laws/PerInstr.lean ====
section
/-! SUPPORT. The per-instruction family `EncodedHeader`: the frame of an instruction begins with the sync marker and its
type, and in its direction that header prefix matches one row of the opcode table, the instruction's (30_encoding R81, R85,
R91). -/

namespace Sys2Proof.Laws

/-- The rows of the opcode table that the header prefix of type `t` matches in a direction. -/
def matchedRows (d : Direction) (t : Byte) : List String :=
  (opcodeTable.filter fun r => r.matches d (headerPrefix 0xAA 0x55 t)).map OpcodeRow.mnemonic

/-- The frame's first bytes, and the only row of the opcode table they match in the instruction's direction. -/
def EncodedHeader.Statement (i : Instr) : Prop :=
  (encode i).take 3 = [0xAA, 0x55, typeByte i] ∧ matchedRows i.direction (typeByte i) = [i.mnemonic]

theorem EncodedHeader.init (p : Payload InitArgs) : EncodedHeader.Statement (.init p) :=
  ⟨rfl, (by decide : matchedRows .inbound 0x01 = ["INIT"])⟩
theorem EncodedHeader.setWindow (p : Payload RectArgs) : EncodedHeader.Statement (.setWindow p) :=
  ⟨rfl, (by decide : matchedRows .inbound 0x02 = ["SET_WINDOW"])⟩
theorem EncodedHeader.write (data : List Byte) : EncodedHeader.Statement (.write data) :=
  ⟨rfl, (by decide : matchedRows .inbound 0x03 = ["WRITE"])⟩
theorem EncodedHeader.setWindowWrite (p : Payload RectArgs) : EncodedHeader.Statement (.setWindowWrite p) :=
  ⟨rfl, (by decide : matchedRows .inbound 0x04 = ["SET_WINDOW_WRITE"])⟩
theorem EncodedHeader.drawPoint (p : Payload PointArgs) : EncodedHeader.Statement (.drawPoint p) :=
  ⟨rfl, (by decide : matchedRows .inbound 0x05 = ["DRAW_POINT"])⟩
theorem EncodedHeader.ignored00 (payload : List Byte) : EncodedHeader.Statement (.ignored00 payload) :=
  ⟨rfl, (by decide : matchedRows .inbound 0x00 = ["IGNORED_00"])⟩
theorem EncodedHeader.ignored06to07 (low : BitVec 1) (payload : List Byte) :
    EncodedHeader.Statement (.ignored06to07 low payload) :=
  ⟨rfl, (by decide : ∀ l : BitVec 1, matchedRows .inbound (0x06 ||| l.setWidth 8) = ["IGNORED_06_07"]) low⟩
theorem EncodedHeader.ignored08to0F (low : BitVec 3) (payload : List Byte) :
    EncodedHeader.Statement (.ignored08to0F low payload) :=
  ⟨rfl, (by decide : ∀ l : BitVec 3, matchedRows .inbound (0x08 ||| l.setWidth 8) = ["IGNORED_08_0F"]) low⟩
theorem EncodedHeader.ignored10to1F (low : BitVec 4) (payload : List Byte) :
    EncodedHeader.Statement (.ignored10to1F low payload) :=
  ⟨rfl, (by decide : ∀ l : BitVec 4, matchedRows .inbound (0x10 ||| l.setWidth 8) = ["IGNORED_10_1F"]) low⟩
theorem EncodedHeader.ignored20to3F (low : BitVec 5) (payload : List Byte) :
    EncodedHeader.Statement (.ignored20to3F low payload) :=
  ⟨rfl, (by decide : ∀ l : BitVec 5, matchedRows .inbound (0x20 ||| l.setWidth 8) = ["IGNORED_20_3F"]) low⟩
theorem EncodedHeader.ignored40to7F (low : BitVec 6) (payload : List Byte) :
    EncodedHeader.Statement (.ignored40to7F low payload) :=
  ⟨rfl, (by decide : ∀ l : BitVec 6, matchedRows .inbound (0x40 ||| l.setWidth 8) = ["IGNORED_40_7F"]) low⟩
set_option maxRecDepth 100000 in
theorem EncodedHeader.ignored80toFF (low : BitVec 7) (payload : List Byte) :
    EncodedHeader.Statement (.ignored80toFF low payload) :=
  ⟨rfl, (by decide : ∀ l : BitVec 7, matchedRows .inbound (0x80 ||| l.setWidth 8) = ["IGNORED_80_FF"]) low⟩
theorem EncodedHeader.evKeyboard (pressed rep : Bool) (keycode : U16) (modifiers : U32) (ascii : Byte) :
    EncodedHeader.Statement (.evKeyboard pressed rep keycode modifiers ascii) :=
  ⟨rfl, (by decide : matchedRows .outbound 0x00 = ["EV_KEYBOARD"])⟩
theorem EncodedHeader.evTouch (x y : U16) (down : Bool) : EncodedHeader.Statement (.evTouch x y down) :=
  ⟨rfl, (by decide : matchedRows .outbound 0x01 = ["EV_TOUCH"])⟩
theorem EncodedHeader.evMouse (x y : U16) (wheel : Byte) (buttons : Byte) :
    EncodedHeader.Statement (.evMouse x y wheel buttons) :=
  ⟨rfl, (by decide : matchedRows .outbound 0x02 = ["EV_MOUSE"])⟩
theorem EncodedHeader.evButton (index : Byte) (pressed : Bool) : EncodedHeader.Statement (.evButton index pressed) :=
  ⟨rfl, (by decide : matchedRows .outbound 0x03 = ["EV_BUTTON"])⟩
theorem EncodedHeader.evEncoder (delta : Byte) (pressed : Bool) : EncodedHeader.Statement (.evEncoder delta pressed) :=
  ⟨rfl, (by decide : matchedRows .outbound 0x04 = ["EV_ENCODER"])⟩
theorem EncodedHeader.initRequest : EncodedHeader.Statement .initRequest :=
  ⟨rfl, (by decide : matchedRows .outbound 0xFF = ["INIT_REQUEST"])⟩

end Sys2Proof.Laws
end

