-- ==== Sys2Proof/Laws/Pixel.lean ====
section
/-! SUPPORT. The stores of a point (41_framebuffer R140, 42_pixel_format R164, R165): they lie inside the buffer, and what
every byte of the buffer reads as after them. -/

namespace Sys2Proof.Machine

/-- `setBit` sets bit `i` and keeps the others. -/
theorem setBit_getLsbD (b : Byte) (i : Nat) (v : Bool) (j : Nat) (hj : j < 8) (hi : i < 8) :
    (setBit b i v).getLsbD j = if j = i then v else b.getLsbD j := by
  unfold setBit
  have h1 : ∀ k, k < 8 → ((1#8).getLsbD k = decide (k = 0)) := by decide
  cases v
  · simp only [Bool.false_eq_true, if_false, BitVec.getLsbD_and, BitVec.getLsbD_not, BitVec.getLsbD_shiftLeft, hj,
      decide_true, Bool.true_and]
    by_cases h : j = i
    · subst h; simp
    · rw [if_neg h]
      by_cases h2 : j < i
      · simp [h2]
      · simp [h2]; omega
  · simp only [if_true, BitVec.getLsbD_or, BitVec.getLsbD_shiftLeft, hj, decide_true, Bool.true_and]
    by_cases h : j = i
    · subst h; simp
    · rw [if_neg h]
      by_cases h2 : j < i
      · simp [h2]
      · simp [h2]; intros; omega

/-- The bytes of an in-range pixel lie inside the buffer (41_framebuffer R140). -/
theorem State.pixelOffset_end {s : State} {x y : Nat} (hx : x < s.ss.width.toNat) (hy : y < s.ss.height.toNat) :
    s.pixelOffset x y + (match formatClass s.ss.fmt with | .bytes b => b | .packed => 1) ≤ s.fbLen := by
  have h1 : (y + 1) * s.stride ≤ s.fbLen := by
    rw [Nat.mul_comm]; exact Nat.mul_le_mul_left _ hy
  rw [Nat.succ_mul] at h1
  unfold State.pixelOffset
  have hs : s.stride = rowBytes s.ss.fmt s.ss.width.toNat := rfl
  cases hc : formatClass s.ss.fmt with
  | bytes b =>
    simp only
    have : b * x + b ≤ s.stride := by
      rw [hs, rowBytes, hc]
      have := Nat.mul_le_mul_left b (show x + 1 ≤ s.ss.width.toNat by omega)
      rw [Nat.mul_succ] at this; exact this
    omega
  | packed =>
    simp only
    have : x / 8 + 1 ≤ s.stride := by
      rw [hs, rowBytes, hc]; simp only [ceilDiv]; omega
    omega

/-- The stores of an in-range point answer next, and the bytes after them. -/
theorem State.storePixel_next (s : State) (x y : Nat) (color : U32) (hx : x < s.ss.width.toNat)
    (hy : y < s.ss.height.toNat) :
    ∃ m : Memory, s.storePixel x y color = .next { s with fb := m } ∧
        match formatClass s.ss.fmt with
        | .bytes n =>
          (∀ i : Nat, i < n → m.read (y * s.stride + n * x + i) = BitVec.ofNat 8 (color.toNat / 256 ^ i)) ∧
          (∀ a : Nat, a < y * s.stride + n * x ∨ y * s.stride + n * x + n ≤ a → m.read a = s.byteAt a)
        | .packed =>
          (∀ i : Nat, i < 8 → (m.read (y * s.stride + x / 8)).getLsbD i =
            if i = 7 - x % 8 then color.toNat.testBit 0 else (s.byteAt (y * s.stride + x / 8)).getLsbD i) ∧
          (∀ a : Nat, a ≠ y * s.stride + x / 8 → m.read a = s.byteAt a) := by
  have he := State.pixelOffset_end hx hy
  unfold State.pixelOffset at he
  unfold State.storePixel State.pixelOffset
  cases hc : formatClass s.ss.fmt with
  | bytes n =>
    simp only [hc] at he ⊢
    obtain ⟨t, ht⟩ := State.storeBytes_next (a := y * s.stride + n * x) (bs := leBytes n color.toNat) (s := s)
      (by simpa using he)
    have hs := State.storeBytes_storesOnly ht
    refine ⟨t.fb, ?_, fun i hi => ?_, fun a ha => hs.kept a (by simp; omega)⟩
    · rw [State.memWrite, ht]; exact congrArg _ hs.state
    · have := State.storeBytes_byteAt ht (i := i) (by simpa using hi)
      rw [leBytes_getElem] at this
      exact this
  | packed =>
    simp only [hc] at he ⊢
    rw [State.storeByte_of_lt (by omega)]
    refine ⟨_, rfl, fun i hi => ?_, fun a ha => Memory.read_write_other _ _ _ _ ha⟩
    rw [Memory.read_write_same, setBit_getLsbD _ _ _ _ hi (by omega)]
    rfl

end Sys2Proof.Machine
end

