-- ==== Sys2Proof/Laws/Reassembler.lean ====
section
/-! SUPPORT. The actions of the Reassembler (40_reassembler R110 to R119): where the first marker is, what one action
leaves, that each action but a waiting one shrinks a measure, and that bytes received later do not change an action that
does not wait. -/

namespace Sys2Proof.Machine

/-! ## The marker -/

theorem findMarker_cons (a b : Byte) (q : List Byte) :
    findMarker (a :: b :: q) = if a = 0xAA ∧ b = 0x55 then some 0 else (findMarker (b :: q)).map (· + 1) := by
  rw [findMarker]; split
  · rfl
  · cases findMarker (b :: q) <;> rfl

/-- There is no marker. -/
theorem findMarker_none_iff (q : List Byte) :
    findMarker q = none ↔ ∀ j : Nat, ¬ (q[j]? = some 0xAA ∧ q[j + 1]? = some 0x55) := by
  induction q with
  | nil => simp [findMarker]
  | cons a q ih =>
    cases q with
    | nil => simp [findMarker]
    | cons b q =>
      rw [findMarker_cons]
      by_cases h : a = 0xAA ∧ b = 0x55
      · rw [if_pos h]
        simp only [reduceCtorEq, false_iff]
        intro hh; obtain ⟨rfl, rfl⟩ := h; exact hh 0 ⟨rfl, rfl⟩
      · rw [if_neg h, Option.map_eq_none_iff, ih]
        constructor
        · intro hh j
          cases j with
          | zero => intro hj; apply h; have h1 := hj.1; have h2 := hj.2; simp at h1 h2; exact ⟨h1, h2⟩
          | succ j => exact hh j
        · intro hh j; exact hh (j + 1)

/-- The first marker is at `i`. -/
theorem findMarker_eq_some (q : List Byte) (i : Nat) (h0 : q[i]? = some 0xAA) (h1 : q[i + 1]? = some 0x55)
    (h2 : ∀ j, j < i → ¬ (q[j]? = some 0xAA ∧ q[j + 1]? = some 0x55)) : findMarker q = some i := by
  induction q generalizing i with
  | nil => simp at h0
  | cons a q ih =>
    cases q with
    | nil => simp at h1
    | cons b q =>
      rw [findMarker]
      cases i with
      | zero =>
        simp at h0 h1
        rw [if_pos ⟨h0, h1⟩]
      | succ i =>
        rw [if_neg (by have := h2 0 (by omega); simpa using this)]
        rw [ih i (by simpa using h0) (by simpa using h1) fun j hj => by
          simpa using h2 (j + 1) (by omega)]

theorem findMarker_lt {q : List Byte} {i : Nat} (h : findMarker q = some i) : i + 1 < q.length := by
  induction q generalizing i with
  | nil => simp [findMarker] at h
  | cons a q ih =>
    cases q with
    | nil => simp [findMarker] at h
    | cons b q =>
      rw [findMarker] at h
      split at h
      · simp at h; subst h; simp
      · cases hm : findMarker (b :: q) with
        | none => simp [hm] at h
        | some j => simp [hm] at h; subst h; have := ih hm; simp at this ⊢; omega

/-- Bytes received later leave the first marker where it is. -/
theorem findMarker_append {q : List Byte} {i : Nat} (c : List Byte) (h : findMarker q = some i) :
    findMarker (q ++ c) = some i := by
  induction q generalizing i with
  | nil => simp [findMarker] at h
  | cons a q ih =>
    cases q with
    | nil => simp [findMarker] at h
    | cons b q =>
      rw [List.cons_append, List.cons_append, findMarker]
      rw [findMarker] at h
      split at h
      · next hh => simpa [hh] using h
      · next hh =>
        rw [if_neg hh]
        cases hm : findMarker (b :: q) with
        | none => simp [hm] at h
        | some j => rw [← List.cons_append, ih hm]; simpa [hm] using h

theorem keptBytes_le (q : List Byte) : keptBytes q ≤ q.length ∧ keptBytes q ≤ 1 := by
  unfold keptBytes
  split
  · next h => cases q <;> simp_all
  · omega

/-- Without a marker, all but the kept bytes may be dropped before more bytes are received. -/
theorem findMarker_none_append {q c : List Byte} (h : findMarker q = none) :
    findMarker (q ++ c) = (findMarker (q.drop (q.length - keptBytes q) ++ c)).map (· + (q.length - keptBytes q)) := by
  induction q with
  | nil => simp [keptBytes]
  | cons a q ih =>
    cases q with
    | nil =>
      unfold keptBytes
      by_cases ha : a = 0xAA
      · subst ha; simp
      · have ha' : ¬ a = 170#8 := ha
        cases c with
        | nil => simp [findMarker, ha']
        | cons b c =>
          rw [List.singleton_append, findMarker, if_neg (by tauto)]
          simp only [List.getLast?_singleton, Option.some.injEq]
          simp [ha']
          cases findMarker (b :: c) <;> simp
    | cons b q =>
      rw [findMarker] at h
      split at h
      · simp at h
      · next hh =>
        have hm : findMarker (b :: q) = none := by
          cases hm : findMarker (b :: q) with
          | none => rfl
          | some j => simp [hm] at h
        have hk : keptBytes (a :: b :: q) = keptBytes (b :: q) := by simp [keptBytes, List.getLast?_cons_cons]
        have hle : keptBytes (b :: q) ≤ 1 := by unfold keptBytes; split <;> omega
        rw [hk]
        rw [List.cons_append, List.cons_append, findMarker, if_neg hh, ← List.cons_append, ih hm]
        have e : (a :: b :: q).length - keptBytes (b :: q) = ((b :: q).length - keptBytes (b :: q)) + 1 := by
          simp; omega
        rw [e, List.drop_succ_cons]
        cases findMarker (List.drop ((b :: q).length - keptBytes (b :: q)) (b :: q) ++ c) <;> simp; omega

theorem keptBytes_append (q c : List Byte) :
    keptBytes (q.drop (q.length - keptBytes q) ++ c) = keptBytes (q ++ c) := by
  cases c with
  | nil =>
    simp
    unfold keptBytes
    split
    · next h =>
      have : q ≠ [] := by rintro rfl; simp at h
      have hl : 0 < q.length := List.length_pos_iff.2 this
      rw [List.getLast?_drop]
      have : ¬ q.length ≤ q.length - 1 := by omega
      simp [this, h]
    · simp
  | cons b c => simp [keptBytes, List.getLast?_append]

/-! ## The actions -/

/-- An action that waits emits no frame. -/
theorem act_waits (mp : U32) (ra : Reassembler) : (act mp ra).waits = true → (act mp ra).emitted = none := by
  unfold act actSeek actHeader actPayload
  split
  · split <;> simp
  · split_ifs <;> simp
  · split_ifs <;> simp

/-- The weight of a Reassembler's state in the measure. -/
def RxState.weight : RxState → Nat
  | .seekSync => 2
  | .readHeader => 1
  | .readPayload => 0

/-- The measure that each action but a waiting one shrinks (40_reassembler R119). -/
def Reassembler.measure (ra : Reassembler) : Nat := 3 * ra.q.length + ra.state.weight

theorem act_measure (mp : U32) (ra : Reassembler) (h : (act mp ra).waits = false) :
    (act mp ra).ra.measure < ra.measure := by
  unfold act actSeek actHeader actPayload at *
  cases hs : ra.state with
  | seekSync =>
    simp only [hs] at h ⊢
    cases hm : findMarker ra.q with
    | none => simp [hm] at h
    | some i =>
      have := findMarker_lt hm
      simp only [Reassembler.measure, RxState.weight, hs, List.length_drop]
      omega
  | readHeader =>
    simp only [hs] at h ⊢
    split_ifs at h ⊢ with h1 h2 h3
    all_goals first
      | (simp at h; done)
      | (simp only [Reassembler.measure, RxState.weight, hs, List.length_drop]; omega)
  | readPayload =>
    simp only [hs] at h ⊢
    split_ifs at h ⊢ with h1
    all_goals first
      | (simp at h; done)
      | (simp only [Reassembler.measure, RxState.weight, hs, List.length_drop]; omega)

/-- The registers with more bytes received. -/
def Reassembler.receive (ra : Reassembler) (chunk : List Byte) : Reassembler := { ra with q := ra.q ++ chunk }

/-- Bytes received later do not change an action that does not wait. -/
theorem act_receive (mp : U32) (ra : Reassembler) (c : List Byte) (h : (act mp ra).waits = false) :
    act mp (ra.receive c) = { act mp ra with ra := (act mp ra).ra.receive c } := by
  unfold act at *
  cases hs : ra.state with
  | seekSync =>
    simp only [hs] at h
    simp only [Reassembler.receive, hs]
    unfold actSeek at *
    cases hm : findMarker ra.q with
    | none => simp [hm] at h
    | some i =>
      have := findMarker_lt hm
      simp only [findMarker_append c hm]
      rw [List.drop_append_of_le_length (by omega)]
  | readHeader =>
    simp only [hs] at h
    simp only [Reassembler.receive, hs]
    unfold actHeader at *
    have hc : ¬ ra.q.length < 7 := by
      intro hc; simp [hc] at h
    have e1 : headerLen (ra.q ++ c) = headerLen ra.q := by
      unfold headerLen
      rw [List.drop_append_of_le_length (by omega), List.take_append_of_le_length (by simp; omega)]
    have e2 : headerType (ra.q ++ c) = headerType ra.q := by
      unfold headerType; rw [List.getD_append _ _ _ _ (by omega)]
    simp only [e1, e2]
    rw [if_neg hc, if_neg (by simp; omega)]
    split_ifs
    · simp; rw [List.drop_append_of_le_length (by omega)]
    · simp; rw [List.drop_append_of_le_length (by omega)]
    · rfl
  | readPayload =>
    simp only [hs] at h
    simp only [Reassembler.receive, hs]
    unfold actPayload at *
    have hc : ¬ ra.q.length < 7 + ra.len.toNat := by
      intro hc; simp [hc] at h
    rw [if_neg hc, if_neg (by simp; omega)]
    simp
    rw [List.drop_append_of_le_length (by omega), List.drop_append_of_le_length (by omega),
      List.take_append_of_le_length (by simp; omega)]
    simp

end Sys2Proof.Machine
end

