-- ==== Sys2Proof/Laws/Window.lean ====
section
/-! SUPPORT. The geometry of a valid window (41_framebuffer R131 to R135, R137): its rows lie inside the screen's rows, its
bytes inside the buffer, and the cursor's next position is the next one in the window's linear order. -/

namespace Sys2Proof.Machine

/-- The parts of `valid(x, y, w, h)` (41_framebuffer R131). -/
theorem validRect_iff (ss : ScreenState) (x y w h : Nat) :
    ss.validRect x y w h = true ↔
      1 ≤ w ∧ 1 ≤ h ∧ x + w ≤ ss.width.toNat ∧ y + h ≤ ss.height.toNat ∧
        (isPacked ss.fmt = true → x % 8 = 0 ∧ (w % 8 = 0 ∨ x + w = ss.width.toNat)) := by
  cases hp : isPacked ss.fmt <;> simp [ScreenState.validRect, hp, and_assoc]

theorem isPacked_iff (f : Format) : isPacked f = true ↔ f = .mono ∨ f = .monoInv := by
  cases f <;> decide

theorem formatClass_bytes_pos {f : Format} {n : Nat} (h : formatClass f = .bytes n) : 1 ≤ n := by
  cases f <;> simp [formatClass] at h <;> omega

/-- A format is packed, or a byte format of at least one byte a pixel. -/
theorem formatClass_cases (f : Format) :
    (isPacked f = true ∧ formatClass f = .packed) ∨ ∃ n, 1 ≤ n ∧ isPacked f = false ∧ formatClass f = .bytes n := by
  cases hf : formatClass f with
  | packed => exact .inl ⟨by simp [isPacked, hf], rfl⟩
  | bytes n => exact .inr ⟨n, formatClass_bytes_pos hf, by simp [isPacked, hf], rfl⟩

/-- A row of a valid window is at least one byte long and lies inside the screen's row. -/
theorem validRect_row {ss : ScreenState} {x y w h : Nat} (hv : ss.validRect x y w h = true) :
    1 ≤ winRowOf ss.fmt w ∧ colOff ss.fmt x + winRowOf ss.fmt w ≤ ss.stride := by
  obtain ⟨hw, -, hx, -, hp⟩ := (validRect_iff ss x y w h).1 hv
  unfold ScreenState.stride rowBytes colOff winRowOf
  rcases formatClass_cases ss.fmt with ⟨h1, h2⟩ | ⟨n, hn, -, h2⟩
  · obtain ⟨hx8, h3⟩ := hp h1
    simp only [h2, ceilDiv]
    omega
  · simp only [h2]
    refine ⟨Nat.mul_pos hn hw, ?_⟩
    rw [← Nat.mul_add]
    exact Nat.mul_le_mul_left n hx

/-- The last row of a valid window ends inside the buffer. -/
theorem validRect_end {ss : ScreenState} {x y w h : Nat} (hv : ss.validRect x y w h = true) :
    ss.stride * y + colOff ss.fmt x + (h - 1) * ss.stride + winRowOf ss.fmt w ≤ ss.fbLen := by
  obtain ⟨-, hr⟩ := validRect_row hv
  obtain ⟨-, hh, -, hy, -⟩ := (validRect_iff ss x y w h).1 hv
  have h1 : ss.stride * y + (h - 1) * ss.stride + ss.stride = ss.stride * (y + h) := by
    obtain ⟨k, rfl⟩ : ∃ k, h = k + 1 := ⟨h - 1, by omega⟩
    simp only [Nat.add_sub_cancel]
    ring
  have h2 : ss.stride * (y + h) ≤ ss.fbLen := Nat.mul_le_mul_left _ hy
  omega

/-- The height of the current window, less one. -/
theorem State.winHeight_eq (s : State) : s.winHeight = s.win.y1.toNat - s.win.y0.toNat + 1 := rfl

/-- The geometry of a window in order: rows of `winRow` bytes, at least one and at most a stride long. -/
structure Geometry (s : State) : Prop where
  rowPos : 1 ≤ s.winRow
  rowLe : s.winRow ≤ s.stride
  wrap : s.win.wrap = s.stride - s.winRow
  ringEnd : s.ringEnd = s.win.front + (s.winHeight - 1) * s.stride + s.winRow
  inside : s.win.front + (s.winHeight - 1) * s.stride + s.winRow ≤ s.fbLen

theorem WindowOk.geometry {s : State} (h : WindowOk s) : Geometry s := by
  have hr := validRect_row h.valid
  have he := validRect_end h.valid
  have hs : s.ss.stride = s.stride := rfl
  have hl : s.ss.fbLen = s.fbLen := rfl
  rw [hs] at hr he
  rw [hl] at he
  rw [Nat.add_sub_cancel, ← h.front] at he
  have hrow : s.winRow = winRowOf s.ss.fmt (s.win.x1.toNat - s.win.x0.toNat + 1) := by
    unfold State.winRow
    have := h.wrap
    omega
  refine ⟨by omega, by omega, ?_, ?_, ?_⟩
  · rw [hrow]; exact h.wrap
  · unfold State.ringEnd
    rw [h.back, hrow, State.winHeight_eq, Nat.add_sub_cancel]
    omega
  · rw [hrow, State.winHeight_eq, Nat.add_sub_cancel]
    exact he

/-- The window's rows follow from the byte-offset registers alone, without `WIN.y0` and `WIN.y1` (10_state R57; log 30). -/
theorem Geometry.winHeight_of_offsets {s : State} (g : Geometry s) :
    s.winHeight = (s.ringEnd - s.win.front - s.winRow) / s.stride + 1 := by
  have h : s.ringEnd - s.win.front - s.winRow = (s.winHeight - 1) * s.stride := by rw [g.ringEnd]; omega
  rw [h, Nat.mul_div_cancel _ (Nat.lt_of_lt_of_le g.rowPos g.rowLe), State.winHeight_eq]
  omega

/-- ADDR_BITS is the least width that holds the capacity (00_scope R12). -/
theorem addrBits_le_iff (c : Config) (n : Nat) : addrBits c ≤ n ↔ c.maxFbBytes < 2 ^ n :=
  Nat.clog_le_iff_le_pow (by omega)

theorem State.capacity_eq (s : State) : s.capacity = s.winHeight * s.winRow := rfl

theorem Geometry.capacity_pos {s : State} (g : Geometry s) : 1 ≤ s.capacity :=
  Nat.mul_pos (Nat.succ_pos _) g.rowPos

/-- Position `r * winRow + c` of the linear order is byte `c` of row `r`. -/
theorem Geometry.addr_row {s : State} {r c : Nat} (hc : c < s.winRow) :
    s.addr (r * s.winRow + c) = s.win.front + r * s.stride + c := by
  unfold State.addr
  have h1 : (r * s.winRow + c) / s.winRow = r := by
    rw [Nat.mul_comm, Nat.mul_add_div (by omega), Nat.div_eq_of_lt hc, Nat.add_zero]
  have h2 : (r * s.winRow + c) % s.winRow = c := by
    rw [Nat.mul_comm, Nat.mul_add_mod, Nat.mod_eq_of_lt hc]
  rw [h1, h2]

/-- Byte `c` of row `r` is position `r * winRow + c` of the linear order. -/
theorem Geometry.lin_row {s : State} (g : Geometry s) {r c : Nat} (hc : c < s.winRow) :
    s.lin (s.win.front + r * s.stride + c) = r * s.winRow + c := by
  unfold State.lin
  have hs : c < s.stride := Nat.lt_of_lt_of_le hc g.rowLe
  have h0 : s.win.front + r * s.stride + c - s.win.front = s.stride * r + c := by
    rw [Nat.mul_comm]; omega
  have h1 : (s.stride * r + c) / s.stride = r := by
    rw [Nat.mul_add_div (by omega), Nat.div_eq_of_lt hs, Nat.add_zero]
  have h2 : (s.stride * r + c) % s.stride = c := by
    rw [Nat.mul_add_mod, Nat.mod_eq_of_lt hs]
  rw [h0, h1, h2]

/-- A position of the linear order is a row of the window and a byte of that row. -/
theorem Geometry.position {s : State} (g : Geometry s) {k : Nat} (hk : k < s.capacity) :
    ∃ r c, r < s.winHeight ∧ c < s.winRow ∧ k = r * s.winRow + c := by
  have hp := g.rowPos
  refine ⟨k / s.winRow, k % s.winRow, ?_, Nat.mod_lt _ (by omega), ?_⟩
  · exact (Nat.div_lt_iff_lt_mul (by omega)).2 hk
  · rw [Nat.mul_comm]; exact (Nat.div_add_mod k s.winRow).symm

/-- A byte of a row of the window is a position of the linear order. -/
theorem Geometry.position_lt {s : State} {r c : Nat} (hr : r < s.winHeight) (hc : c < s.winRow) :
    r * s.winRow + c < s.capacity := by
  have : (r + 1) * s.winRow ≤ s.capacity := Nat.mul_le_mul_right _ hr
  rw [Nat.succ_mul] at this
  omega

/-- The bytes of the window, by their positions. -/
theorem Geometry.inWset_iff {s : State} (g : Geometry s) (a : Nat) :
    InWset s a ↔ ∃ k, k < s.capacity ∧ a = s.addr k := by
  constructor
  · rintro ⟨r, c, hr, hc, rfl⟩
    exact ⟨r * s.winRow + c, Geometry.position_lt (by rw [State.winHeight_eq]; omega) hc, (Geometry.addr_row hc).symm⟩
  · rintro ⟨k, hk, rfl⟩
    obtain ⟨r, c, hr, hc, rfl⟩ := g.position hk
    exact ⟨r, c, by rw [State.winHeight_eq] at hr; omega, hc, Geometry.addr_row hc⟩

/-- A byte of the window is a byte of the buffer. -/
theorem Geometry.lt_fbLen {s : State} (g : Geometry s) {r c : Nat} (hr : r < s.winHeight) (hc : c < s.winRow) :
    s.win.front + r * s.stride + c < s.fbLen := by
  have h1 : r * s.stride ≤ (s.winHeight - 1) * s.stride := Nat.mul_le_mul_right _ (by omega)
  have := g.inside
  omega

/-- The cursor after one byte is the next position of the linear order, the first after the last (41_framebuffer R136,
R137). -/
theorem Geometry.nextCursor_eq {s : State} (g : Geometry s) {k : Nat} (hk : k < s.capacity)
    (hcur : s.win.cursor = s.addr k) : s.nextCursor = s.addr ((k + 1) % s.capacity) := by
  obtain ⟨r, c, hr, hc, rfl⟩ := g.position hk
  rw [Geometry.addr_row hc] at hcur
  have hle := g.rowLe
  have hwrap := g.wrap
  unfold State.nextCursor
  simp only [hcur, g.ringEnd]
  have hmono : r * s.stride ≤ (s.winHeight - 1) * s.stride := Nat.mul_le_mul_right _ (by omega)
  by_cases hlast : c + 1 = s.winRow
  · by_cases hend : r + 1 = s.winHeight
    · have hr' : r = s.winHeight - 1 := by omega
      rw [if_pos (by rw [← hr']; omega)]
      have hcap : r * s.winRow + c + 1 = s.capacity := by
        rw [State.capacity_eq, ← hend, Nat.succ_mul]; omega
      rw [hcap, Nat.mod_self]
      simp [State.addr]
    · have hstep : (r + 1) * s.stride ≤ (s.winHeight - 1) * s.stride := Nat.mul_le_mul_right _ (by omega)
      rw [Nat.succ_mul] at hstep
      have hpos := g.rowPos
      rw [if_neg (by omega)]
      have hnext : (r * s.winRow + c + 1) % s.capacity = (r + 1) * s.winRow + 0 := by
        rw [Nat.mod_eq_of_lt]
        · rw [Nat.succ_mul]; omega
        · have := Geometry.position_lt (s := s) (r := r + 1) (c := 0) (by omega) (by omega)
          rw [Nat.succ_mul] at this; omega
      rw [hnext, Geometry.addr_row (by omega), Nat.succ_mul]
      by_cases hw : s.winRow = s.stride
      · rw [if_neg (by omega)]
        omega
      · have hm : (s.win.front + r * s.stride + c + 1 - s.win.front) % s.stride = s.winRow := by
          rw [show s.win.front + r * s.stride + c + 1 - s.win.front = s.stride * r + s.winRow by
            rw [Nat.mul_comm]; omega]
          rw [Nat.mul_add_mod, Nat.mod_eq_of_lt (by omega)]
        rw [if_pos ⟨by omega, hm⟩]
        omega
  · rw [if_neg (by omega)]
    have hnext : (r * s.winRow + c + 1) % s.capacity = r * s.winRow + (c + 1) :=
      Nat.mod_eq_of_lt (Geometry.position_lt (s := s) hr (c := c + 1) (by omega))
    rw [hnext, Geometry.addr_row (by omega)]
    have hm : (s.win.front + r * s.stride + c + 1 - s.win.front) % s.stride = c + 1 := by
      rw [show s.win.front + r * s.stride + c + 1 - s.win.front = s.stride * r + (c + 1) by
        rw [Nat.mul_comm]; omega]
      rw [Nat.mul_add_mod, Nat.mod_eq_of_lt (by omega)]
    rw [if_neg (by rw [hm]; omega)]
    omega

/-- The cursor and the bytes of the buffer do not enter the geometry. -/
theorem Geometry.congr {s t : State} (g : Geometry s) (hss : t.ss = s.ss)
    (hwin : t.win = { s.win with cursor := t.win.cursor }) : Geometry t := by
  obtain ⟨cfg, ss, win, fb, ra, enc, now, inbox, out, draws⟩ := s
  obtain ⟨cfg', ss', win', fb', ra', enc', now', inbox', out', draws'⟩ := t
  simp only at hss hwin
  subst hss
  rw [hwin]
  exact ⟨g.rowPos, g.rowLe, g.wrap, g.ringEnd, g.inside⟩

end Sys2Proof.Machine
end

