-- ==== Sys2Proof/Laws/Ring.lean ====
section
/-! SUPPORT. The byte loop of a write on a window in order: where each byte goes and where the cursor ends, in the linear
order of the window (41_framebuffer R135, R136). -/

namespace Sys2Proof.Machine

theorem Geometry.addr_lt_fbLen {s : State} (g : Geometry s) {k : Nat} (hk : k < s.capacity) : s.addr k < s.fbLen := by
  obtain ⟨r, c, hr, hc, rfl⟩ := g.position hk
  rw [Geometry.addr_row hc]
  exact g.lt_fbLen hr hc

theorem Geometry.lin_addr {s : State} (g : Geometry s) {k : Nat} (hk : k < s.capacity) : s.lin (s.addr k) = k := by
  obtain ⟨r, c, hr, hc, rfl⟩ := g.position hk
  rw [Geometry.addr_row hc, g.lin_row hc]

theorem Geometry.addr_injective {s : State} (g : Geometry s) {j k : Nat} (hj : j < s.capacity) (hk : k < s.capacity)
    (h : s.addr j = s.addr k) : j = k := by
  rw [← g.lin_addr hj, ← g.lin_addr hk, h]

/-- The cursor of a window in order is a position of the linear order. -/
theorem Geometry.cursor_position {s : State} (g : Geometry s) {a : Nat} (h : InWset s a) :
    s.lin a < s.capacity ∧ s.addr (s.lin a) = a := by
  obtain ⟨k, hk, rfl⟩ := (g.inWset_iff a).1 h
  rw [g.lin_addr hk]
  exact ⟨hk, rfl⟩

/-- What a write of `data` from position `k` does: byte `j` goes to position `k + j`, a later byte over an earlier one at
the same position, and the cursor ends at position `k + |data|`, all modulo the capacity. -/
structure RingWrite (s t : State) (k : Nat) (data : List Byte) : Prop where
  state : t = { s with fb := t.fb, win := { s.win with cursor := s.addr ((k + data.length) % s.capacity) } }
  draw : t.fb.draw = s.fb.draw
  stored : ∀ (j : Nat) (hj : j < data.length), data.length ≤ j + s.capacity →
    t.byteAt (s.addr ((k + j) % s.capacity)) = data[j]
  kept : ∀ a, (∀ j, j < data.length → a ≠ s.addr ((k + j) % s.capacity)) → t.byteAt a = s.byteAt a

/-- The byte loop of a write on a window in order answers next, and is a ring write. -/
theorem State.writeLoop_ring {data : List Byte} {s : State} {k : Nat} (g : Geometry s) (hk : k < s.capacity)
    (hcur : s.win.cursor = s.addr k) : ∃ t, s.writeLoop data = .next t ∧ RingWrite s t k data := by
  induction data generalizing s k with
  | nil =>
    refine ⟨s, rfl, ?_, rfl, fun j hj => absurd hj (by simp), fun a _ => rfl⟩
    rw [List.length_nil, Nat.add_zero, Nat.mod_eq_of_lt hk, ← hcur]
  | cons b bs ih =>
    have hlt : s.win.cursor < s.fbLen := hcur ▸ g.addr_lt_fbLen hk
    have hpos := g.capacity_pos
    have hk' : (k + 1) % s.capacity < s.capacity := Nat.mod_lt _ (by omega)
    -- the state after the first byte
    let s1 : State := { s with fb := s.fb.write s.win.cursor b }
    have hnext : s1.nextCursor = s.addr ((k + 1) % s.capacity) := g.nextCursor_eq hk hcur
    let s2 : State := s1.setCursor s1.nextCursor
    have g2 : Geometry s2 := g.congr rfl rfl
    obtain ⟨t, ht, hr⟩ := ih g2 (k := (k + 1) % s.capacity) hk' hnext
    have hpos2 : ∀ j, ((k + 1) % s.capacity + j) % s.capacity = (k + (j + 1)) % s.capacity := by
      intro j; rw [Nat.mod_add_mod]; congr 1; omega
    have hstored := hr.stored
    have hkept := hr.kept
    have hstate := hr.state
    have hcap : s2.capacity = s.capacity := rfl
    have haddr : ∀ n, s2.addr n = s.addr n := fun _ => rfl
    have hbyte : ∀ a, s2.byteAt a = if a = s.win.cursor then b else s.byteAt a := fun a =>
      State.byteAt_write s s.win.cursor a b
    simp only [hcap, haddr, hpos2] at hstored hkept hstate
    refine ⟨t, ?_, ?_, hr.draw, ?_, ?_⟩
    · show andThen (s.storeByte s.win.cursor b) (fun s' => State.writeLoop bs (s'.setCursor s'.nextCursor)) = .next t
      rw [State.storeByte_of_lt hlt, andThen_next]
      exact ht
    · rw [hstate]
      rfl
    · intro j hj hle
      simp only [List.length_cons] at hj hle
      cases j with
      | zero =>
        rw [Nat.add_zero, Nat.mod_eq_of_lt hk, ← hcur, hkept, hbyte, if_pos rfl]
        · rfl
        · intro i hi heq
          rw [hcur] at heq
          have := g.addr_injective hk (Nat.mod_lt _ (by omega)) heq
          have h3 : (k + (i + 1)) % s.capacity ≠ k := by
            intro h4
            rcases Nat.lt_or_ge (k + (i + 1)) s.capacity with h5 | h5
            · rw [Nat.mod_eq_of_lt h5] at h4; omega
            · rw [Nat.mod_eq_sub_mod h5, Nat.mod_eq_of_lt (by omega)] at h4; omega
          exact h3 this.symm
      | succ j =>
        exact hstored j (by omega) (by omega)
    · intro a ha
      rw [hkept a fun j hj => ha (j + 1) (by simpa using hj), hbyte, if_neg]
      have := ha 0 (by simp)
      rwa [Nat.add_zero, Nat.mod_eq_of_lt hk, ← hcur] at this

/-- The offsets HAVOC stores to are the bytes of the window. -/
theorem Geometry.mem_windowOffsets {s : State} (g : Geometry s) (a : Nat) : a ∈ s.windowOffsets ↔ InWset s a := by
  rw [g.inWset_iff]
  simp only [State.windowOffsets, List.mem_map, List.mem_range]
  exact ⟨fun ⟨k, hk, h⟩ => ⟨k, hk, h.symm⟩, fun ⟨k, hk, h⟩ => ⟨k, hk, h.symm⟩⟩

/-- HAVOC on a window in order answers next. -/
theorem State.havocWindow_next {s : State} (g : Geometry s) : ∃ t, s.havocWindow = .next t := by
  obtain ⟨u, hu⟩ := State.storeFree_next (d := s.draws) (as := s.windowOffsets) (s := s) fun a ha => by
    obtain ⟨r, c, hr, hc, rfl⟩ := (g.mem_windowOffsets a).1 ha
    exact g.lt_fbLen (by rw [State.winHeight_eq]; omega) hc
  exact ⟨_, by rw [State.havocWindow, hu, andThen_next]⟩

/-- A window that `set_window` computes from a valid rectangle is in order, its cursor at its first byte. -/
theorem windowOf_geometry {s : State} {x y w h : Nat} (hv : s.ss.validRect x y w h = true)
    (hw : s.win = windowOf s.ss x y w h) :
    Geometry s ∧ s.winHeight = h ∧ s.winRow = winRowOf s.ss.fmt w ∧ s.win.cursor = s.addr 0 := by
  have hr := validRect_row hv
  have he := validRect_end hv
  obtain ⟨h1, h2, h3, h4, -⟩ := (validRect_iff s.ss x y w h).1 hv
  have hW := s.ss.width.isLt
  have hH := s.ss.height.isLt
  have hy0 : s.win.y0.toNat = y := by rw [hw]; simp only [windowOf, BitVec.toNat_ofNat]; omega
  have hy1 : s.win.y1.toNat = y + h - 1 := by rw [hw]; simp only [windowOf, BitVec.toNat_ofNat]; omega
  have hh : s.winHeight = h := by rw [State.winHeight_eq, hy0, hy1]; omega
  have hst : s.stride = s.ss.stride := rfl
  have hfl : s.fbLen = s.ss.fbLen := rfl
  have hrow : s.winRow = winRowOf s.ss.fmt w := by
    unfold State.winRow
    rw [hst, hw]
    simp only [windowOf]
    omega
  have hfront : s.win.front = s.ss.stride * y + colOff s.ss.fmt x := by rw [hw]; rfl
  have hback : s.win.back = s.ss.fbLen - (s.win.front + (h - 1) * s.ss.stride + winRowOf s.ss.fmt w) := by
    rw [hfront, hw]; rfl
  have hwrap : s.win.wrap = s.ss.stride - winRowOf s.ss.fmt w := by rw [hw]; rfl
  have hcur : s.win.cursor = s.win.front := by rw [hw]; rfl
  refine ⟨⟨by omega, by rw [hst]; omega, by rw [hwrap, hrow, hst], ?_, ?_⟩, hh, hrow, ?_⟩
  · unfold State.ringEnd
    rw [hback, hh, hrow, hst, hfl, hfront]
    omega
  · rw [hh, hrow, hst, hfl, hfront]
    exact he
  · rw [hcur]; simp [State.addr]

/-- When HAVOC ends a write (41_framebuffer R139). -/
theorem State.havocs_iff (s : State) (data : List Byte) :
    s.havocs data = true ↔
      (s.ss.fmt = .mono ∨ s.ss.fmt = .monoInv) ∧ data.length % s.winRow ≠ 0 ∧ s.cfg.monoPartial = .havoc := by
  simp [State.havocs, ← isPacked_iff, and_assoc]

/-- A write on a window in order answers next: a ring write, or the window's bytes at the free draw it takes. -/
theorem State.writeData_ring {data : List Byte} {s : State} {k : Nat} (g : Geometry s) (hk : k < s.capacity)
    (hcur : s.win.cursor = s.addr k) :
    ∃ (m : Memory) (d : Nat),
      s.writeData data = .next { s with
        fb := m, draws := d, win := { s.win with cursor := s.addr ((k + data.length) % s.capacity) } } ∧
      (s.havocs data = false → d = s.draws ∧
        (∀ (j : Nat) (hj : j < data.length), data.length ≤ j + s.capacity →
          m.read (s.addr ((k + j) % s.capacity)) = data[j]) ∧
        (∀ a, (∀ j, j < data.length → a ≠ s.addr ((k + j) % s.capacity)) → m.read a = s.byteAt a)) ∧
      (s.havocs data = true → d = s.draws + 1 ∧ m.draw = s.fb.draw ∧
        (∀ a, InWset s a → m.read a = Config.freeByte s.draws a) ∧
        ∀ a, ¬ InWset s a → m.read a = s.byteAt a) := by
  obtain ⟨t, ht, hr⟩ := State.writeLoop_ring (data := data) g hk hcur
  have hst := hr.state
  have hh : t.havocs data = s.havocs data := by rw [hst]; rfl
  have gt : Geometry t := g.congr (by rw [hst]) (by rw [hst])
  have hin : ∀ a, InWset t a ↔ InWset s a := by intro a; rw [hst]; rfl
  cases hv : s.havocs data with
  | false =>
    refine ⟨t.fb, t.draws, ?_, fun _ => ⟨?_, hr.stored, hr.kept⟩, by simp⟩
    · rw [State.writeData, ht, andThen_next, hh, hv]
      simp only [Bool.false_eq_true, if_false]
      rw [hst]
    · rw [hst]
  | true =>
    obtain ⟨u, hu⟩ := State.havocWindow_next gt
    obtain ⟨v, hs, hf, rfl⟩ := State.havocWindow_eq_next hu
    have hd : t.draws = s.draws := by rw [hst]
    refine ⟨v.fb, t.draws + 1, ?_, by simp, fun _ => ⟨by rw [hd], ?_, ?_, ?_⟩⟩
    · rw [State.writeData, ht, andThen_next, hh, hv]
      simp only [if_true]
      rw [hu, hs.state, hst]
    · rw [hs.draw, hr.draw]
    · intro a ha
      rw [← hd]
      exact hf a ((gt.mem_windowOffsets a).2 ((hin a).2 ha))
    · intro a ha
      have := hs.kept a (fun h => ha ((hin a).1 ((gt.mem_windowOffsets a).1 h)))
      rw [show v.fb.read a = v.byteAt a from rfl, this]
      apply hr.kept
      intro j hj heq
      apply ha
      rw [heq, g.inWset_iff]
      have := g.capacity_pos
      exact ⟨_, Nat.mod_lt _ (by omega), rfl⟩

end Sys2Proof.Machine
end

