-- ==== Sys2Proof/Tests/Slice0.lean ====
section
/-! SUPPORT. Tests, each on one decode or one step, the expected values from spec/95_test_vectors.md (the vector's name is
in the comment) or written out from spec/30_encoding.md; then, for each statement with hypotheses, a state and operands that
meet them (`test_meets_<statement>`). -/

namespace Sys2Proof.Tests

open Sys2Proof.Machine

/-! ## Helpers -/

/-- A view of the next state, if there is one. -/
def after {α : Type} (r : Result) (view : State → α) : Option α :=
  match r with
  | .next s => some (view s)
  | _ => none

/-- The enabled screen of a vector's setup. -/
def shown (fmt : Format) (w h : U16) : ScreenState :=
  { width := w, height := h, fmt := fmt, rot := 0, indev := 0x1F, enabled := true }

/-- An enabled engine with a full-screen window. -/
def ready (fmt : Format) (w h : U16) : State :=
  { State.resetWith Config.default with ss := shown fmt w h, win := fullScreen (shown fmt w h) }

/-- An enabled engine with the window (x, y, w, h). -/
def windowed (fmt : Format) (sw sh : U16) (x y w h : Nat) : State :=
  { ready fmt sw sh with win := windowOf (shown fmt sw sh) x y w h }

/-- Bytes of the buffer. -/
def bytesAt (offsets : List Nat) (s : State) : List Byte := offsets.map s.byteAt

/-- RGB565 4x3 with the window of vector FB1. -/
def fb1 : State := windowed .rgb565 4 3 1 1 2 2

/-! ## WellFormed: each check refuses an ill-formed term -/

theorem test_ill_formed_init_short : (Instr.init (.short [1, 2, 3, 4, 5, 6, 7])).wellFormed = false := by decide
theorem test_ill_formed_setWindow_short : (Instr.setWindow (.short [1, 2, 3, 4, 5, 6, 7, 8])).wellFormed = false := by
  decide
theorem test_ill_formed_setWindowWrite_short :
    (Instr.setWindowWrite (.short [1, 2, 3, 4, 5, 6, 7, 8])).wellFormed = false := by decide
theorem test_ill_formed_drawPoint_short : (Instr.drawPoint (.short [1, 2, 3, 4, 5, 6, 7, 8])).wellFormed = false := by
  decide
theorem test_ill_formed_length : (Instr.write (List.replicate (2 ^ 32) 0)).wellFormed = false := by
  simp only [Instr.wellFormed, Instr.payloadSize, List.length_replicate, lt_irrefl, decide_false, Bool.and_false]
theorem test_well_formed_short : (Instr.setWindow (.short [1, 2, 3, 4, 5, 6, 7])).wellFormed = true := by decide

/-! ## Decoding: every constructor from bytes written out from 30_encoding R80 to R97 -/

theorem test_decode_init : decode .inbound [0xAA, 0x55, 0x01, 7, 0, 0, 0, 0x0A, 0x00, 0x05, 0x01, 0x02, 0x03, 0x1F] =
    .ok (.init (.full ⟨10, 261, 2, 3, 0x1F⟩ []), []) := by decide
theorem test_decode_init_short : decode .inbound [0xAA, 0x55, 0x01, 6, 0, 0, 0, 4, 0, 3, 0, 0, 0] =
    .ok (.init (.short [4, 0, 3, 0, 0, 0]), []) := by decide
theorem test_decode_setWindow : decode .inbound [0xAA, 0x55, 0x02, 8, 0, 0, 0, 1, 0, 2, 0, 3, 1, 4, 0] =
    .ok (.setWindow (.full ⟨1, 2, 259, 4⟩ []), []) := by decide
theorem test_decode_write : decode .inbound [0xAA, 0x55, 0x03, 2, 0, 0, 0, 0xAA, 0x55] = .ok (.write [0xAA, 0x55], []) := by
  decide
theorem test_decode_setWindowWrite :
    decode .inbound [0xAA, 0x55, 0x04, 10, 0, 0, 0, 3, 0, 0, 0, 2, 0, 1, 0, 0x11, 0x22] =
      .ok (.setWindowWrite (.full ⟨3, 0, 2, 1⟩ [0x11, 0x22]), []) := by decide
theorem test_decode_drawPoint : decode .inbound [0xAA, 0x55, 0x05, 8, 0, 0, 0, 3, 0, 4, 0, 0, 0xF8, 0, 0x12] =
    .ok (.drawPoint (.full ⟨3, 4, 0x1200F800⟩ []), []) := by decide
theorem test_decode_ignored00 : decode .inbound [0xAA, 0x55, 0x00, 1, 0, 0, 0, 9, 7] = .ok (.ignored00 [9], [7]) := by decide
theorem test_decode_ignored06to07 : decode .inbound [0xAA, 0x55, 0x07, 2, 0, 0, 0, 1, 2] =
    .ok (.ignored06to07 1 [1, 2], []) := by decide
theorem test_decode_ignored08to0F : decode .inbound [0xAA, 0x55, 0x0D, 0, 0, 0, 0] = .ok (.ignored08to0F 5 [], []) := by
  decide
theorem test_decode_ignored10to1F : decode .inbound [0xAA, 0x55, 0x1A, 0, 0, 0, 0] = .ok (.ignored10to1F 10 [], []) := by
  decide
theorem test_decode_ignored20to3F : decode .inbound [0xAA, 0x55, 0x33, 0, 0, 0, 0] = .ok (.ignored20to3F 19 [], []) := by
  decide
theorem test_decode_ignored40to7F : decode .inbound [0xAA, 0x55, 0x7E, 0, 0, 0, 0] = .ok (.ignored40to7F 62 [], []) := by
  decide
theorem test_decode_ignored80toFF : decode .inbound [0xAA, 0x55, 0xFF, 0, 0, 0, 0] = .ok (.ignored80toFF 127 [], []) := by
  decide
theorem test_decode_evKeyboard : decode .outbound [0xAA, 0x55, 0x00, 6, 0, 0, 0, 0x02, 0x41, 0x01, 0x45, 0x23, 0x61] =
    .ok (.evKeyboard false true 0x141 0x2345 0x61, []) := by decide
theorem test_decode_evTouch : decode .outbound [0xAA, 0x55, 0x01, 5, 0, 0, 0, 0x2C, 0x01, 0xC8, 0x00, 0x01] =
    .ok (.evTouch 300 200 true, []) := by decide
theorem test_decode_evMouse : decode .outbound [0xAA, 0x55, 0x02, 6, 0, 0, 0, 0x0A, 0, 0x14, 0, 0xFF, 0x01] =
    .ok (.evMouse 10 20 0xFF 1, []) := by decide
theorem test_decode_evButton : decode .outbound [0xAA, 0x55, 0x03, 2, 0, 0, 0, 2, 1] = .ok (.evButton 2 true, []) := by
  decide
theorem test_decode_evEncoder : decode .outbound [0xAA, 0x55, 0x04, 2, 0, 0, 0, 0xFD, 0] = .ok (.evEncoder 0xFD false, []) := by
  decide
theorem test_decode_initRequest : decode .outbound [0xAA, 0x55, 0xFF, 0, 0, 0, 0] = .ok (.initRequest, []) := by decide
theorem test_decode_no_marker : decode .inbound [0xAA, 0x54, 0x03, 0, 0, 0, 0] = .error .noSyncMarker := by decide
theorem test_decode_truncated : decode .inbound [0xAA, 0x55, 0x03, 1, 0, 0, 0] = .error .truncated := by decide
theorem test_decode_outbound_reserved : decode .outbound [0xAA, 0x55, 0x00, 6, 0, 0, 0, 4, 0, 0, 0, 0, 0] =
    .error (.outboundField 0) := by decide

/-- The table's words, numbered as 30_encoding R81 numbers H; a length in bits 24 to 55 brings its payload bytes. -/
theorem test_table_words :
    decodeTableWord 24 0xAA5501 = some (.init (.short [])) ∧ decodeTableWord 24 0xAA5507 = some (.ignored06to07 1 []) ∧
      decodeTableWord 24 0xAA56FF = none ∧ decodeTableWord 64 0x1100000001AA5503 = some (.write [0x11]) := by decide

/-! ## One step of each instruction -/

/-- S5, row MONO: 100 x 50 takes 13 bytes a row. -/
theorem test_init_success : after (exec (.init (.full ⟨100, 50, 2, 0, 0⟩ [])) State.reset)
    (fun s => (s.fbLen, s.win, s.ss.enabled, s.out)) =
      some (650, { x0 := 0, y0 := 0, x1 := 99, y1 := 49, front := 0, back := 0, wrap := 0, cursor := 0 }, true,
        [.notify .params]) := by decide
/-- CM6. -/
theorem test_init_capacity : after (exec (.init (.full ⟨256, 256, 0, 0, 0⟩ [])) (ready .gray8 4 3))
    (fun s => (s.ss.enabled, s.out)) =
      some (false, [.err (.invalidInit (.capacity 131072)), .notify .params]) := by decide
/-- FB7, the set-window. -/
theorem test_setWindow_last_row : after (exec (.setWindow (.full ⟨2, 2, 2, 1⟩ [])) (ready .rgb565 4 3)) State.win =
    some { x0 := 2, y0 := 2, x1 := 3, y1 := 2, front := 20, back := 0, wrap := 4, cursor := 20 } := by decide
/-- FB5. -/
theorem test_setWindow_no_wrap : after (exec (.setWindow (.full ⟨65535, 0, 2, 1⟩ [])) (ready .rgb565 4 3)) State.out =
    some [.err (.invalidWindow 65535 0 2 1)] := by decide
/-- FB6. -/
theorem test_write_past_capacity : after (exec (.write [1, 2, 3, 4, 5, 6, 7, 8, 9, 10]) fb1)
    (fun s => (bytesAt [10, 11, 12, 13, 18, 19, 20, 21] s, s.win.cursor)) =
      some ([9, 10, 3, 4, 5, 6, 7, 8], 12) := by decide
/-- FB7, the write: the ring end is tested before the right edge. -/
theorem test_write_ring_end : after (exec (.write [1, 2, 3, 4, 5]) (windowed .rgb565 4 3 2 2 2 1))
    (fun s => (bytesAt [20, 21, 22, 23] s, s.win.cursor)) = some ([5, 2, 3, 4], 21) := by decide
/-- CM10. -/
theorem test_setWindowWrite_invalid : after (exec (.setWindowWrite (.full ⟨3, 0, 2, 1⟩ [0x11, 0x22])) (ready .rgb565 4 3))
    (fun s => (s.fb.cells, s.win, s.out)) =
      some ([], (ready .rgb565 4 3).win, [.err (.invalidWindow 3 0 2 1)]) := by decide
/-- CM11. -/
theorem test_setWindowWrite_empty : after (exec (.setWindowWrite (.full ⟨1, 1, 1, 1⟩ [])) (ready .rgb565 4 3))
    (fun s => (s.fb.cells, s.win.front, s.win.cursor, s.out)) = some ([], 10, 10, [.notify .frame]) := by decide
/-- S1. -/
theorem test_drawPoint_rgb565 : after (exec (.drawPoint (.full ⟨3, 4, 0xF800⟩ [])) (ready .rgb565 10 5))
    (fun s => (s.fb.cells, s.win.cursor, s.out)) = some ([(86, 0x00), (87, 0xF8)], 0, [.notify .frame]) := by decide
/-- FB15, on a buffer of known bytes. -/
theorem test_drawPoint_mono : after (exec (.drawPoint (.full ⟨9, 1, 3⟩ []))
    { ready .mono 10 2 with fb := { cells := [(3, 0x85)], draw := 0 } }) (bytesAt [3]) = some [0xC5] := by decide
/-- CM13 and R189: each ignored row. -/
theorem test_ignored00 : exec (.ignored00 [1, 2]) fb1 = .next fb1 := rfl
theorem test_ignored06to07 : exec (.ignored06to07 0 [1, 2, 3]) fb1 = .next fb1 := rfl
theorem test_ignored08to0F : exec (.ignored08to0F 7 [1]) fb1 = .next fb1 := rfl
theorem test_ignored10to1F : exec (.ignored10to1F 0 []) fb1 = .next fb1 := rfl
theorem test_ignored20to3F : exec (.ignored20to3F 31 []) fb1 = .next fb1 := rfl
theorem test_ignored40to7F : exec (.ignored40to7F 1 [1]) fb1 = .next fb1 := rfl
theorem test_ignored80toFF : exec (.ignored80toFF 127 []) fb1 = .next fb1 := rfl
/-- EV1. -/
theorem test_evKeyboard : after (exec (.evKeyboard true false 0x41 0x12345 0x61) fb1) State.out =
    some [.tx [0xAA, 0x55, 0x00, 6, 0, 0, 0, 0x01, 0x41, 0x00, 0x45, 0x23, 0x61]] := by decide
/-- EV9. -/
theorem test_evKeyboard_masked : after (exec (.evKeyboard true false 0x41 0 0)
    { fb1 with ss := { fb1.ss with indev := 0x04 } }) State.out = some [] := by decide
/-- EV3. -/
theorem test_evTouch : after (exec (.evTouch 300 200 true) fb1) (fun s => (s.out, s.enc.touch)) =
    some ([.tx [0xAA, 0x55, 0x01, 5, 0, 0, 0, 0x2C, 0x01, 0xC8, 0x00, 0x01]], { lastT := some 0, lastBtn := some 1 }) := by
  decide
/-- EV14: the window is measured modulo 2^32. -/
theorem test_evMouse_modulo : after (exec (.evMouse 5 5 0 0) { fb1 with
    now := 4, enc := { fb1.enc with mouse := { lastT := some 0xFFFFFFF0, lastBtn := some 0 } } })
    (fun s => (s.out, s.enc.mouse.lastT)) =
      some ([.tx [0xAA, 0x55, 0x02, 6, 0, 0, 0, 5, 0, 5, 0, 0, 0]], some 4) := by decide
/-- EV12: 19 milliseconds after the last one sent, a mouse event is dropped. -/
theorem test_evMouse_dropped : after (exec (.evMouse 2 2 0 0) { fb1 with
    now := 19, enc := { fb1.enc with mouse := { lastT := some 0, lastBtn := some 0 } } }) State.out = some [] := by decide
/-- EV6. -/
theorem test_evButton : after (exec (.evButton 2 true) fb1) State.out =
    some [.tx [0xAA, 0x55, 0x03, 2, 0, 0, 0, 2, 1]] := by decide
/-- EV7: delta -3. -/
theorem test_evEncoder : after (exec (.evEncoder (i8Of (-3)) false) fb1) State.out =
    some [.tx [0xAA, 0x55, 0x04, 2, 0, 0, 0, 0xFD, 0]] := by decide
/-- EV16, the Tick at 1000. -/
theorem test_initRequest_due : after (exec .initRequest { State.reset with
    now := 1000, enc := { State.reset.enc with ireqStart := some 0 } }) (fun s => (s.out, s.enc.ireqStart)) =
      some ([.tx [0xAA, 0x55, 0xFF, 0, 0, 0, 0]], some 1000) := by decide
/-- EV16, the Tick at 1999. -/
theorem test_initRequest_early : after (exec .initRequest { State.reset with
    now := 1999, enc := { State.reset.enc with ireqStart := some 1000 } }) (fun s => (s.out, s.enc.ireqStart)) =
      some ([], some 1000) := by decide

/-! ## One step of the Reassembler -/

/-- An engine that has received `q` in a state of the Reassembler and is offered one byte. -/
def receiving (st : RxState) (q : List Byte) (t : Byte) (len : U32) (b : Byte) : State :=
  { fb1 with ra := { state := st, q := q, t := t, len := len }, inbox := [.rxByte b] }

/-- RA6, step 7. -/
theorem test_rx_length : after (step (receiving .readHeader [0xAA, 0x55, 3, 1, 0x10, 0] 0 0 0)) (fun s => (s.ra, s.out)) =
    some ({ state := .seekSync, q := [], t := 0, len := 0 }, [.err (.length 4097), .err (.syncDiscard 5)]) := by decide
/-- RA9, step 7: the rescan finds the inner marker. -/
theorem test_rx_rescan : after (step (receiving .readHeader [0xAA, 0x55, 3, 6, 0xAA, 0x55] 0 0 3)) (fun s => (s.ra, s.out)) =
    some ({ state := .readHeader, q := [0xAA, 0x55, 3], t := 0, len := 0 },
      [.err (.length 55945734), .err (.syncDiscard 2)]) := by decide
/-- RA4, step 2. -/
theorem test_rx_kept : after (step (receiving .seekSync [0xAA] 0 0 0xAA)) (fun s => (s.ra.q, s.out)) =
    some ([0xAA], [.err (.syncDiscard 1)]) := by decide
/-- S3 and FB9: the 7th byte runs an empty write. -/
theorem test_rx_empty_frame : after (step (receiving .readHeader [0xAA, 0x55, 3, 0, 0, 0] 0 0 0)) (fun s => (s.ra.q, s.out)) =
    some ([], [.frame 3 [], .notify .frame]) := by decide
/-- S9, the last byte. -/
theorem test_rx_shortfall : after (step (receiving .readPayload [0xAA, 0x55, 2, 7, 0, 0, 0, 1, 0, 2, 0, 3, 0] 2 7 4))
    (fun s => (s.win, s.out)) =
      some (fb1.win, [.frame 2 [1, 0, 2, 0, 3, 0, 4], .err (.bufferShortfall 2 7)]) := by decide
/-- A table word is the first instruction after reset. -/
theorem test_withFetchWord : after (step (State.reset.withFetchWord 24 0xAA5501)) State.out =
    some [.frame 1 [], .err (.bufferShortfall 1 0)] := by decide

/-! ## The hypotheses of the statements can be met -/

theorem test_config_ok : ConfigOk Config.default :=
  ⟨by decide, by decide, by decide, by decide, by decide, by decide, by decide⟩

theorem test_fb1_window : WindowOk fb1 :=
  ⟨by decide, by decide, by decide, by decide, by decide, by decide, 0, 0, by decide, by decide, by decide⟩

/-- An engine between two bytes of a payload, with two bytes written and a mouse event sent. -/
def busy : State :=
  { fb1 with
    fb := { cells := [(10, 1), (11, 2)], draw := 0 }
    ra := { state := .readPayload, q := [0xAA, 0x55, 3, 2, 0, 0, 0, 0x11], t := 3, len := 2 }
    enc := { fb1.enc with mouse := { lastT := some 5, lastBtn := some 0 } }
    inbox := [.rxByte 0x22] }

theorem test_meets_Inv : Inv busy :=
  ⟨test_config_ok, ⟨by decide, by decide, by decide⟩,
    ⟨by decide, by decide, by decide, by decide, by decide, by decide, 0, 0, by decide, by decide, by decide⟩,
    ⟨by decide, by decide, by decide, by decide, by decide, by decide⟩, ⟨by decide, by decide⟩,
    ⟨by decide, by decide, by decide⟩⟩

theorem test_meets_StepKeepsTheInvariant : Inv busy ∧ ∃ t, step busy = .next t ∧ t.fb ≠ busy.fb ∧ t.out ≠ [] :=
  ⟨test_meets_Inv, _, rfl, by decide, by decide⟩

theorem test_meets_NoStepStops : Inv busy := test_meets_Inv

/-- 00_scope R12 by hand: the least n with P_MAX_FB_BYTES < 2^n, on both sides of a power of two. -/
theorem test_addrBits : addrBits Config.default = 17 ∧ addrBits { Config.default with maxFbBytes := 65535 } = 16 ∧
    addrBits { Config.default with maxFbBytes := 1 } = 1 := by decide

theorem test_meets_OffsetsFitTheirRegisters : Inv busy ∧ busy.win.cursor = 10 := ⟨test_meets_Inv, by decide⟩

theorem test_meets_EveryRunGoesOn : ConfigOk Config.default := test_config_ok

theorem test_meets_ResetMeetsTheInvariant : ConfigOk Config.default := test_config_ok

theorem test_meets_OutputsComeInOrder : Inv busy ∧ ∃ t, step busy = .next t ∧ t.out ≠ [] :=
  ⟨test_meets_Inv, _, rfl, by decide⟩

theorem test_meets_InboundFrameDecodesBack :
    (Instr.init (.short [1, 2, 3, 4, 5, 6])).direction = .inbound ∧
      (Instr.init (.short [1, 2, 3, 4, 5, 6])).wellFormed = true := by decide

theorem test_meets_OutboundFrameDecodesBack : (Instr.evKeyboard true true 0xFFFF 0xFFFFFFFF 0).direction = .outbound := by
  decide

theorem test_meets_InboundBytesEncodeBack :
    decode .inbound [0xAA, 0x55, 0x80, 1, 0, 0, 0, 9, 7] = .ok (.ignored80toFF 0 [9], [7]) := by decide

/-- Both forms: a frame of 7 bytes, and one with a payload. -/
theorem test_meets_StepRunsDecodedFrame :
    ((Instr.write []).payloadSize ≤ fb1.cfg.maxPayload.toNat ∧
      encode (.write []) = [0xAA, 0x55, 3, 0, 0, 0] ++ [0] ∧
      (receiving .readHeader [0xAA, 0x55, 3, 0, 0, 0] 0 0 0).inbox = [.rxByte 0]) ∧
    ((Instr.write [1, 2]).wellFormed = true ∧
      encode (.write [1, 2]) = [0xAA, 0x55, 3, 2, 0, 0, 0, 1] ++ [2] ∧
      (receiving .readPayload [0xAA, 0x55, 3, 2, 0, 0, 0, 1] 3 2 2).ra.t = typeByte (.write [1, 2]) ∧
      (receiving .readPayload [0xAA, 0x55, 3, 2, 0, 0, 0, 1] 3 2 2).ra.len.toNat = (Instr.write [1, 2]).payloadSize) := by
  decide

theorem test_meets_StepRunsTimeAndEvents :
    ({ fb1 with inbox := [.tick 7] } : State).inbox = [.tick 7] ∧
      ({ fb1 with inbox := [.input (.button 0 true) 7] } : State).inbox = [.input (.button 0 true) 7] ∧
      fb1.inbox = [] := by decide

/-- A marker at offset 1; no marker and a final 0xAA; no marker and none kept. -/
theorem test_meets_SeekFollowsItsRule :
    (([0xAA, 0xAA, 0x55] : List Byte)[1]? = some 0xAA ∧ ([0xAA, 0xAA, 0x55] : List Byte)[2]? = some 0x55 ∧
      ∀ j : Nat, j < 1 → ¬ (([0xAA, 0xAA, 0x55] : List Byte)[j]? = some 0xAA ∧
        ([0xAA, 0xAA, 0x55] : List Byte)[j + 1]? = some 0x55)) ∧
    (act 8 { state := .seekSync, q := [0x55, 0xAA], t := 0, len := 0 }).ra.q = [0xAA] ∧
    (act 8 { state := .seekSync, q := [0x55, 0x13], t := 0, len := 0 }).ra.q = [] := by decide

/-- At the boundaries: 6 and 7 bytes, length 9 over and 8 at the limit of 8, length 0. -/
theorem test_meets_HeaderFollowsItsRules :
    (act 8 { state := .readHeader, q := [0xAA, 0x55, 3, 9, 0, 0], t := 0, len := 0 }).waits = true ∧
      (act 8 { state := .readHeader, q := [0xAA, 0x55, 3, 9, 0, 0, 0], t := 0, len := 0 }).report = some (.length 9) ∧
      (act 8 { state := .readHeader, q := [0xAA, 0x55, 3, 8, 0, 0, 0], t := 0, len := 0 }).ra.len = 8 ∧
      (act 8 { state := .readHeader, q := [0xAA, 0x55, 3, 0, 0, 0, 0], t := 0, len := 0 }).emitted = some (3, []) := by
  decide

/-- At the boundary: one byte short, and complete. -/
theorem test_meets_PayloadFollowsItsRule :
    (act 8 { state := .readPayload, q := [0xAA, 0x55, 3, 2, 0, 0, 0, 1], t := 3, len := 2 }).waits = true ∧
      (act 8 { state := .readPayload, q := [0xAA, 0x55, 3, 2, 0, 0, 0, 1, 2], t := 3, len := 2 }).emitted =
        some (3, [1, 2]) := by decide

theorem test_meets_FrameAfterGarbageRunsOnce :
    fb1.ra.state = .seekSync ∧ fb1.ra.q = [] ∧ ([0xAA, 0x55] : List Byte).length ≤ fb1.cfg.maxPayload.toNat ∧
      ∀ j : Nat, j < 2 → ¬ (([0x55, 0xAA] : List Byte)[j]? = some 0xAA ∧ ([0x55, 0xAA] : List Byte)[j + 1]? = some 0x55) := by
  decide

/-- Each state the Reassembler waits in. -/
theorem test_meets_ChunkingDoesNotShow :
    ReassemblerOk 8 { state := .seekSync, q := [0xAA], t := 0, len := 0 } ∧
      ReassemblerOk 8 { state := .readHeader, q := [0xAA, 0x55, 3, 9, 0, 0], t := 0, len := 0 } ∧
      ReassemblerOk 8 { state := .readPayload, q := [0xAA, 0x55, 3, 8, 0, 0, 0], t := 3, len := 8 } :=
  ⟨.inr rfl, ⟨by decide, by decide⟩, ⟨by decide, by decide, by decide, by decide, by decide, by decide⟩⟩

theorem test_meets_InitDrawsFreshBytes :
    ∃ t, exec (.init (.full ⟨4, 3, 0, 0, 0⟩ [])) busy = .next t ∧ t.fb ≠ busy.fb := ⟨_, rfl, by decide⟩

/-- RGB888 4x3, the corner rectangle (2, 1, 2, 2): x + w and y + h at the screen's edges. -/
theorem test_meets_ByteWindowHasSourceFormulas :
    (ready .rgb888 4 3).ss.enabled = true ∧ formatClass (ready .rgb888 4 3).ss.fmt = .bytes 3 ∧
      (2 : U16).toNat + (2 : U16).toNat ≤ (ready .rgb888 4 3).ss.width.toNat ∧
      (1 : U16).toNat + (2 : U16).toNat ≤ (ready .rgb888 4 3).ss.height.toNat := by decide

theorem test_meets_WriteFollowsItsRules : WindowOk fb1 := test_fb1_window

/-- The screen of FB20 under HAVOC. -/
def havocScreen : State :=
  { ready .mono 16 2 with cfg := { Config.default with monoPartial := .havoc } }

theorem test_meets_HavocDrawsFreshBytes :
    WindowOk havocScreen ∧ (havocScreen.ss.enabled = true ∧ isPacked havocScreen.ss.fmt = true ∧
      ([0xAA] : List Byte).length % havocScreen.winRow ≠ 0 ∧ havocScreen.cfg.monoPartial = .havoc) ∧
      (∃ t, exec (.write [0xAA]) havocScreen = .next t) ∧ InWset havocScreen 3 :=
  ⟨⟨by decide, by decide, by decide, by decide, by decide, by decide, 0, 0, by decide, by decide, by decide⟩, by decide,
    ⟨_, rfl⟩, 1, 1, by decide, by decide, by decide⟩

theorem test_meets_WindowOrderIsABijection :
    WindowOk fb1 ∧ 7 < fb1.capacity ∧ fb1.addr 7 = 21 ∧ InWset fb1 21 :=
  ⟨test_fb1_window, by decide, by decide, 1, 3, by decide, by decide, by decide⟩

/-- Both instructions, and a byte outside the window. -/
theorem test_meets_WritesStayInTheWindow :
    WindowOk fb1 ∧ (∃ t, exec (.write [1, 2, 3]) fb1 = .next t ∧ ¬ InWset t 0) ∧
      ∃ t, exec (.setWindowWrite (.full ⟨0, 1, 1, 1⟩ [9])) fb1 = .next t ∧ ¬ InWset t 0 := by
  refine ⟨test_fb1_window, ⟨_, rfl, ?_⟩, _, rfl, ?_⟩
  · rintro ⟨r, c, -, -, h⟩
    change 0 = 10 + _ + _ at h
    omega
  · rintro ⟨r, c, -, -, h⟩
    change 0 = 8 + _ + _ at h
    omega

theorem test_meets_RasterFillIsExact :
    (ready .rgb565 4 3).ss.enabled = true ∧ (ready .rgb565 4 3).ss.validRect 1 1 2 2 = true ∧
      ([1, 2, 3, 4, 5, 6, 7, 8] : List Byte).length = 2 * winRowOf (ready .rgb565 4 3).ss.fmt 2 := by decide

theorem test_meets_RingFillIsIdempotent :
    WindowOk fb1 ∧ fb1.ss.enabled = true ∧ ([1, 2, 3, 4, 5, 6, 7, 8] : List Byte).length = fb1.capacity :=
  ⟨test_fb1_window, by decide, by decide⟩

/-- The last pixel, and one past it. -/
theorem test_meets_DrawnPixelReadsBack :
    fb1.ss.enabled = true ∧ (3 : U16).toNat < fb1.ss.width.toNat ∧ (2 : U16).toNat < fb1.ss.height.toNat ∧
      ¬ (2 = (3 : U16).toNat ∧ 2 = (2 : U16).toNat) := by decide

/-- PF7: bit 5 of byte 1 is padding of MONO 10x2. -/
theorem test_meets_DrawPointKeepsPadding :
    (∃ t, exec (.drawPoint (.full ⟨9, 0, 1⟩ [])) (ready .mono 10 2) = .next t) ∧
      (ready .mono 10 2).paddingBit 1 5 = true ∧ (ready .mono 10 2).paddingBit 1 6 = false :=
  ⟨⟨_, rfl⟩, by decide, by decide⟩

theorem test_meets_PolarityOfPackedPixels :
    (ready .mono 10 2).ss.fmt = .mono ∧ (ready .monoInv 10 2).ss.fmt = .monoInv ∧
      9 < (ready .mono 10 2).ss.width.toNat ∧ 1 < (ready .monoInv 10 2).ss.height.toNat := by decide

/-- Type 0x00, types 0x06 and 0xFF. -/
theorem test_meets_IgnoredTypesDoNothing :
    ((0x00 : Byte).toNat = 0 ∧ 6 ≤ (0x06 : Byte).toNat ∧ 6 ≤ (0xFF : Byte).toNat) ∧
      ([1, 2] : List Byte).length ≤ fb1.cfg.maxPayload.toNat ∧ fb1.ra.state = .seekSync ∧ fb1.ra.q = [] := by decide

/-- A first event is sent, one 20 milliseconds after the last is sent, one 19 after is not. -/
theorem test_meets_TouchEventsThrottle :
    EncoderOk fb1.enc ∧ fb1.enc.touch.lastBtn = none ∧
      EncoderOk { fb1.enc with touch := { lastT := some 0, lastBtn := some 1 } } ∧
      fb1.cfg.throttleMs.toNat ≤ ((20 : U32).toNat + 2 ^ 32 - (0 : U32).toNat) % 2 ^ 32 ∧
      ¬ fb1.cfg.throttleMs.toNat ≤ ((19 : U32).toNat + 2 ^ 32 - (0 : U32).toNat) % 2 ^ 32 :=
  ⟨⟨rfl, rfl⟩, by decide, ⟨rfl, rfl⟩, by decide, by decide⟩

theorem test_meets_MouseEventsThrottle :
    EncoderOk busy.enc ∧ busy.enc.mouse.lastBtn = some 0 ∧ busy.enc.mouse.lastT = some 5 ∧
      busy.ss.indev.getLsbD busy.cfg.indevBit.mouse.val = true := ⟨⟨rfl, rfl⟩, by decide, by decide, by decide⟩

theorem test_meets_MouseSendsOncePerWindow :
    (∃ t, exec (.evMouse 1 1 0 0) fb1 = .next t ∧ t.out ≠ fb1.out) ∧
      ((19 : U32) - fb1.now).toNat < fb1.cfg.throttleMs.toNat ∧ (1 : Byte) ≠ 0 :=
  ⟨⟨_, rfl, by decide⟩, by decide, by decide⟩

theorem test_meets_OnlyTicksSendInitRequests :
    ∃ t, step { State.reset with inbox := [.tick 1000], enc := { State.reset.enc with ireqStart := some 0 } } = .next t ∧
      Output.tx [0xAA, 0x55, 0xFF, 0, 0, 0, 0] ∈ t.out ∧
      ([0xAA, 0x55, 0xFF, 0, 0, 0, 0] : List Byte)[2]? = some 0xFF := ⟨_, rfl, by decide, by decide⟩

/-- Each part of the state is written by some instruction. -/
theorem test_meets_OnlyTheNamedWritersWrite :
    (∃ t, exec (.init (.full ⟨4, 3, 0, 0, 0⟩ [])) busy = .next t ∧ t.ss ≠ busy.ss ∧ t.win ≠ busy.win ∧ t.fb ≠ busy.fb) ∧
      (∃ t, exec (.evTouch 1 1 true) busy = .next t ∧ t.enc.touch ≠ busy.enc.touch) ∧
      (∃ t, exec (.evMouse 1 1 0 1) busy = .next t ∧ t.enc.mouse ≠ busy.enc.mouse) ∧
      (∃ t, exec .initRequest State.reset = .next t ∧ t.enc.ireqStart ≠ State.reset.enc.ireqStart) :=
  ⟨⟨_, rfl, by decide, by decide, by decide⟩, ⟨_, rfl, by decide⟩, ⟨_, rfl, by decide⟩, _, rfl, by decide⟩

/-- One step of each kind. -/
theorem test_meets_PathsAreIndependent :
    (∃ t, step busy = .next t) ∧ (∃ t, step { busy with inbox := [.tick 9] } = .next t) ∧
      ∃ t, step { busy with inbox := [.input (.touch 1 2 true) 9] } = .next t := ⟨⟨_, rfl⟩, ⟨_, rfl⟩, _, rfl⟩

theorem test_meets_NothingDependsOnOutputs : ∃ t, exec (.write [7]) busy = .next t ∧ t.out ≠ busy.out :=
  ⟨_, rfl, by decide⟩

theorem test_meets_RotationIsNeverRead :
    (∀ p, Instr.write [7] ≠ .init p) ∧ ∃ t, exec (.write [7]) busy = .next t :=
  ⟨fun _ h => (by cases h), _, rfl⟩

theorem test_meets_StepKeepsParameters : ∃ t, step busy = .next t ∧ t.inbox = [] := ⟨_, rfl, by decide⟩

end Sys2Proof.Tests
end

section
/-! What an instruction reads and keeps beside the screen, the window and the pixel memory: no instruction reads the
outputs, the Reassembler or the offered transactions (00_scope R10, 10_state R57, R58). -/

namespace Sys2Proof.Machine

section Reseat

variable (o : List Output) (r : Reassembler) (ib : List Transaction)

theorem State.sendFrame_reseat (i : Instr) (s : State) :
    (s.reseat o r ib).sendFrame i = (s.sendFrame i).reseat o r ib :=
  State.output_reseat o r ib _ s

theorem State.rejectInit_reseat (e : EngineError) (s : State) :
    (s.reseat o r ib).rejectInit e = mapNext (State.reseat o r ib) (s.rejectInit e) := by
  simp [State.reseat, mapNext]

theorem State.acceptInit_reseat (fmt : Format) (a : InitArgs) (s : State) :
    (s.reseat o r ib).acceptInit fmt a = mapNext (State.reseat o r ib) (s.acceptInit fmt a) := by
  simp [State.reseat, mapNext]

theorem State.initScreen_reseat (a : InitArgs) (s : State) :
    (s.reseat o r ib).initScreen a = mapNext (State.reseat o r ib) (s.initScreen a) := by
  have hcfg : (s.reseat o r ib).cfg = s.cfg := rfl
  unfold State.initScreen
  rw [hcfg]
  cases formatOfCode s.cfg a.fmtCode with
  | none => exact State.rejectInit_reseat o r ib _ s
  | some fmt =>
    dsimp only
    split_ifs
    · exact State.rejectInit_reseat o r ib _ s
    · exact State.rejectInit_reseat o r ib _ s
    · exact State.rejectInit_reseat o r ib _ s
    · exact State.acceptInit_reseat o r ib fmt a s

/-- A write and its notification. -/
theorem writeData_notify_reseat (data : List Byte) (s : State) :
    andThen ((s.reseat o r ib).writeData data) (fun u => .next (u.notify .frame)) =
      mapNext (State.reseat o r ib) (andThen (s.writeData data) fun u => .next (u.notify .frame)) := by
  rw [State.writeData_reseat]
  exact andThen_reseat _ _ _ _ _ _ fun u => congrArg Host.Outcome.next (State.output_reseat o r ib _ u)

theorem State.storePixel_reseat (x y : Nat) (color : U32) (s : State) :
    (s.reseat o r ib).storePixel x y color = mapNext (State.reseat o r ib) (s.storePixel x y color) := by
  have hss : (s.reseat o r ib).ss = s.ss := rfl
  unfold State.storePixel
  rw [hss]
  cases formatClass s.ss.fmt with
  | bytes n => exact State.storeBytes_reseat o r ib _ _ s
  | packed => exact State.storeByte_reseat o r ib _ _ s

theorem drawPointThen_reseat (p : PointArgs) (k : State → Result) (s : State)
    (h : ∀ s, k (s.reseat o r ib) = mapNext (State.reseat o r ib) (k s)) :
    drawPointThen p (s.reseat o r ib) k = mapNext (State.reseat o r ib) (drawPointThen p s k) := by
  have hss : (s.reseat o r ib).ss = s.ss := rfl
  unfold drawPointThen
  rw [hss]
  split
  · exact congrArg Host.Outcome.next (State.output_reseat o r ib _ s)
  · rw [State.storePixel_reseat]
    exact andThen_reseat _ _ _ _ _ _ h

theorem execInit_reseat (p : Payload InitArgs) (s : State) :
    execInit p (s.reseat o r ib) = mapNext (State.reseat o r ib) (execInit p s) := by
  unfold execInit
  exact withFixedPart_reseat o r ib _ p _ s fun a _ s => State.initScreen_reseat o r ib a s

theorem execSetWindow_reseat (p : Payload RectArgs) (s : State) :
    execSetWindow p (s.reseat o r ib) = mapNext (State.reseat o r ib) (execSetWindow p s) := by
  unfold execSetWindow
  refine whenEnabled_reseat o r ib _ s fun s => ?_
  refine withFixedPart_reseat o r ib _ p _ s fun q _ s => ?_
  exact setWindowThen_reseat o r ib q _ s fun _ => rfl

theorem execWrite_reseat (data : List Byte) (s : State) :
    execWrite data (s.reseat o r ib) = mapNext (State.reseat o r ib) (execWrite data s) := by
  unfold execWrite
  refine whenEnabled_reseat o r ib _ s fun s => ?_
  exact writeData_notify_reseat o r ib data s

theorem execSetWindowWrite_reseat (p : Payload RectArgs) (s : State) :
    execSetWindowWrite p (s.reseat o r ib) = mapNext (State.reseat o r ib) (execSetWindowWrite p s) := by
  unfold execSetWindowWrite
  refine whenEnabled_reseat o r ib _ s fun s => ?_
  refine withFixedPart_reseat o r ib _ p _ s fun q data s => ?_
  refine setWindowThen_reseat o r ib q _ s fun s => ?_
  exact writeData_notify_reseat o r ib data s

theorem execDrawPoint_reseat (p : Payload PointArgs) (s : State) :
    execDrawPoint p (s.reseat o r ib) = mapNext (State.reseat o r ib) (execDrawPoint p s) := by
  unfold execDrawPoint
  refine whenEnabled_reseat o r ib _ s fun s => ?_
  refine withFixedPart_reseat o r ib _ p _ s fun a _ s => ?_
  refine drawPointThen_reseat o r ib a _ s fun s => ?_
  exact congrArg Host.Outcome.next (State.output_reseat o r ib (.notify .frame) s)

theorem execEvTouch_reseat (x y : U16) (down : Bool) (s : State) :
    execEvTouch x y down (s.reseat o r ib) = mapNext (State.reseat o r ib) (execEvTouch x y down s) := by
  unfold execEvTouch
  show (if (s.gate .touch && s.throttleSends s.enc.touch (boolByte down) false) = true then _ else _) = _
  split
  · exact congrArg Host.Outcome.next (State.sendFrame_reseat o r ib _
      { s with enc := { s.enc with touch := s.throttleMark (boolByte down) } })
  · rfl

theorem execEvMouse_reseat (x y : U16) (wheel buttons : Byte) (s : State) :
    execEvMouse x y wheel buttons (s.reseat o r ib) =
      mapNext (State.reseat o r ib) (execEvMouse x y wheel buttons s) := by
  unfold execEvMouse
  show (if (s.gate .mouse && s.throttleSends s.enc.mouse buttons (decide (wheel ≠ 0))) = true then _ else _) = _
  split
  · exact congrArg Host.Outcome.next (State.sendFrame_reseat o r ib _
      { s with enc := { s.enc with mouse := s.throttleMark buttons } })
  · rfl

theorem execInitRequest_reseat (s : State) :
    execInitRequest (s.reseat o r ib) = mapNext (State.reseat o r ib) (execInitRequest s) := by
  have hss : (s.reseat o r ib).ss = s.ss := rfl
  have henc : (s.reseat o r ib).enc = s.enc := rfl
  unfold execInitRequest
  rw [hss, henc]
  split
  · rfl
  · cases s.enc.ireqStart with
    | none => rfl
    | some t0 =>
      show (if s.cfg.initReqPeriodMs.toNat ≤ s.elapsed t0 then _ else _) = _
      dsimp only
      split
      · exact congrArg (fun u : State => Host.Outcome.next (u.setIreqStart (some s.now)))
          (State.sendFrame_reseat o r ib _ s)
      · rfl

/-- No instruction reads the outputs before it, the Reassembler or the offered transactions (00_scope R10, 10_state R57,
R58). -/
theorem exec_reseat (i : Instr) (s : State) :
    exec i (s.reseat o r ib) = mapNext (State.reseat o r ib) (exec i s) := by
  cases i with
  | init p => exact execInit_reseat o r ib p s
  | setWindow p => exact execSetWindow_reseat o r ib p s
  | write data => exact execWrite_reseat o r ib data s
  | setWindowWrite p => exact execSetWindowWrite_reseat o r ib p s
  | drawPoint p => exact execDrawPoint_reseat o r ib p s
  | ignored00 _ | ignored06to07 _ _ | ignored08to0F _ _ | ignored10to1F _ _ | ignored20to3F _ _ | ignored40to7F _ _
  | ignored80toFF _ _ => rfl
  | evKeyboard _ _ _ _ _ | evButton _ _ | evEncoder _ _ => exact sendGated_reseat o r ib _ _ s
  | evTouch x y down => exact execEvTouch_reseat o r ib x y down s
  | evMouse x y wheel buttons => exact execEvMouse_reseat o r ib x y wheel buttons s
  | initRequest => exact execInitRequest_reseat o r ib s

end Reseat

theorem mapNext_eq_next {f : State → State} {x : Result} {t : State} :
    mapNext f x = .next t ↔ ∃ u, x = .next u ∧ f u = t := by
  cases x <;> simp [mapNext]

/-- A state with other outputs is the state without outputs, the others put before. -/
theorem State.startStep_reseat (s : State) (o : List Output) :
    s.startStep.reseat o s.ra s.inbox = { s with out := o } := by
  simp [State.startStep, State.reseat]

/-- What an instruction does with any outputs before it is what it does with none, the outputs put before. -/
theorem exec_with_out (i : Instr) (s : State) (o : List Output) :
    exec i { s with out := o } = mapNext (State.reseat o s.ra s.inbox) (exec i s.startStep) := by
  rw [← State.startStep_reseat, exec_reseat]

/-- An instruction keeps the Reassembler and the offered transactions, and adds its outputs after those before it. -/
theorem exec_eq_next {i : Instr} {s t : State} (h : exec i s = .next t) :
    ∃ u, exec i s.startStep = .next u ∧ t = u.reseat s.out s.ra s.inbox := by
  obtain ⟨u, hu, ht⟩ := mapNext_eq_next.1 ((exec_with_out i s s.out).symm.trans h)
  exact ⟨u, hu, ht.symm⟩

theorem exec_ra {i : Instr} {s t : State} (h : exec i s = .next t) : t.ra = s.ra := by
  obtain ⟨u, -, rfl⟩ := exec_eq_next h
  rfl

/-- Settles O41: an instruction run without outputs gives the added ones, and the outputs before it are put in front. -/
theorem nothingDependsOnOutputs : Obligations.NothingDependsOnOutputs := by
  intro i s t other h
  obtain ⟨u, hu, rfl⟩ := exec_eq_next h
  refine ⟨u.out, rfl, ?_⟩
  rw [exec_with_out, hu]
  rfl

end Sys2Proof.Machine
end

section
/-! The byte-offset registers of a window in order (00_scope R12, 10_state R31, 41_framebuffer R130). -/

namespace Sys2Proof.Machine

/-- Settles O49: the window's rows lie inside the buffer, and each of them is at least one byte long. -/
theorem offsetsFitTheirRegisters : Obligations.OffsetsFitTheirRegisters := by
  intro s h
  have g := h.window.geometry
  have hrow := g.rowPos
  have hend := g.inside
  have hstride : s.stride ≤ s.fbLen := Nat.le_mul_of_pos_right _ h.screen.height
  refine ⟨by omega, ?_, ?_, ?_, h.screen.fits, fun n => (addrBits_le_iff s.cfg n).symm⟩
  · have hring : s.fbLen - s.win.back = _ := g.ringEnd
    omega
  · have := g.wrap
    have := g.rowLe
    omega
  · obtain ⟨hlt, heq⟩ := g.cursor_position h.window.cursor
    exact heq ▸ g.addr_lt_fbLen hlt

end Sys2Proof.Machine
end

section
/-! The inbound map undoes the encoding (30_encoding R85 to R90): the type byte selects the row, the payload its fields. -/

namespace Sys2Proof

theorem parseInit_initBytes {p : Payload InitArgs} (h : p.fits 7 = true) : parseInit (initBytes p) = p := by
  cases p with
  | short b => exact parseInit_short (of_decide_eq_true h)
  | full a rest => simp [initBytes, leBytes_two, parseInit]

theorem parseRect_rectBytes {p : Payload RectArgs} (h : p.fits 8 = true) : parseRect (rectBytes p) = p := by
  cases p with
  | short b => exact parseRect_short (of_decide_eq_true h)
  | full a rest => simp [rectBytes, leBytes_two, parseRect]

theorem parsePoint_pointBytes {p : Payload PointArgs} (h : p.fits 8 = true) : parsePoint (pointBytes p) = p := by
  cases p with
  | short b => exact parsePoint_short (of_decide_eq_true h)
  | full a rest => simp [pointBytes, leBytes_two, leBytes_four, parsePoint]

/-- The inbound command of the same row, its operands read from the payload `p` (30_encoding R85). -/
def Instr.withPayload (p : List Byte) : Instr → Instr
  | .init _ => .init (parseInit p)
  | .setWindow _ => .setWindow (parseRect p)
  | .write _ => .write p
  | .setWindowWrite _ => .setWindowWrite (parseRect p)
  | .drawPoint _ => .drawPoint (parsePoint p)
  | .ignored00 _ => .ignored00 p
  | .ignored06to07 low _ => .ignored06to07 low p
  | .ignored08to0F low _ => .ignored08to0F low p
  | .ignored10to1F low _ => .ignored10to1F low p
  | .ignored20to3F low _ => .ignored20to3F low p
  | .ignored40to7F low _ => .ignored40to7F low p
  | .ignored80toFF low _ => .ignored80toFF low p
  | i => i

/-- The type byte alone selects the row, which reads the payload. -/
theorem decodeInbound_eq_withPayload (t : Byte) (p : List Byte) :
    decodeInbound t p = (decodeInbound t []).withPayload p := by
  simp only [decodeInbound, apply_ite (Instr.withPayload p)]
  rfl

/-- A well-formed inbound instruction reads back from its own payload. -/
theorem withPayload_payloadBytes {i : Instr} (hd : i.direction = .inbound) (hf : i.payloadFits = true) :
    i.withPayload (payloadBytes i) = i := by
  cases i with
  | init p => exact congrArg Instr.init (parseInit_initBytes hf)
  | setWindow p => exact congrArg Instr.setWindow (parseRect_rectBytes hf)
  | setWindowWrite p => exact congrArg Instr.setWindowWrite (parseRect_rectBytes hf)
  | drawPoint p => exact congrArg Instr.drawPoint (parsePoint_pointBytes hf)
  | write _ | ignored00 _ | ignored06to07 _ _ | ignored08to0F _ _ | ignored10to1F _ _ | ignored20to3F _ _
  | ignored40to7F _ _ | ignored80toFF _ _ => rfl
  | evKeyboard _ _ _ _ _ | evTouch _ _ _ | evMouse _ _ _ _ | evButton _ _ | evEncoder _ _ | initRequest =>
    simp [Instr.direction] at hd

/-- The type byte of an inbound instruction selects its row and gives back the low bits of the row's range. -/
theorem decodeInbound_typeByte {i : Instr} (hd : i.direction = .inbound) :
    decodeInbound (typeByte i) [] = i.withPayload [] := by
  cases i with
  | init _ | setWindow _ | write _ | setWindowWrite _ | drawPoint _ | ignored00 _ => rfl
  | ignored06to07 low _ =>
    exact (by decide : ∀ l : BitVec 1, decodeInbound (0x06 ||| l.setWidth 8) [] = .ignored06to07 l []) low
  | ignored08to0F low _ =>
    exact (by decide : ∀ l : BitVec 3, decodeInbound (0x08 ||| l.setWidth 8) [] = .ignored08to0F l []) low
  | ignored10to1F low _ =>
    exact (by decide : ∀ l : BitVec 4, decodeInbound (0x10 ||| l.setWidth 8) [] = .ignored10to1F l []) low
  | ignored20to3F low _ =>
    exact (by decide : ∀ l : BitVec 5, decodeInbound (0x20 ||| l.setWidth 8) [] = .ignored20to3F l []) low
  | ignored40to7F low _ =>
    exact (by decide : ∀ l : BitVec 6, decodeInbound (0x40 ||| l.setWidth 8) [] = .ignored40to7F l []) low
  | ignored80toFF low _ =>
    exact (by decide : ∀ l : BitVec 7, decodeInbound (0x80 ||| l.setWidth 8) [] = .ignored80toFF l []) low
  | evKeyboard _ _ _ _ _ | evTouch _ _ _ | evMouse _ _ _ _ | evButton _ _ | evEncoder _ _ | initRequest =>
    simp [Instr.direction] at hd

theorem Instr.withPayload_withPayload (i : Instr) (p q : List Byte) :
    (i.withPayload p).withPayload q = i.withPayload q := by
  cases i <;> rfl

theorem Instr.wellFormed_iff (i : Instr) :
    i.wellFormed = true ↔ i.payloadFits = true ∧ i.payloadSize < 2 ^ 32 := by
  simp [Instr.wellFormed]

/-- The inbound map undoes the encoding of a well-formed inbound instruction. -/
theorem decodeInbound_typeByte_payloadBytes {i : Instr} (hd : i.direction = .inbound) (hf : i.payloadFits = true) :
    decodeInbound (typeByte i) (payloadBytes i) = i := by
  rw [decodeInbound_eq_withPayload, decodeInbound_typeByte hd, Instr.withPayload_withPayload,
    withPayload_payloadBytes hd hf]

end Sys2Proof
end

section
/-! The last byte of a frame: the Reassembler's action on a whole frame (40_reassembler R114, R116), and the step that
receives that byte (00_scope R5, 43_commands R180). -/

namespace Sys2Proof.Machine

theorem headerLen_frameBytes (t : Byte) {p : List Byte} (h : p.length < 2 ^ 32) :
    headerLen (frameBytes t p) = p.length := by
  have htake : ((frameBytes t p).drop 3).take 4 = leBytes 4 p.length := rfl
  rw [headerLen, htake, leNat_leBytes]
  exact Nat.mod_eq_of_lt h

theorem drop_frameBytes (t : Byte) (p : List Byte) : (frameBytes t p).drop 7 = p := rfl

/-- What an action does that consumes all of `Q` as the frame `(t, p)`. -/
def consumed (ra : Reassembler) (t : Byte) (p : List Byte) : ActionResult :=
  { ra := { ra with state := .seekSync, q := [] }, report := none, emitted := some (t, p), waits := false }

/-- A header of length 0 is a whole frame (40_reassembler R114). -/
theorem act_readHeader_frame (mp : U32) {ra : Reassembler} {t : Byte} (hs : ra.state = .readHeader)
    (hq : ra.q = frameBytes t []) : act mp ra = consumed ra t [] := by
  have hlen : headerLen (frameBytes t []) = 0 := headerLen_frameBytes t (by simp)
  simp only [act, hs, actHeader, hq, hlen]
  rfl

/-- A complete payload of the latched type and length (40_reassembler R116). -/
theorem act_readPayload_frame (mp : U32) {ra : Reassembler} {p : List Byte} (hs : ra.state = .readPayload)
    (hl : ra.len.toNat = p.length) (hq : ra.q = frameBytes ra.t p) : act mp ra = consumed ra ra.t p := by
  have hn : ¬ ra.q.length < 7 + ra.len.toNat := by rw [hq, frameBytes_length]; omega
  have hdrop : ra.q.drop (7 + ra.len.toNat) = [] := List.drop_eq_nil_of_le (by rw [hq, frameBytes_length]; omega)
  have htake : (ra.q.drop 7).take ra.len.toNat = p := by rw [hq, drop_frameBytes, hl, List.take_length]
  simp only [act, hs, actPayload, if_neg hn, hdrop, htake]
  rfl

/-- A Reassembler in SeekSync with nothing received waits, and changes nothing. -/
theorem runActions_idle (n : Nat) {s : State} (hs : s.ra.state = .seekSync) (hq : s.ra.q = []) :
    runActions n s = .next s := by
  cases n with
  | zero => rfl
  | succ n =>
    have hact : act s.cfg.maxPayload s.ra = { ra := s.ra, report := none, emitted := none, waits := true } := by
      obtain ⟨cfg, ss, win, fb, ⟨st, q, t, len⟩, enc, now, inbox, out, draws⟩ := s
      obtain rfl : st = .seekSync := hs
      obtain rfl : q = [] := hq
      rfl
    rw [runActions, hact]
    rfl

/-- The loop whose first action consumes all of `Q` as one frame is that frame's command. -/
theorem runActions_consumed (n : Nat) {s : State} {t : Byte} {p : List Byte}
    (h : act s.cfg.maxPayload s.ra = consumed s.ra t p) :
    runActions (n + 1) s = (s.afterAction (consumed s.ra t p)).emitFrame t p := by
  rw [runActions, h]
  show andThen ((s.afterAction (consumed s.ra t p)).emitFrame t p) (runActions n) = _
  cases hx : (s.afterAction (consumed s.ra t p)).emitFrame t p with
  | next u =>
    have hra := exec_ra hx
    exact runActions_idle n (by rw [hra]; rfl) (by rw [hra]; rfl)
  | fault f => rfl
  | refused f => rfl

/-- The Reassembler that has received all bytes of an instruction's frame consumes it. -/
theorem act_encode (mp : U32) {ra : Reassembler} {i : Instr} (hq : ra.q = encode i)
    (hheader : i.payloadSize = 0 → ra.state = .readHeader)
    (hpayload : 0 < i.payloadSize → ra.state = .readPayload ∧ ra.t = typeByte i ∧ ra.len.toNat = i.payloadSize) :
    act mp ra = consumed ra (typeByte i) (payloadBytes i) := by
  have hsize := payloadBytes_length i
  rcases Nat.eq_zero_or_pos i.payloadSize with h0 | hpos
  · have hnil : payloadBytes i = [] := List.length_eq_zero_iff.1 (hsize.trans h0)
    rw [hnil]
    exact act_readHeader_frame mp (hheader h0) (by rw [hq, encode, hnil])
  · obtain ⟨hs, ht, hl⟩ := hpayload hpos
    rw [← ht]
    exact act_readPayload_frame mp hs (hl.trans hsize.symm) (by rw [hq, encode, ht])

/-- Settles O7: the action on the last byte consumes the frame, and the command that the inbound map reads from it is the
instruction itself. -/
theorem stepRunsDecodedFrame : Obligations.StepRunsDecodedFrame := by
  intro s i bytes last rest hd hwf _ henc hin hq hheader hpayload
  have hlen : bytes.length + 1 = 7 + i.payloadSize := by
    have h := congrArg List.length henc
    rw [encode, frameBytes_length, payloadBytes_length, List.length_append] at h
    exact h.symm
  have hact := act_encode s.cfg.maxPayload (ra := { s.ra with q := s.ra.q ++ [last] }) (i := i)
    (by rw [hq, henc]) (fun h0 => hheader (by omega)) (fun hpos => hpayload (by omega))
  have hdec := decodeInbound_typeByte_payloadBytes hd ((Instr.wellFormed_iff i).1 hwf).1
  have hrun := runActions_consumed (3 * (s.ra.q ++ [last]).length + 2)
    (s := ({ s.startStep with inbox := rest } : State).receive [last]) hact
  rw [State.emitFrame, hdec] at hrun
  rw [step, hin]
  exact hrun

end Sys2Proof.Machine
end

section
/-! The invariant of the engine without its Reassembler, kept by every instruction, which also answers a next state
(60_exceptions R247; 10_state R30, R32, R40; 41_framebuffer R137). -/

namespace Sys2Proof.Machine

/-- The parts of the invariant that an instruction reads or writes. -/
structure EngineOk (s : State) : Prop where
  config : ConfigOk s.cfg
  screen : ScreenOk s
  window : WindowOk s
  encoder : EncoderOk s.enc
  memory : MemoryOk s

theorem inv_iff (s : State) : Inv s ↔ EngineOk s ∧ ReassemblerOk s.cfg.maxPayload s.ra :=
  ⟨fun h => ⟨⟨h.config, h.screen, h.window, h.encoder, h.memory⟩, h.reassembler⟩,
    fun ⟨h, hr⟩ => ⟨h.config, h.screen, h.window, hr, h.encoder, h.memory⟩⟩

/-! ## What the parts depend on -/

theorem ScreenOk.congr {s t : State} (h : ScreenOk s) (hcfg : t.cfg = s.cfg)
    (hss : t.ss = { s.ss with enabled := t.ss.enabled }) : ScreenOk t := by
  obtain ⟨cfg, ss, win, fb, ra, enc, now, inbox, out, draws⟩ := t
  dsimp only at hcfg hss
  rw [hcfg, hss]
  exact ⟨h.width, h.height, h.fits⟩

theorem WindowOk.congr {s t : State} (h : WindowOk s) (hss : t.ss = { s.ss with enabled := t.ss.enabled })
    (hwin : t.win = s.win) : WindowOk t := by
  obtain ⟨cfg, ss, win, fb, ra, enc, now, inbox, out, draws⟩ := t
  dsimp only at hss hwin
  rw [hss, hwin]
  exact ⟨h.xs, h.ys, h.valid, h.front, h.wrap, h.back, h.cursor⟩

/-- Another position of the cursor in the window. -/
theorem WindowOk.moveCursor {s t : State} (h : WindowOk s) (hss : t.ss = s.ss)
    (hwin : t.win = { s.win with cursor := t.win.cursor }) (hcur : InWset s t.win.cursor) : WindowOk t := by
  obtain ⟨cfg, ss, win, fb, ra, enc, now, inbox, out, draws⟩ := t
  dsimp only at hss hwin hcur
  rw [hss, hwin]
  exact ⟨h.xs, h.ys, h.valid, h.front, h.wrap, h.back, hcur⟩

theorem MemoryOk.congr {s t : State} (h : MemoryOk s) (hlen : t.fbLen = s.fbLen) (hwf : s.fb.wf = true → t.fb.wf = true)
    (hcells : ∀ c ∈ t.fb.cells, c ∈ s.fb.cells ∨ c.1 < s.fbLen) (hdraw : t.fb.draw = s.fb.draw)
    (hdraws : s.draws ≤ t.draws) : MemoryOk t where
  wf := hwf h.wf
  inside c hc := by
    rw [hlen]
    exact (hcells c hc).elim (h.inside c) id
  drawn := by
    have := h.drawn
    omega

/-- The invariant does not read the outputs, the Reassembler, the time, the offered transactions or `SS.enabled`. -/
theorem EngineOk.congr {s t : State} (h : EngineOk s) (hcfg : t.cfg = s.cfg)
    (hss : t.ss = { s.ss with enabled := t.ss.enabled }) (hwin : t.win = s.win) (hfb : t.fb = s.fb) (henc : EncoderOk t.enc)
    (hdraws : t.draws = s.draws) : EngineOk t where
  config := hcfg ▸ h.config
  screen := h.screen.congr hcfg hss
  window := h.window.congr hss hwin
  encoder := henc
  memory := h.memory.congr (by rw [State.fbLen, hss]; rfl) (by rw [hfb]; exact id) (by rw [hfb]; exact fun _ h => .inl h)
    (by rw [hfb]) hdraws.ge

theorem EngineOk.output {s : State} (h : EngineOk s) (o : Output) : EngineOk (s.output o) :=
  h.congr rfl rfl rfl rfl h.encoder rfl

theorem EngineOk.setEnabled {s : State} (h : EngineOk s) (v : Bool) : EngineOk (s.setEnabled v) :=
  h.congr rfl rfl rfl rfl h.encoder rfl

/-- A store of bytes of the buffer keeps the invariant. -/
theorem EngineOk.storesOnly {s t : State} {P : Nat → Prop} (h : EngineOk s) (hs : StoresOnly s t P) : EngineOk t where
  config := by rw [hs.state]; exact h.config
  screen := h.screen.congr (by rw [hs.state]) (by rw [hs.state])
  window := h.window.congr (by rw [hs.state]) (by rw [hs.state])
  encoder := by rw [hs.state]; exact h.encoder
  memory := h.memory.congr hs.fbLen_eq hs.wf hs.cells hs.draw (by rw [hs.state])

/-! ## The window of a rectangle -/

/-- The window that `set_window` computes from a valid rectangle is in order. -/
theorem windowOf_windowOk {s : State} {x y w h : Nat} (hv : s.ss.validRect x y w h = true)
    (hw : s.win = windowOf s.ss x y w h) : WindowOk s := by
  obtain ⟨g, -, -, hcur⟩ := windowOf_geometry hv hw
  obtain ⟨hw1, hh1, hxw, hyh, -⟩ := (validRect_iff s.ss x y w h).1 hv
  have hW := s.ss.width.isLt
  have hH := s.ss.height.isLt
  have hx0 : s.win.x0.toNat = x := by rw [hw]; simp only [windowOf, BitVec.toNat_ofNat]; omega
  have hx1 : s.win.x1.toNat = x + w - 1 := by rw [hw]; simp only [windowOf, BitVec.toNat_ofNat]; omega
  have hy0 : s.win.y0.toNat = y := by rw [hw]; simp only [windowOf, BitVec.toNat_ofNat]; omega
  have hy1 : s.win.y1.toNat = y + h - 1 := by rw [hw]; simp only [windowOf, BitVec.toNat_ofNat]; omega
  have hcols : s.win.x1.toNat - s.win.x0.toNat + 1 = w := by omega
  have hrows : s.win.y1.toNat - s.win.y0.toNat = h - 1 := by omega
  have hrows1 : h - 1 + 1 = h := by omega
  refine ⟨by omega, by omega, ?_, ?_, ?_, ?_, ?_⟩
  · rw [hcols, hrows, hrows1, hx0, hy0]; exact hv
  · rw [hx0, hy0, hw]; rfl
  · rw [hcols, hw]; rfl
  · rw [hcols, hrows, hw]; rfl
  · rw [hcur, g.inWset_iff]
    exact ⟨0, g.capacity_pos, rfl⟩

/-- The whole of a screen that is not empty is a valid rectangle. -/
theorem validRect_fullScreen {ss : ScreenState} (hw : 1 ≤ ss.width.toNat) (hh : 1 ≤ ss.height.toNat) :
    ss.validRect 0 0 ss.width.toNat ss.height.toNat = true :=
  (validRect_iff ss 0 0 _ _).2 ⟨hw, hh, (Nat.zero_add _).le, (Nat.zero_add _).le,
    fun _ => ⟨rfl, .inr (Nat.zero_add _)⟩⟩

/-- The full-screen window is the one `set_window` computes from the whole screen (41_framebuffer R134). -/
theorem fullScreen_eq_windowOf {ss : ScreenState} (hw : 1 ≤ ss.width.toNat) (hh : 1 ≤ ss.height.toNat) :
    fullScreen ss = windowOf ss 0 0 ss.width.toNat ss.height.toNat := by
  have hcol : colOff ss.fmt 0 = 0 := by unfold colOff; cases formatClass ss.fmt <;> rfl
  have hrow : winRowOf ss.fmt ss.width.toNat = ss.stride := rfl
  have hback : ss.fbLen - ((ss.height.toNat - 1) * ss.stride + ss.stride) = 0 := by
    rw [← Nat.succ_mul, Nat.succ_eq_add_one, Nat.sub_add_cancel hh, Nat.mul_comm]
    exact Nat.sub_self _
  have hlast : ∀ v : U16, 1 ≤ v.toNat → v - 1 = BitVec.ofNat 16 (v.toNat - 1) := by
    intro v hv
    bv_omega
  simp only [windowOf, fullScreen, hcol, hrow, Nat.mul_zero, Nat.zero_add, hback, Nat.sub_self, hlast _ hw, hlast _ hh]
  rfl

/-- A screen that was just installed, with its full-screen window and nothing written. -/
theorem EngineOk.of_fullScreen {s : State} (hcfg : ConfigOk s.cfg) (hs : ScreenOk s) (henc : EncoderOk s.enc)
    (hwin : s.win = fullScreen s.ss) (hcells : s.fb.cells = []) (hdraw : s.fb.draw < s.draws) : EngineOk s where
  config := hcfg
  screen := hs
  window := windowOf_windowOk (validRect_fullScreen hs.width hs.height)
    (hwin.trans (fullScreen_eq_windowOf hs.width hs.height))
  encoder := henc
  memory := ⟨by rw [Memory.wf, hcells]; rfl, by simp [hcells], hdraw⟩

/-! ## Operations that go on -/

/-- The result is a next state that meets the invariant and has the parameters `c`. -/
def GoesOn (c : Config) (r : Result) : Prop := ∃ t, r = .next t ∧ EngineOk t ∧ t.cfg = c

theorem EngineOk.goesOn {s : State} (h : EngineOk s) : GoesOn s.cfg (.next s) := ⟨s, rfl, h, rfl⟩

theorem GoesOn.andThen {c : Config} {r : Result} {k : State → Result} (hr : GoesOn c r)
    (hk : ∀ s, EngineOk s → s.cfg = c → GoesOn c (k s)) : GoesOn c (andThen r k) := by
  obtain ⟨s, rfl, hs, hcfg⟩ := hr
  exact hk s hs hcfg

theorem whenEnabled_goesOn {s : State} {k : State → Result} (h : EngineOk s) (hk : GoesOn s.cfg (k s)) :
    GoesOn s.cfg (whenEnabled s k) := by
  unfold whenEnabled
  split
  · exact hk
  · exact h.goesOn

theorem withFixedPart_goesOn {α : Type} {t : Byte} {p : Payload α} {s : State} {k : α → List Byte → State → Result}
    (h : EngineOk s) (hk : ∀ a rest, GoesOn s.cfg (k a rest s)) : GoesOn s.cfg (withFixedPart t p s k) := by
  cases p with
  | short b => exact (h.output _).goesOn
  | full a rest => exact hk a rest

theorem setWindowThen_goesOn {r : RectArgs} {s : State} {k : State → Result} (h : EngineOk s)
    (hk : ∀ u, EngineOk u → u.cfg = s.cfg → GoesOn s.cfg (k u)) : GoesOn s.cfg (setWindowThen r s k) := by
  unfold setWindowThen
  split
  · next hv =>
    refine hk _ ⟨h.config, h.screen.congr rfl rfl, ?_, h.encoder, ?_⟩ rfl
    · exact windowOf_windowOk hv rfl
    · exact h.memory.congr rfl id (fun _ hc => .inl hc) rfl le_rfl
  · exact (h.output _).goesOn

/-- A write answers next, the cursor still in the window (41_framebuffer R137). -/
theorem State.writeData_goesOn (data : List Byte) {s : State} (h : EngineOk s) : GoesOn s.cfg (s.writeData data) := by
  have g := h.window.geometry
  obtain ⟨hlt, haddr⟩ := g.cursor_position h.window.cursor
  obtain ⟨m, d, ht, -, -⟩ := State.writeData_ring (data := data) g hlt haddr.symm
  have hw := State.writeData_writesOnly ht
  refine ⟨_, ht, ⟨h.config, h.screen.congr rfl rfl, ?_, h.encoder, ?_⟩, rfl⟩
  · exact h.window.moveCursor rfl rfl ((g.inWset_iff _).2 ⟨_, Nat.mod_lt _ g.capacity_pos, rfl⟩)
  · exact h.memory.congr rfl hw.wf hw.cells hw.draw (by rcases hw.draws with hd | hd <;> omega)

/-- A write and its notification. -/
theorem writeData_notify_goesOn (data : List Byte) {s : State} (h : EngineOk s) :
    GoesOn s.cfg (andThen (s.writeData data) fun u => .next (u.notify .frame)) :=
  (State.writeData_goesOn data h).andThen fun _ hu hcfg => hcfg ▸ (hu.output _).goesOn

theorem drawPointThen_goesOn {p : PointArgs} {s : State} {k : State → Result} (h : EngineOk s)
    (hk : ∀ u, EngineOk u → u.cfg = s.cfg → GoesOn s.cfg (k u)) : GoesOn s.cfg (drawPointThen p s k) := by
  unfold drawPointThen
  split
  · exact (h.output _).goesOn
  · next hin =>
    obtain ⟨m, hm, -⟩ := State.storePixel_next s p.x.toNat p.y.toNat p.color (by omega) (by omega)
    rw [hm]
    exact hk _ (h.storesOnly (State.storePixel_storesOnly hm)) rfl

/-! ## The instructions -/

theorem State.rejectInit_goesOn (e : EngineError) {s : State} (h : EngineOk s) : GoesOn s.cfg (s.rejectInit e) :=
  (((h.output (.err e)).setEnabled false).output (.notify .params)).goesOn

/-- An init goes on: rejected, or with a screen that is not empty and fits the pixel memory (43_commands R182, R183). -/
theorem State.initScreen_goesOn (a : InitArgs) {s : State} (h : EngineOk s) : GoesOn s.cfg (s.initScreen a) := by
  rcases State.initScreen_cases a s with ⟨e, he⟩ | ⟨fmt, -, -, hw, hh, hfits, hacc⟩
  · rw [he]
    exact State.rejectInit_goesOn e h
  · rw [hacc, State.acceptInit_eq]
    refine ⟨_, rfl, ?_, rfl⟩
    exact EngineOk.of_fullScreen h.config ⟨Nat.pos_of_ne_zero hw, Nat.pos_of_ne_zero hh, hfits⟩ h.encoder rfl rfl
      (Nat.lt_succ_self _)

theorem execInit_goesOn (p : Payload InitArgs) {s : State} (h : EngineOk s) : GoesOn s.cfg (execInit p s) := by
  unfold execInit
  exact withFixedPart_goesOn h fun a _ => State.initScreen_goesOn a h

theorem execSetWindow_goesOn (p : Payload RectArgs) {s : State} (h : EngineOk s) :
    GoesOn s.cfg (execSetWindow p s) := by
  unfold execSetWindow
  refine whenEnabled_goesOn h ?_
  refine withFixedPart_goesOn h fun r _ => ?_
  exact setWindowThen_goesOn h fun u hu hcfg => hcfg ▸ hu.goesOn

theorem execWrite_goesOn (data : List Byte) {s : State} (h : EngineOk s) : GoesOn s.cfg (execWrite data s) := by
  unfold execWrite
  refine whenEnabled_goesOn h ?_
  exact writeData_notify_goesOn data h

theorem execSetWindowWrite_goesOn (p : Payload RectArgs) {s : State} (h : EngineOk s) :
    GoesOn s.cfg (execSetWindowWrite p s) := by
  unfold execSetWindowWrite
  refine whenEnabled_goesOn h ?_
  refine withFixedPart_goesOn h fun r data => ?_
  exact setWindowThen_goesOn h fun u hu hcfg => hcfg ▸ writeData_notify_goesOn data hu

theorem execDrawPoint_goesOn (p : Payload PointArgs) {s : State} (h : EngineOk s) :
    GoesOn s.cfg (execDrawPoint p s) := by
  unfold execDrawPoint
  refine whenEnabled_goesOn h ?_
  refine withFixedPart_goesOn h fun a _ => ?_
  exact drawPointThen_goesOn h fun u hu hcfg => hcfg ▸ (hu.output (.notify .frame)).goesOn

theorem sendGated_goesOn (c : InputClass) (i : Instr) {s : State} (h : EngineOk s) :
    GoesOn s.cfg (sendGated c i s) := by
  unfold sendGated
  split
  · exact (h.output _).goesOn
  · exact h.goesOn

/-- A throttled class writes both of its registers when it sends (44_events R217). -/
theorem execEvTouch_goesOn (x y : U16) (down : Bool) {s : State} (h : EngineOk s) :
    GoesOn s.cfg (execEvTouch x y down s) := by
  unfold execEvTouch
  split
  · exact ⟨_, rfl, h.congr rfl rfl rfl rfl ⟨rfl, h.encoder.2⟩ rfl, rfl⟩
  · exact h.goesOn

theorem execEvMouse_goesOn (x y : U16) (wheel buttons : Byte) {s : State} (h : EngineOk s) :
    GoesOn s.cfg (execEvMouse x y wheel buttons s) := by
  unfold execEvMouse
  split
  · exact ⟨_, rfl, h.congr rfl rfl rfl rfl ⟨h.encoder.1, rfl⟩ rfl, rfl⟩
  · exact h.goesOn

theorem EngineOk.setIreqStart {s : State} (h : EngineOk s) (v : Option U32) : EngineOk (s.setIreqStart v) :=
  h.congr rfl rfl rfl rfl h.encoder rfl

theorem execInitRequest_goesOn {s : State} (h : EngineOk s) : GoesOn s.cfg (execInitRequest s) := by
  unfold execInitRequest
  split
  · exact (h.setIreqStart none).goesOn
  · cases s.enc.ireqStart with
    | none => exact (h.setIreqStart _).goesOn
    | some t0 =>
      dsimp only
      split
      · exact ((h.output _).setIreqStart _).goesOn
      · exact h.goesOn

/-- From a state that meets the invariant every instruction answers a next state that meets it (60_exceptions R247). -/
theorem exec_goesOn (i : Instr) {s : State} (h : EngineOk s) : GoesOn s.cfg (exec i s) := by
  cases i with
  | init p => exact execInit_goesOn p h
  | setWindow p => exact execSetWindow_goesOn p h
  | write data => exact execWrite_goesOn data h
  | setWindowWrite p => exact execSetWindowWrite_goesOn p h
  | drawPoint p => exact execDrawPoint_goesOn p h
  | ignored00 _ | ignored06to07 _ _ | ignored08to0F _ _ | ignored10to1F _ _ | ignored20to3F _ _ | ignored40to7F _ _
  | ignored80toFF _ _ => exact h.goesOn
  | evKeyboard _ _ _ _ _ | evButton _ _ | evEncoder _ _ => exact sendGated_goesOn _ _ h
  | evTouch x y down => exact execEvTouch_goesOn x y down h
  | evMouse x y wheel buttons => exact execEvMouse_goesOn x y wheel buttons h
  | initRequest => exact execInitRequest_goesOn h

end Sys2Proof.Machine
end

section
/-! The loop of the Reassembler ends in a state in which it waits (40_reassembler R112 to R116, R119), so every step from a
state that meets the invariant goes on and keeps it, and so does every run from reset (60_exceptions R247). -/

namespace Sys2Proof.Machine

/-- A Reassembler inside its loop: like one that waits, but `Q` may hold any bytes after those it has read. -/
def Receiving (maxPayload : U32) (ra : Reassembler) : Prop :=
  match ra.state with
  | .seekSync => True
  | .readHeader => ra.q.take 2 = [0xAA, 0x55]
  | .readPayload =>
    ra.q.take 2 = [0xAA, 0x55] ∧ 7 ≤ ra.q.length ∧ ra.len.toNat ≤ maxPayload.toNat ∧ ra.t = headerType ra.q ∧
      ra.len.toNat = headerLen ra.q

theorem headerType_append {q : List Byte} (c : List Byte) (h : 7 ≤ q.length) :
    headerType (q ++ c) = headerType q := by
  rw [headerType, headerType, List.getD_append _ _ _ _ (by omega)]

theorem headerLen_append {q : List Byte} (c : List Byte) (h : 7 ≤ q.length) :
    headerLen (q ++ c) = headerLen q := by
  rw [headerLen, headerLen, List.drop_append_of_le_length (by omega),
    List.take_append_of_le_length (by rw [List.length_drop]; omega)]

/-- Bytes that begin with the marker still do when more are received. -/
theorem take_two_append {q : List Byte} (c : List Byte) (h : q.take 2 = [0xAA, 0x55]) :
    (q ++ c).take 2 = [0xAA, 0x55] := by
  have hlen := congrArg List.length h
  rw [List.length_take] at hlen
  rw [List.take_append_of_le_length (by simp at hlen; omega), h]

/-- A waiting Reassembler that receives bytes is in its loop. -/
theorem ReassemblerOk.receive {mp : U32} {ra : Reassembler} (h : ReassemblerOk mp ra) (c : List Byte) :
    Receiving mp (ra.receive c) := by
  obtain ⟨st, q, t, len⟩ := ra
  cases st with
  | seekSync => exact trivial
  | readHeader => exact take_two_append c h.1
  | readPayload =>
    obtain ⟨hmark, hlen, -, hmax, ht, hl⟩ := h
    refine ⟨take_two_append c hmark, ?_, hmax, ht.trans (headerType_append c hlen).symm,
      hl.trans (headerLen_append c hlen).symm⟩
    exact hlen.trans (by simp [Reassembler.receive])

/-- The bytes from the first marker on begin with it. -/
theorem take_two_of_findMarker {q : List Byte} {i : Nat} (h : findMarker q = some i) :
    (q.drop i).take 2 = [0xAA, 0x55] := by
  induction q generalizing i with
  | nil => simp [findMarker] at h
  | cons a q ih =>
    cases q with
    | nil => simp [findMarker] at h
    | cons b q =>
      rw [findMarker_cons] at h
      split at h
      · next hab =>
        obtain rfl : 0 = i := by simpa using h
        simp [hab.1, hab.2]
      · obtain ⟨j, hj, rfl⟩ := Option.map_eq_some_iff.1 h
        exact ih hj

/-- Without a marker the bytes kept are none or one 0xAA (40_reassembler R112). -/
theorem drop_keptBytes (q : List Byte) :
    q.drop (q.length - keptBytes q) = [] ∨ q.drop (q.length - keptBytes q) = [0xAA] := by
  unfold keptBytes
  split
  · next h =>
    obtain ⟨l, rfl⟩ := List.getLast?_eq_some_iff.1 h
    exact .inr (by simp)
  · exact .inl (by simp)

/-- An action ended in a state in which the Reassembler waits, or left it in its loop. -/
def ActionResult.Ok (maxPayload : U32) (r : ActionResult) : Prop :=
  match r.waits with
  | true => ReassemblerOk maxPayload r.ra
  | false => Receiving maxPayload r.ra

theorem ActionResult.Ok.of_waits {mp : U32} {r : ActionResult} (h : r.Ok mp) (hw : r.waits = true) :
    ReassemblerOk mp r.ra := by
  rwa [ActionResult.Ok, hw] at h

theorem ActionResult.Ok.of_continues {mp : U32} {r : ActionResult} (h : r.Ok mp) (hw : r.waits = false) :
    Receiving mp r.ra := by
  rwa [ActionResult.Ok, hw] at h

theorem actSeek_ok (mp : U32) {ra : Reassembler} (hs : ra.state = .seekSync) : (actSeek ra).Ok mp := by
  obtain ⟨st, q, t, len⟩ := ra
  obtain rfl : st = .seekSync := hs
  unfold actSeek
  split
  · next hm => exact take_two_of_findMarker hm
  · exact drop_keptBytes q

theorem actHeader_ok {mp : U32} {ra : Reassembler} (hs : ra.state = .readHeader)
    (hmark : ra.q.take 2 = [0xAA, 0x55]) : (actHeader mp ra).Ok mp := by
  obtain ⟨st, q, t, len⟩ := ra
  obtain rfl : st = .readHeader := hs
  unfold actHeader
  dsimp only at hmark ⊢
  split_ifs with h7 hmax h0
  · exact ⟨hmark, h7⟩
  · exact trivial
  · exact trivial
  · have hlen : (BitVec.ofNat 32 (headerLen q)).toNat = headerLen q := by
      have := mp.isLt
      rw [BitVec.toNat_ofNat]
      exact Nat.mod_eq_of_lt (by omega)
    exact ⟨hmark, Nat.le_of_not_lt h7, hlen.trans_le (Nat.le_of_not_lt hmax), rfl, hlen⟩

theorem actPayload_ok {mp : U32} {ra : Reassembler} (hs : ra.state = .readPayload) (h : Receiving mp ra) :
    (actPayload ra).Ok mp := by
  obtain ⟨st, q, t, len⟩ := ra
  obtain rfl : st = .readPayload := hs
  obtain ⟨hmark, hlen, hmax, ht, hl⟩ := h
  unfold actPayload
  split_ifs with hn
  · exact ⟨hmark, hlen, hn, hmax, ht, hl⟩
  · exact trivial

theorem act_ok {mp : U32} {ra : Reassembler} (h : Receiving mp ra) : (act mp ra).Ok mp := by
  unfold act
  split
  · next hs => exact actSeek_ok mp hs
  · next hs =>
    rw [Receiving, hs] at h
    exact actHeader_ok hs h
  · next hs => exact actPayload_ok hs h

@[simp] theorem State.afterAction_ra (r : ActionResult) (s : State) : (s.afterAction r).ra = r.ra := by
  obtain ⟨ra, report, emitted, waits⟩ := r
  cases report <;> rfl

@[simp] theorem State.afterAction_cfg (r : ActionResult) (s : State) : (s.afterAction r).cfg = s.cfg := by
  obtain ⟨ra, report, emitted, waits⟩ := r
  cases report <;> rfl

theorem EngineOk.afterAction {s : State} (h : EngineOk s) (r : ActionResult) : EngineOk (s.afterAction r) := by
  obtain ⟨ra, report, emitted, waits⟩ := r
  cases report <;> exact h.congr rfl rfl rfl rfl h.encoder rfl

/-- The command of an emitted frame goes on and keeps the Reassembler. -/
theorem State.emitFrame_next (t : Byte) (p : List Byte) {s : State} (h : EngineOk s) :
    ∃ u, s.emitFrame t p = .next u ∧ EngineOk u ∧ u.cfg = s.cfg ∧ u.ra = s.ra := by
  obtain ⟨u, hu, hok, hcfg⟩ := exec_goesOn (decodeInbound t p) (h.output (.frame t p))
  exact ⟨u, hu, hok, hcfg, (exec_ra hu : u.ra = (s.output (.frame t p)).ra)⟩

/-- The loop, with more fuel than its measure (40_reassembler R119), ends in a state that meets the invariant. -/
theorem runActions_inv (n : Nat) {s : State} (h : EngineOk s) (hr : Receiving s.cfg.maxPayload s.ra)
    (hn : s.ra.measure < n) : ∃ t, runActions n s = .next t ∧ Inv t := by
  induction n generalizing s with
  | zero => omega
  | succ n ih =>
    have hact := act_ok hr
    have hmeasure := act_measure s.cfg.maxPayload s.ra
    have hwaits := act_waits s.cfg.maxPayload s.ra
    have hok := h.afterAction (act s.cfg.maxPayload s.ra)
    rw [runActions]
    generalize act s.cfg.maxPayload s.ra = r at hact hmeasure hwaits hok
    cases hw : r.waits with
    | true =>
      rw [hwaits hw]
      refine ⟨_, rfl, (inv_iff _).2 ⟨hok, ?_⟩⟩
      rw [State.afterAction_cfg, State.afterAction_ra]
      exact hact.of_waits hw
    | false =>
      have hrec := hact.of_continues hw
      have hlt : r.ra.measure < n := Nat.lt_of_lt_of_le (hmeasure hw) (Nat.lt_succ_iff.1 hn)
      cases r.emitted with
      | none =>
        refine ih hok ?_ ?_
        · rw [State.afterAction_cfg, State.afterAction_ra]; exact hrec
        · rw [State.afterAction_ra]; exact hlt
      | some f =>
        obtain ⟨u, hu, huok, hucfg, hura⟩ := State.emitFrame_next f.1 f.2 hok
        rw [State.afterAction_cfg] at hucfg
        rw [State.afterAction_ra] at hura
        dsimp only
        rw [hu, andThen_next]
        exact ih huok (by rw [hucfg, hura]; exact hrec) (by rw [hura]; exact hlt)

/-- Received bytes: the bound of R119 on the loop is more than its measure. -/
theorem feed_inv (chunk : List Byte) {s : State} (h : Inv s) : ∃ t, feed chunk s = .next t ∧ Inv t := by
  obtain ⟨hok, hra⟩ := (inv_iff s).1 h
  have hweight : s.ra.state.weight ≤ 2 := by cases s.ra.state <;> decide
  refine runActions_inv _ (hok.congr rfl rfl rfl rfl hok.encoder rfl) (hra.receive chunk) ?_
  show 3 * (s.ra.q ++ chunk).length + s.ra.state.weight < 3 * (s.ra.q ++ chunk).length + 3
  omega

/-- An instruction of the Event Encoder or of the timer, at the time its transaction brings. -/
theorem exec_setNow_inv (i : Instr) (now : U32) {s : State} (h : Inv s) :
    ∃ t, exec i (s.setNow now) = .next t ∧ Inv t := by
  obtain ⟨hok, hra⟩ := (inv_iff s).1 h
  have hnow : EngineOk (s.setNow now) := hok.congr rfl rfl rfl rfl hok.encoder rfl
  obtain ⟨t, ht, htok, hcfg⟩ := exec_goesOn i hnow
  refine ⟨t, ht, (inv_iff t).2 ⟨htok, ?_⟩⟩
  rw [hcfg, exec_ra ht]
  exact hra

theorem transact_inv (tr : Transaction) {s : State} (h : Inv s) : ∃ t, transact tr s = .next t ∧ Inv t := by
  cases tr with
  | rxByte b => exact feed_inv [b] h
  | tick now => exact exec_setNow_inv .initRequest now h
  | input ev now => exact exec_setNow_inv (eventInstr ev) now h

/-- The invariant reads neither the outputs nor the offered transactions. -/
theorem Inv.offer {s : State} (h : Inv s) (out : List Output) (inbox : List Transaction) :
    Inv { s with out := out, inbox := inbox } := by
  obtain ⟨hok, hra⟩ := (inv_iff s).1 h
  exact (inv_iff _).2 ⟨hok.congr rfl rfl rfl rfl hok.encoder rfl, hra⟩

/-- Every step from a state that meets the invariant answers a next state that meets it. -/
theorem step_inv {s : State} (h : Inv s) : ∃ t, step s = .next t ∧ Inv t := by
  rw [step]
  cases s.inbox with
  | nil => exact ⟨_, rfl, h.offer [] s.inbox⟩
  | cons tr rest => exact transact_inv tr (h.offer [] rest)

theorem resetWith_inv {c : Config} (h : ConfigOk c) : Inv (State.resetWith c) :=
  (inv_iff _).2 ⟨EngineOk.of_fullScreen h ⟨h.defaultW, h.defaultH, h.defaultFits⟩ ⟨rfl, rfl⟩ rfl rfl Nat.one_pos, .inl rfl⟩

theorem core_run_succ {s t : State} (n : Nat) (h : step s = .next t) :
    core.run (n + 1) s = core.run n t := by
  have hstep : core.step s = .next t := h
  simp only [Host.Core.run, hstep]

/-- A run from a state that meets the invariant goes on for any number of steps. -/
theorem run_inv (n : Nat) {s : State} (h : Inv s) : ∃ t : State, core.run n s = .next t ∧ Inv t := by
  induction n generalizing s with
  | zero => exact ⟨s, rfl, h⟩
  | succ n ih =>
    obtain ⟨u, hu, hinv⟩ := step_inv h
    rw [core_run_succ n hu]
    exact ih hinv

/-- Settles O48: reset meets the invariant, whatever is offered, and every step keeps it and goes on. -/
theorem everyRunGoesOn : Obligations.EveryRunGoesOn := fun _ offered n hc =>
  run_inv n ((resetWith_inv hc).offer [] offered)

end Sys2Proof.Machine
end

section
/-! What a drawing command with a fixed part can do (43_commands R181), said once. -/

namespace Sys2Proof.Machine

/-- Steps 2 and 3 of 43_commands R181: the command is ignored, or it raises one error, or it runs on its fixed part. -/
theorem whenEnabled_withFixedPart_cases {α : Type} {c : Byte} {p : Payload α} {s t : State}
    {k : α → List Byte → State → Result} (h : whenEnabled s (fun s => withFixedPart c p s k) = .next t) :
    t = s ∨ (∃ e, t = s.report e) ∨ ∃ a rest, p = .full a rest ∧ k a rest s = .next t := by
  rcases whenEnabled_eq_next.1 h with ⟨-, ht⟩ | ⟨-, hrun⟩
  · exact .inl ht
  · cases p with
    | short bytes => exact .inr (.inl ⟨_, (Host.Outcome.next.inj hrun).symm⟩)
    | full a rest => exact .inr (.inr ⟨a, rest, rfl, hrun⟩)

end Sys2Proof.Machine
end

section
/-! The invariant at reset and over a step, and where the writing commands write (10_state R30, R32; 41_framebuffer
R137). -/

namespace Sys2Proof.Machine

/-- Settles O46: a step from a state that meets the invariant answers one state, and that state meets it. -/
theorem stepKeepsTheInvariant : Obligations.StepKeepsTheInvariant := by
  intro s t h hstep
  obtain ⟨u, hu, hinv⟩ := step_inv h
  obtain rfl : u = t := Host.Outcome.next.inj (hu.symm.trans hstep)
  exact hinv

/-- The default parameters are legal. -/
theorem configOk_default : ConfigOk Config.default := by constructor <;> decide

/-- Settles O45: reset meets the invariant with any legal parameters, and the default ones are legal. -/
theorem resetMeetsTheInvariant : Obligations.ResetMeetsTheInvariant :=
  ⟨fun _ => resetWith_inv, resetWith_inv configOk_default⟩

/-- From `s` to `t` no byte outside the window of `t` changed, and the cursor of `t` is in that window. -/
def StaysInWindow (s t : State) : Prop :=
  InWset t t.win.cursor ∧ ∀ a, ¬ InWset t a → t.byteAt a = s.byteAt a

theorem WindowOk.staysInWindow {s : State} (h : WindowOk s) : StaysInWindow s s := ⟨h.cursor, fun _ _ => rfl⟩

/-- A write stores to positions of the window's linear order and leaves the cursor at one (41_framebuffer R136, R139). -/
theorem State.writeData_staysInWindow {data : List Byte} {s t : State} (h : WindowOk s)
    (ht : s.writeData data = .next t) : StaysInWindow s t := by
  have g := h.geometry
  obtain ⟨hlt, haddr⟩ := g.cursor_position h.cursor
  obtain ⟨m, d, heq, hring, hhavoc⟩ := State.writeData_ring (data := data) g hlt haddr.symm
  obtain rfl := Host.Outcome.next.inj (heq.symm.trans ht)
  have hpos : ∀ k, InWset s (s.addr (k % s.capacity)) := fun k =>
    (g.inWset_iff _).2 ⟨_, Nat.mod_lt _ g.capacity_pos, rfl⟩
  refine ⟨hpos _, fun a (ha : ¬ InWset s a) => ?_⟩
  cases hv : s.havocs data with
  | false => exact (hring hv).2.2 a fun j _ hj => ha (hj ▸ hpos _)
  | true => exact (hhavoc hv).2.2.2 a ha

/-- A write and its notification. -/
theorem writeData_notify_staysInWindow {data : List Byte} {s t : State} (h : WindowOk s)
    (ht : andThen (s.writeData data) (fun u => .next (u.notify .frame)) = .next t) : StaysInWindow s t := by
  obtain ⟨u, hu, hn⟩ := andThen_eq_next.1 ht
  obtain rfl := Host.Outcome.next.inj hn
  have hstay : StaysInWindow s u := State.writeData_staysInWindow h hu
  exact hstay

theorem execWrite_staysInWindow {data : List Byte} {s t : State} (h : WindowOk s)
    (ht : execWrite data s = .next t) : StaysInWindow s t := by
  rcases whenEnabled_eq_next.1 ht with ⟨-, rfl⟩ | ⟨-, hw⟩
  · exact h.staysInWindow
  · exact writeData_notify_staysInWindow h hw

/-- The new window of a valid rectangle is in order; a refused one leaves the window, which was. -/
theorem execSetWindowWrite_staysInWindow {p : Payload RectArgs} {s t : State} (h : WindowOk s)
    (ht : execSetWindowWrite p s = .next t) : StaysInWindow s t := by
  rcases whenEnabled_withFixedPart_cases ht with rfl | ⟨e, rfl⟩ | ⟨r, data, -, hrun⟩
  · exact h.staysInWindow
  · exact h.staysInWindow
  · rcases setWindowThen_eq_next.1 hrun with ⟨hv, hw⟩ | ⟨-, rfl⟩
    · have hset : WindowOk { s with win := windowOf s.ss r.x.toNat r.y.toNat r.w.toNat r.h.toNat } :=
        windowOf_windowOk hv rfl
      have hstay := writeData_notify_staysInWindow hset hw
      exact hstay
    · exact h.staysInWindow

/-- Settles O26, by the two writing commands. -/
theorem writesStayInTheWindow : Obligations.WritesStayInTheWindow := by
  rintro s t h (⟨data, ht⟩ | ⟨p, ht⟩)
  · exact execWrite_staysInWindow h ht
  · exact execSetWindowWrite_staysInWindow h ht

end Sys2Proof.Machine
end

section
/-! The access summary of 10_state R57: which parts of the state each instruction may write. -/

namespace Sys2Proof.Machine

/-- The parts of the state that an instruction may have written when it leads from `s` to `t` (10_state R57). -/
def AccessSummary : Instr → State → State → Prop
  | .init _, s, t => t = { s with
      ss := t.ss, win := t.win, fb := t.fb, draws := t.draws, out := t.out,
      enc := { s.enc with ireqStart := t.enc.ireqStart } }
  | .setWindow _, s, t => t = { s with win := t.win, out := t.out }
  | .write _, s, t => t = { s with
      win := { s.win with cursor := t.win.cursor }, fb := t.fb, draws := t.draws, out := t.out }
  | .setWindowWrite _, s, t => t = { s with win := t.win, fb := t.fb, draws := t.draws, out := t.out }
  | .drawPoint _, s, t => t = { s with fb := t.fb, out := t.out }
  | .evTouch _ _ _, s, t => t = { s with enc := { s.enc with touch := t.enc.touch }, out := t.out }
  | .evMouse _ _ _ _, s, t => t = { s with enc := { s.enc with mouse := t.enc.mouse }, out := t.out }
  | .initRequest, s, t => t = { s with enc := { s.enc with ireqStart := t.enc.ireqStart }, out := t.out }
  | .evKeyboard _ _ _ _ _, s, t | .evButton _ _, s, t | .evEncoder _ _, s, t => t = { s with out := t.out }
  | _, s, t => t = s

theorem execInit_accessSummary {p : Payload InitArgs} {s t : State} (h : execInit p s = .next t) :
    AccessSummary (.init p) s t := by
  cases p with
  | short bytes =>
    obtain rfl := Host.Outcome.next.inj h
    rfl
  | full a rest =>
    rw [execInit, withFixedPart_full] at h
    rcases State.initScreen_cases a s with ⟨e, he⟩ | ⟨fmt, -, -, -, -, -, hacc⟩
    · rw [he, State.rejectInit_eq] at h
      obtain rfl := Host.Outcome.next.inj h
      rfl
    · rw [hacc, State.acceptInit_eq] at h
      obtain rfl := Host.Outcome.next.inj h
      rfl

theorem execSetWindow_accessSummary {p : Payload RectArgs} {s t : State} (h : execSetWindow p s = .next t) :
    AccessSummary (.setWindow p) s t := by
  rcases whenEnabled_withFixedPart_cases h with rfl | ⟨e, rfl⟩ | ⟨r, rest, -, hrun⟩
  · rfl
  · rfl
  · rcases setWindowThen_eq_next.1 hrun with ⟨-, hset⟩ | ⟨-, rfl⟩
    · obtain rfl := Host.Outcome.next.inj hset
      rfl
    · rfl

/-- A write and its notification. -/
theorem writeData_notify_writes {data : List Byte} {s t : State}
    (h : andThen (s.writeData data) (fun u => .next (u.notify .frame)) = .next t) :
    t = { s with win := { s.win with cursor := t.win.cursor }, fb := t.fb, draws := t.draws, out := t.out } := by
  obtain ⟨u, hu, hn⟩ := andThen_eq_next.1 h
  obtain rfl := Host.Outcome.next.inj hn
  rw [(State.writeData_writesOnly hu).state]
  rfl

theorem execWrite_accessSummary {data : List Byte} {s t : State} (h : execWrite data s = .next t) :
    AccessSummary (.write data) s t := by
  rcases whenEnabled_eq_next.1 h with ⟨-, rfl⟩ | ⟨-, hw⟩
  · rfl
  · exact writeData_notify_writes hw

theorem execSetWindowWrite_accessSummary {p : Payload RectArgs} {s t : State}
    (h : execSetWindowWrite p s = .next t) : AccessSummary (.setWindowWrite p) s t := by
  rcases whenEnabled_withFixedPart_cases h with rfl | ⟨e, rfl⟩ | ⟨r, data, -, hrun⟩
  · rfl
  · rfl
  · rcases setWindowThen_eq_next.1 hrun with ⟨-, hw⟩ | ⟨-, rfl⟩
    · rw [writeData_notify_writes hw]
      rfl
    · rfl

theorem execDrawPoint_accessSummary {p : Payload PointArgs} {s t : State} (h : execDrawPoint p s = .next t) :
    AccessSummary (.drawPoint p) s t := by
  rcases whenEnabled_withFixedPart_cases h with rfl | ⟨e, rfl⟩ | ⟨a, rest, -, hrun⟩
  · rfl
  · rfl
  · rcases drawPointThen_eq_next.1 hrun with ⟨-, u, hu, hn⟩ | ⟨-, rfl⟩
    · obtain rfl := Host.Outcome.next.inj hn
      rw [(State.storePixel_storesOnly hu).state]
      rfl
    · rfl

/-- An event of an unthrottled class adds an output at most. -/
theorem sendGated_writes {c : InputClass} {i : Instr} {s t : State} (h : sendGated c i s = .next t) :
    t = { s with out := t.out } := by
  rcases sendGated_eq_next.1 h with ⟨-, rfl⟩ | ⟨-, rfl⟩ <;> rfl

theorem execEvTouch_accessSummary {x y : U16} {down : Bool} {s t : State} (h : execEvTouch x y down s = .next t) :
    AccessSummary (.evTouch x y down) s t := by
  unfold execEvTouch at h
  split at h <;> obtain rfl := Host.Outcome.next.inj h <;> rfl

theorem execEvMouse_accessSummary {x y : U16} {wheel buttons : Byte} {s t : State}
    (h : execEvMouse x y wheel buttons s = .next t) : AccessSummary (.evMouse x y wheel buttons) s t := by
  unfold execEvMouse at h
  split at h <;> obtain rfl := Host.Outcome.next.inj h <;> rfl

theorem execInitRequest_accessSummary {s t : State} (h : execInitRequest s = .next t) :
    AccessSummary .initRequest s t := by
  unfold execInitRequest at h
  split at h
  · obtain rfl := Host.Outcome.next.inj h
    rfl
  · split at h
    · obtain rfl := Host.Outcome.next.inj h
      rfl
    · split at h <;> obtain rfl := Host.Outcome.next.inj h <;> rfl

/-- Every instruction writes the parts of the state that the access summary names, and no other. -/
theorem exec_accessSummary {i : Instr} {s t : State} (h : exec i s = .next t) : AccessSummary i s t := by
  cases i with
  | init p => exact execInit_accessSummary h
  | setWindow p => exact execSetWindow_accessSummary h
  | write data => exact execWrite_accessSummary h
  | setWindowWrite p => exact execSetWindowWrite_accessSummary h
  | drawPoint p => exact execDrawPoint_accessSummary h
  | ignored00 _ | ignored06to07 _ _ | ignored08to0F _ _ | ignored10to1F _ _ | ignored20to3F _ _ | ignored40to7F _ _
  | ignored80toFF _ _ => exact (Host.Outcome.next.inj h).symm
  | evKeyboard _ _ _ _ _ | evButton _ _ | evEncoder _ _ => exact sendGated_writes h
  | evTouch x y down => exact execEvTouch_accessSummary h
  | evMouse x y wheel buttons => exact execEvMouse_accessSummary h
  | initRequest => exact execInitRequest_accessSummary h

/-! ## The writers of each part -/

section Writers

variable {i : Instr} {s t : State}

theorem exec_cfg (h : exec i s = .next t) : t.cfg = s.cfg := by
  cases i <;> exact (congrArg State.cfg (exec_accessSummary h) :)

theorem exec_now (h : exec i s = .next t) : t.now = s.now := by
  cases i <;> exact (congrArg State.now (exec_accessSummary h) :)

theorem exec_inbox (h : exec i s = .next t) : t.inbox = s.inbox := by
  obtain ⟨u, -, rfl⟩ := exec_eq_next h
  rfl

/-- Outputs are only added. -/
theorem exec_out (h : exec i s = .next t) : s.out <+: t.out := by
  obtain ⟨u, -, rfl⟩ := exec_eq_next h
  exact ⟨u.out, rfl⟩

theorem ss_writer (h : exec i s = .next t) (hne : t.ss ≠ s.ss) : ∃ p, i = .init p := by
  cases i with
  | init p => exact ⟨p, rfl⟩
  | _ => exact absurd (congrArg State.ss (exec_accessSummary h)) hne

theorem win_writer (h : exec i s = .next t) (hne : t.win ≠ s.win) :
    (∃ p, i = .init p) ∨ (∃ p, i = .setWindow p) ∨ (∃ d, i = .write d) ∨ ∃ p, i = .setWindowWrite p := by
  cases i with
  | init p => exact .inl ⟨p, rfl⟩
  | setWindow p => exact .inr (.inl ⟨p, rfl⟩)
  | write data => exact .inr (.inr (.inl ⟨data, rfl⟩))
  | setWindowWrite p => exact .inr (.inr (.inr ⟨p, rfl⟩))
  | _ => exact absurd (congrArg State.win (exec_accessSummary h)) hne

theorem fb_writer (h : exec i s = .next t) (hne : t.fb ≠ s.fb) :
    (∃ p, i = .init p) ∨ (∃ d, i = .write d) ∨ (∃ p, i = .setWindowWrite p) ∨ ∃ p, i = .drawPoint p := by
  cases i with
  | init p => exact .inl ⟨p, rfl⟩
  | write data => exact .inr (.inl ⟨data, rfl⟩)
  | setWindowWrite p => exact .inr (.inr (.inl ⟨p, rfl⟩))
  | drawPoint p => exact .inr (.inr (.inr ⟨p, rfl⟩))
  | _ => exact absurd (congrArg State.fb (exec_accessSummary h)) hne

theorem touch_writer (h : exec i s = .next t) (hne : t.enc.touch ≠ s.enc.touch) : ∃ x y d, i = .evTouch x y d := by
  cases i with
  | evTouch x y down => exact ⟨x, y, down, rfl⟩
  | _ => exact absurd (congrArg (·.enc.touch) (exec_accessSummary h)) hne

theorem mouse_writer (h : exec i s = .next t) (hne : t.enc.mouse ≠ s.enc.mouse) :
    ∃ x y w b, i = .evMouse x y w b := by
  cases i with
  | evMouse x y wheel buttons => exact ⟨x, y, wheel, buttons, rfl⟩
  | _ => exact absurd (congrArg (·.enc.mouse) (exec_accessSummary h)) hne

theorem ireqStart_writer (h : exec i s = .next t) (hne : t.enc.ireqStart ≠ s.enc.ireqStart) :
    (∃ p, i = .init p) ∨ i = .initRequest := by
  cases i with
  | init p => exact .inl ⟨p, rfl⟩
  | initRequest => exact .inr rfl
  | _ => exact absurd (congrArg (·.enc.ireqStart) (exec_accessSummary h)) hne

end Writers

/-- Settles O39, by the writers of each part. -/
theorem onlyTheNamedWritersWrite : Obligations.OnlyTheNamedWritersWrite := fun _ _ _ h =>
  ⟨ss_writer h, win_writer h, fb_writer h, touch_writer h, mouse_writer h, ireqStart_writer h,
    exec_ra h, exec_cfg h, exec_now h, exec_inbox h, exec_out h⟩

end Sys2Proof.Machine
end

section
/-! No instruction but init reads the rotation (10_state R23, 42_pixel_format R174): each operation commutes with putting
another in its place. -/

namespace Sys2Proof.Machine

/-- The state with another rotation. -/
def State.rotate (rot : BitVec 2) (s : State) : State := { s with ss := { s.ss with rot := rot } }

/-- A sequence commutes with a change of the state that its second part commutes with. -/
theorem andThen_mapNext {f : State → State} {k k' : State → Result} (x : Result)
    (h : ∀ s, k' (f s) = mapNext f (k s)) : andThen (mapNext f x) k' = mapNext f (andThen x k) := by
  cases x with
  | next s => exact h s
  | fault | refused => rfl

section Rotate

variable (rot : BitVec 2)

theorem State.storeByte_rotate (a : Nat) (b : Byte) (s : State) :
    (s.rotate rot).storeByte a b = mapNext (State.rotate rot) (s.storeByte a b) := by
  have hlen : (s.rotate rot).fbLen = s.fbLen := rfl
  unfold State.storeByte
  rw [hlen]
  split <;> rfl

theorem State.storeBytes_rotate (a : Nat) (bs : List Byte) (s : State) :
    (s.rotate rot).storeBytes a bs = mapNext (State.rotate rot) (s.storeBytes a bs) := by
  induction bs generalizing a s with
  | nil => rfl
  | cons b bs ih =>
    rw [State.storeBytes, State.storeByte_rotate]
    exact andThen_mapNext _ (ih (a + 1))

theorem State.storeFree_rotate (d : Nat) (as : List Nat) (s : State) :
    (s.rotate rot).storeFree d as = mapNext (State.rotate rot) (s.storeFree d as) := by
  induction as generalizing s with
  | nil => rfl
  | cons a as ih =>
    rw [State.storeFree, State.storeByte_rotate]
    exact andThen_mapNext _ ih

theorem State.writeLoop_rotate (data : List Byte) (s : State) :
    (s.rotate rot).writeLoop data = mapNext (State.rotate rot) (s.writeLoop data) := by
  induction data generalizing s with
  | nil => rfl
  | cons b bs ih =>
    rw [State.writeLoop, State.storeByte_rotate]
    exact andThen_mapNext _ fun u => ih (u.setCursor u.nextCursor)

theorem State.havocWindow_rotate (s : State) :
    (s.rotate rot).havocWindow = mapNext (State.rotate rot) s.havocWindow := by
  rw [State.havocWindow, State.storeFree_rotate]
  exact andThen_mapNext _ fun _ => rfl

theorem State.writeData_rotate (data : List Byte) (s : State) :
    (s.rotate rot).writeData data = mapNext (State.rotate rot) (s.writeData data) := by
  rw [State.writeData, State.writeLoop_rotate]
  refine andThen_mapNext _ fun u => ?_
  have hhavocs : (u.rotate rot).havocs data = u.havocs data := rfl
  rw [hhavocs]
  split
  · exact State.havocWindow_rotate rot u
  · rfl

/-- A write and its notification. -/
theorem writeData_notify_rotate (data : List Byte) (s : State) :
    andThen ((s.rotate rot).writeData data) (fun u => .next (u.notify .frame)) =
      mapNext (State.rotate rot) (andThen (s.writeData data) fun u => .next (u.notify .frame)) := by
  rw [State.writeData_rotate]
  exact andThen_mapNext _ fun _ => rfl

theorem State.storePixel_rotate (x y : Nat) (color : U32) (s : State) :
    (s.rotate rot).storePixel x y color = mapNext (State.rotate rot) (s.storePixel x y color) := by
  have hfmt : (s.rotate rot).ss.fmt = s.ss.fmt := rfl
  unfold State.storePixel
  rw [hfmt]
  cases formatClass s.ss.fmt with
  | bytes n => exact State.storeBytes_rotate rot _ _ s
  | packed => exact State.storeByte_rotate rot _ _ s

theorem whenEnabled_rotate {k : State → Result} (s : State)
    (h : k (s.rotate rot) = mapNext (State.rotate rot) (k s)) :
    whenEnabled (s.rotate rot) k = mapNext (State.rotate rot) (whenEnabled s k) := by
  have henabled : (s.rotate rot).ss.enabled = s.ss.enabled := rfl
  unfold whenEnabled
  rw [henabled]
  split
  · exact h
  · rfl

theorem withFixedPart_rotate {α : Type} (t : Byte) (p : Payload α) {k : α → List Byte → State → Result} (s : State)
    (h : ∀ a rest, k a rest (s.rotate rot) = mapNext (State.rotate rot) (k a rest s)) :
    withFixedPart t p (s.rotate rot) k = mapNext (State.rotate rot) (withFixedPart t p s k) := by
  cases p with
  | short bytes => rfl
  | full a rest => exact h a rest

theorem setWindowThen_rotate (r : RectArgs) {k : State → Result} (s : State)
    (h : ∀ u, k (u.rotate rot) = mapNext (State.rotate rot) (k u)) :
    setWindowThen r (s.rotate rot) k = mapNext (State.rotate rot) (setWindowThen r s k) := by
  have hvalid : (s.rotate rot).ss.validRect = s.ss.validRect := rfl
  unfold setWindowThen
  rw [hvalid]
  split
  · exact h { s with win := windowOf s.ss r.x.toNat r.y.toNat r.w.toNat r.h.toNat }
  · rfl

theorem drawPointThen_rotate (p : PointArgs) {k : State → Result} (s : State)
    (h : ∀ u, k (u.rotate rot) = mapNext (State.rotate rot) (k u)) :
    drawPointThen p (s.rotate rot) k = mapNext (State.rotate rot) (drawPointThen p s k) := by
  have hwidth : (s.rotate rot).ss.width = s.ss.width := rfl
  have hheight : (s.rotate rot).ss.height = s.ss.height := rfl
  unfold drawPointThen
  rw [hwidth, hheight]
  split
  · rfl
  · rw [State.storePixel_rotate]
    exact andThen_mapNext _ h

theorem execSetWindow_rotate (p : Payload RectArgs) (s : State) :
    execSetWindow p (s.rotate rot) = mapNext (State.rotate rot) (execSetWindow p s) := by
  refine whenEnabled_rotate rot s ?_
  refine withFixedPart_rotate rot _ p s fun r _ => ?_
  exact setWindowThen_rotate rot r s fun _ => rfl

theorem execWrite_rotate (data : List Byte) (s : State) :
    execWrite data (s.rotate rot) = mapNext (State.rotate rot) (execWrite data s) :=
  whenEnabled_rotate rot s (writeData_notify_rotate rot data s)

theorem execSetWindowWrite_rotate (p : Payload RectArgs) (s : State) :
    execSetWindowWrite p (s.rotate rot) = mapNext (State.rotate rot) (execSetWindowWrite p s) := by
  refine whenEnabled_rotate rot s ?_
  refine withFixedPart_rotate rot _ p s fun r data => ?_
  exact setWindowThen_rotate rot r s (writeData_notify_rotate rot data)

theorem execDrawPoint_rotate (p : Payload PointArgs) (s : State) :
    execDrawPoint p (s.rotate rot) = mapNext (State.rotate rot) (execDrawPoint p s) := by
  refine whenEnabled_rotate rot s ?_
  refine withFixedPart_rotate rot _ p s fun a _ => ?_
  exact drawPointThen_rotate rot a s fun _ => rfl

theorem State.gate_rotate (c : InputClass) (s : State) : (s.rotate rot).gate c = s.gate c := rfl

theorem sendGated_rotate (c : InputClass) (i : Instr) (s : State) :
    sendGated c i (s.rotate rot) = mapNext (State.rotate rot) (sendGated c i s) := by
  unfold sendGated
  rw [State.gate_rotate]
  split <;> rfl

theorem State.throttleSends_rotate (th : Throttle) (btn : Byte) (extra : Bool) (s : State) :
    (s.rotate rot).throttleSends th btn extra = s.throttleSends th btn extra := rfl

theorem execEvTouch_rotate (x y : U16) (down : Bool) (s : State) :
    execEvTouch x y down (s.rotate rot) = mapNext (State.rotate rot) (execEvTouch x y down s) := by
  have henc : (s.rotate rot).enc = s.enc := rfl
  unfold execEvTouch
  rw [State.gate_rotate, State.throttleSends_rotate, henc]
  split <;> rfl

theorem execEvMouse_rotate (x y : U16) (wheel buttons : Byte) (s : State) :
    execEvMouse x y wheel buttons (s.rotate rot) =
      mapNext (State.rotate rot) (execEvMouse x y wheel buttons s) := by
  have henc : (s.rotate rot).enc = s.enc := rfl
  unfold execEvMouse
  rw [State.gate_rotate, State.throttleSends_rotate, henc]
  split <;> rfl

theorem execInitRequest_rotate (s : State) :
    execInitRequest (s.rotate rot) = mapNext (State.rotate rot) (execInitRequest s) := by
  have henabled : (s.rotate rot).ss.enabled = s.ss.enabled := rfl
  have henc : (s.rotate rot).enc = s.enc := rfl
  have hcfg : (s.rotate rot).cfg = s.cfg := rfl
  have helapsed : ∀ t0, (s.rotate rot).elapsed t0 = s.elapsed t0 := fun _ => rfl
  unfold execInitRequest
  rw [henabled, henc, hcfg]
  split
  · rfl
  · cases s.enc.ireqStart with
    | none => rfl
    | some t0 =>
      dsimp only
      rw [helapsed]
      split <;> rfl

/-- Every instruction but init commutes with a change of the rotation. -/
theorem exec_rotate {i : Instr} (hi : ∀ p, i ≠ .init p) (s : State) :
    exec i (s.rotate rot) = mapNext (State.rotate rot) (exec i s) := by
  cases i with
  | init p => exact absurd rfl (hi p)
  | setWindow p => exact execSetWindow_rotate rot p s
  | write data => exact execWrite_rotate rot data s
  | setWindowWrite p => exact execSetWindowWrite_rotate rot p s
  | drawPoint p => exact execDrawPoint_rotate rot p s
  | ignored00 _ | ignored06to07 _ _ | ignored08to0F _ _ | ignored10to1F _ _ | ignored20to3F _ _ | ignored40to7F _ _
  | ignored80toFF _ _ => rfl
  | evKeyboard _ _ _ _ _ | evButton _ _ | evEncoder _ _ => exact sendGated_rotate rot _ _ s
  | evTouch x y down => exact execEvTouch_rotate rot x y down s
  | evMouse x y wheel buttons => exact execEvMouse_rotate rot x y wheel buttons s
  | initRequest => exact execInitRequest_rotate rot s

end Rotate

/-- Settles O42: the instruction and the change of the rotation commute. -/
theorem rotationIsNeverRead : Obligations.RotationIsNeverRead := by
  intro i s t rot hi h
  exact (exec_rotate rot hi s).trans (congrArg (mapNext (State.rotate rot)) h)

end Sys2Proof.Machine
end

section
/-! The outputs that an instruction adds (00_scope R5, 60_exceptions R250), and the parts of the state that the
instructions of one direction keep (44_events R210, R221). -/

namespace Sys2Proof.Machine

/-- The outputs of a command: at most one error, then at most one notification (60_exceptions R250). -/
def commandOutputs (e : Option EngineError) (k : Option Notification) : List Output :=
  (e.map Output.err).toList ++ (k.map Output.notify).toList

theorem tx_notMem_commandOutputs (e : Option EngineError) (k : Option Notification) (b : List Byte) :
    Output.tx b ∉ commandOutputs e k := by
  cases e <;> cases k <;> simp [commandOutputs]

/-- From `s` to `t` the outputs of one command were added. -/
def AddsCommandOutputs (s t : State) : Prop := ∃ e k, t.out = s.out ++ commandOutputs e k

theorem AddsCommandOutputs.refl (s : State) : AddsCommandOutputs s s := ⟨none, none, (List.append_nil _).symm⟩

theorem AddsCommandOutputs.report (s : State) (e : EngineError) : AddsCommandOutputs s (s.report e) :=
  ⟨some e, none, rfl⟩

theorem execInit_outputs {p : Payload InitArgs} {s t : State} (h : execInit p s = .next t) :
    AddsCommandOutputs s t := by
  cases p with
  | short bytes =>
    obtain rfl := Host.Outcome.next.inj h
    exact .report s _
  | full a rest =>
    rw [execInit, withFixedPart_full] at h
    rcases State.initScreen_cases a s with ⟨e, he⟩ | ⟨fmt, -, -, -, -, -, hacc⟩
    · rw [he, State.rejectInit_eq] at h
      obtain rfl := Host.Outcome.next.inj h
      exact ⟨some e, some .params, rfl⟩
    · rw [hacc, State.acceptInit_eq] at h
      obtain rfl := Host.Outcome.next.inj h
      exact ⟨none, some .params, rfl⟩

theorem execSetWindow_outputs {p : Payload RectArgs} {s t : State} (h : execSetWindow p s = .next t) :
    AddsCommandOutputs s t := by
  rcases whenEnabled_withFixedPart_cases h with rfl | ⟨e, rfl⟩ | ⟨r, rest, -, hrun⟩
  · exact .refl t
  · exact .report s e
  · rcases setWindowThen_eq_next.1 hrun with ⟨-, hset⟩ | ⟨-, rfl⟩
    · obtain rfl := Host.Outcome.next.inj hset
      exact .refl s
    · exact .report s _

/-- A write and its notification. -/
theorem writeData_notify_outputs {data : List Byte} {s t : State}
    (h : andThen (s.writeData data) (fun u => .next (u.notify .frame)) = .next t) : AddsCommandOutputs s t := by
  obtain ⟨u, hu, hn⟩ := andThen_eq_next.1 h
  obtain rfl := Host.Outcome.next.inj hn
  have hout : u.out = s.out := (congrArg State.out (State.writeData_writesOnly hu).state :)
  exact ⟨none, some .frame, by rw [State.notify_out, hout]; rfl⟩

theorem execWrite_outputs {data : List Byte} {s t : State} (h : execWrite data s = .next t) :
    AddsCommandOutputs s t := by
  rcases whenEnabled_eq_next.1 h with ⟨-, rfl⟩ | ⟨-, hw⟩
  · exact .refl t
  · exact writeData_notify_outputs hw

theorem execSetWindowWrite_outputs {p : Payload RectArgs} {s t : State} (h : execSetWindowWrite p s = .next t) :
    AddsCommandOutputs s t := by
  rcases whenEnabled_withFixedPart_cases h with rfl | ⟨e, rfl⟩ | ⟨r, data, -, hrun⟩
  · exact .refl t
  · exact .report s e
  · rcases setWindowThen_eq_next.1 hrun with ⟨-, hw⟩ | ⟨-, rfl⟩
    · have hadds := writeData_notify_outputs hw
      exact hadds
    · exact .report s _

theorem execDrawPoint_outputs {p : Payload PointArgs} {s t : State} (h : execDrawPoint p s = .next t) :
    AddsCommandOutputs s t := by
  rcases whenEnabled_withFixedPart_cases h with rfl | ⟨e, rfl⟩ | ⟨a, rest, -, hrun⟩
  · exact .refl t
  · exact .report s e
  · rcases drawPointThen_eq_next.1 hrun with ⟨-, u, hu, hn⟩ | ⟨-, rfl⟩
    · obtain rfl := Host.Outcome.next.inj hn
      have hout : u.out = s.out := (congrArg State.out (State.storePixel_storesOnly hu).state :)
      exact ⟨none, some .frame, by rw [State.notify_out, hout]; rfl⟩
    · exact .report s _

/-- From `s` to `t` nothing was sent, or one frame was. -/
def SendsAtMostOne (s t : State) : Prop := t.out = s.out ∨ ∃ b, t.out = s.out ++ [.tx b]

theorem sendGated_sends {c : InputClass} {i : Instr} {s t : State} (h : sendGated c i s = .next t) :
    SendsAtMostOne s t := by
  rcases sendGated_eq_next.1 h with ⟨-, rfl⟩ | ⟨-, rfl⟩
  · exact .inr ⟨_, rfl⟩
  · exact .inl rfl

theorem execEvTouch_sends {x y : U16} {down : Bool} {s t : State} (h : execEvTouch x y down s = .next t) :
    SendsAtMostOne s t := by
  unfold execEvTouch at h
  split at h
  · obtain rfl := Host.Outcome.next.inj h
    exact .inr ⟨_, rfl⟩
  · obtain rfl := Host.Outcome.next.inj h
    exact .inl rfl

theorem execEvMouse_sends {x y : U16} {wheel buttons : Byte} {s t : State}
    (h : execEvMouse x y wheel buttons s = .next t) : SendsAtMostOne s t := by
  unfold execEvMouse at h
  split at h
  · obtain rfl := Host.Outcome.next.inj h
    exact .inr ⟨_, rfl⟩
  · obtain rfl := Host.Outcome.next.inj h
    exact .inl rfl

/-- Only a due timer sends (44_events R218). -/
theorem execInitRequest_sends {s t : State} (h : execInitRequest s = .next t) : SendsAtMostOne s t := by
  unfold execInitRequest at h
  split at h
  · obtain rfl := Host.Outcome.next.inj h
    exact .inl rfl
  · split at h
    · obtain rfl := Host.Outcome.next.inj h
      exact .inl rfl
    · split at h
      · obtain rfl := Host.Outcome.next.inj h
        exact .inr ⟨_, rfl⟩
      · obtain rfl := Host.Outcome.next.inj h
        exact .inl rfl

section Directions

variable {i : Instr} {s t : State}

theorem exec_inbound_outputs (hd : i.direction = .inbound) (h : exec i s = .next t) : AddsCommandOutputs s t := by
  cases i with
  | init p => exact execInit_outputs h
  | setWindow p => exact execSetWindow_outputs h
  | write data => exact execWrite_outputs h
  | setWindowWrite p => exact execSetWindowWrite_outputs h
  | drawPoint p => exact execDrawPoint_outputs h
  | ignored00 _ | ignored06to07 _ _ | ignored08to0F _ _ | ignored10to1F _ _ | ignored20to3F _ _ | ignored40to7F _ _
  | ignored80toFF _ _ =>
    obtain rfl := Host.Outcome.next.inj h
    exact .refl s
  | _ => nomatch hd

theorem exec_outbound_sends (hd : i.direction = .outbound) (h : exec i s = .next t) : SendsAtMostOne s t := by
  cases i with
  | evKeyboard _ _ _ _ _ | evButton _ _ | evEncoder _ _ => exact sendGated_sends h
  | evTouch x y down => exact execEvTouch_sends h
  | evMouse x y wheel buttons => exact execEvMouse_sends h
  | initRequest => exact execInitRequest_sends h
  | _ => nomatch hd

theorem exec_inbound_touch (hd : i.direction = .inbound) (h : exec i s = .next t) : t.enc.touch = s.enc.touch := by
  by_contra hne
  obtain ⟨x, y, d, rfl⟩ := touch_writer h hne
  nomatch hd

theorem exec_inbound_mouse (hd : i.direction = .inbound) (h : exec i s = .next t) : t.enc.mouse = s.enc.mouse := by
  by_contra hne
  obtain ⟨x, y, w, b, rfl⟩ := mouse_writer h hne
  nomatch hd

theorem exec_outbound_ss (hd : i.direction = .outbound) (h : exec i s = .next t) : t.ss = s.ss := by
  by_contra hne
  obtain ⟨p, rfl⟩ := ss_writer h hne
  nomatch hd

theorem exec_outbound_win (hd : i.direction = .outbound) (h : exec i s = .next t) : t.win = s.win := by
  by_contra hne
  rcases win_writer h hne with ⟨p, rfl⟩ | ⟨p, rfl⟩ | ⟨d, rfl⟩ | ⟨p, rfl⟩ <;> nomatch hd

theorem exec_outbound_fb (hd : i.direction = .outbound) (h : exec i s = .next t) : t.fb = s.fb := by
  by_contra hne
  rcases fb_writer h hne with ⟨p, rfl⟩ | ⟨d, rfl⟩ | ⟨p, rfl⟩ | ⟨p, rfl⟩ <;> nomatch hd

end Directions

theorem decodeInbound_direction (t : Byte) (p : List Byte) : (decodeInbound t p).direction = .inbound := by
  simp only [decodeInbound, apply_ite Instr.direction]
  simp only [Instr.direction, ite_self]

theorem eventInstr_direction (ev : Event) : (eventInstr ev).direction = .outbound := by cases ev <;> rfl

theorem step_of_inbox {s : State} {tr : Transaction} {rest : List Transaction} (hin : s.inbox = tr :: rest) :
    step s = transact tr { s.startStep with inbox := rest } := by
  rw [step, hin]

/-- What a Tick or Input transaction keeps and sends: it sets the time and runs an outbound instruction (44_events
R210). -/
theorem exec_outbound_setNow {i : Instr} {now : U32} {s t : State} (hd : i.direction = .outbound)
    (hout : s.out = []) (h : exec i (s.setNow now) = .next t) :
    t.ss = s.ss ∧ t.win = s.win ∧ t.fb = s.fb ∧ t.ra = s.ra ∧ (t.out = [] ∨ ∃ b, t.out = [.tx b]) := by
  have hsend := exec_outbound_sends hd h
  rw [SendsAtMostOne, State.setNow_out, hout] at hsend
  exact ⟨(exec_outbound_ss hd h :), (exec_outbound_win hd h :), (exec_outbound_fb hd h :), (exec_ra h :), hsend⟩

end Sys2Proof.Machine
end

section
/-! A byte's path beside the outbound one: the loop of the Reassembler sends nothing and keeps the throttles and the time
latch (10_state R57, 20_memory R75, 44_events R210). -/

namespace Sys2Proof.Machine

/-- An action adds its report to the outputs, if it has one. -/
theorem State.afterAction_out (r : ActionResult) (s : State) :
    (s.afterAction r).out = s.out ++ (r.report.map Output.err).toList := by
  obtain ⟨ra, report, emitted, waits⟩ := r
  cases report with
  | none => exact (List.append_nil _).symm
  | some e => rfl

@[simp] theorem State.afterAction_enc (r : ActionResult) (s : State) : (s.afterAction r).enc = s.enc := by
  obtain ⟨ra, report, emitted, waits⟩ := r
  cases report <;> rfl

@[simp] theorem State.afterAction_now (r : ActionResult) (s : State) : (s.afterAction r).now = s.now := by
  obtain ⟨ra, report, emitted, waits⟩ := r
  cases report <;> rfl

/-- From `s` to `t` nothing was sent, and neither a throttle nor the time latch was written. -/
structure OutboundKept (s t : State) : Prop where
  touch : t.enc.touch = s.enc.touch
  mouse : t.enc.mouse = s.enc.mouse
  now : t.now = s.now
  sent : ∀ b, .tx b ∈ t.out → .tx b ∈ s.out

theorem OutboundKept.refl (s : State) : OutboundKept s s := ⟨rfl, rfl, rfl, fun _ => id⟩

theorem OutboundKept.trans {s t u : State} (h : OutboundKept s t) (h' : OutboundKept t u) : OutboundKept s u where
  touch := h'.touch.trans h.touch
  mouse := h'.mouse.trans h.mouse
  now := h'.now.trans h.now
  sent b hb := h.sent b (h'.sent b hb)

theorem State.afterAction_outboundKept (r : ActionResult) (s : State) : OutboundKept s (s.afterAction r) where
  touch := by rw [State.afterAction_enc]
  mouse := by rw [State.afterAction_enc]
  now := State.afterAction_now r s
  sent b hb := by simpa [State.afterAction_out] using hb

theorem exec_inbound_outboundKept {i : Instr} {s t : State} (hd : i.direction = .inbound)
    (h : exec i s = .next t) : OutboundKept s t where
  touch := exec_inbound_touch hd h
  mouse := exec_inbound_mouse hd h
  now := exec_now h
  sent b hb := by
    obtain ⟨e, k, hout⟩ := exec_inbound_outputs hd h
    simpa [hout, tx_notMem_commandOutputs] using hb

theorem State.emitFrame_outboundKept {ty : Byte} {p : List Byte} {s t : State} (h : s.emitFrame ty p = .next t) :
    OutboundKept s t := by
  have houtput : OutboundKept s (s.output (.frame ty p)) := ⟨rfl, rfl, rfl, fun b hb => by simpa using hb⟩
  exact houtput.trans (exec_inbound_outboundKept (decodeInbound_direction ty p) h)

theorem runActions_outboundKept {n : Nat} {s t : State} (h : runActions n s = .next t) : OutboundKept s t := by
  induction n generalizing s with
  | zero =>
    obtain rfl := Host.Outcome.next.inj h
    exact .refl s
  | succ n ih =>
    have hact := State.afterAction_outboundKept (act s.cfg.maxPayload s.ra) s
    rw [runActions] at h
    split at h
    · obtain ⟨u, hu, hrest⟩ := andThen_eq_next.1 h
      exact hact.trans ((State.emitFrame_outboundKept hu).trans (ih hrest))
    · split at h
      · obtain rfl := Host.Outcome.next.inj h
        exact hact
      · exact hact.trans (ih h)

theorem rxByte_outboundKept {b : Byte} {s t : State} (h : rxByte b s = .next t) : OutboundKept s t := by
  have hrun : OutboundKept (s.receive [b]) t := runActions_outboundKept h
  exact ⟨hrun.touch, hrun.mouse, hrun.now, hrun.sent⟩

/-- Settles O40: a byte runs inbound commands alone, a Tick or an Input one outbound instruction. -/
theorem pathsAreIndependent : Obligations.PathsAreIndependent := by
  intro s t tr rest hin h
  rw [step_of_inbox hin] at h
  cases tr with
  | rxByte b =>
    have hkept := rxByte_outboundKept h
    exact ⟨hkept.touch, hkept.mouse, hkept.now, fun b hb => List.not_mem_nil (hkept.sent b hb)⟩
  | tick now =>
    have hkept := exec_outbound_setNow (i := .initRequest) rfl rfl h
    exact hkept
  | input ev now =>
    have hkept := exec_outbound_setNow (eventInstr_direction ev) rfl h
    exact hkept

end Sys2Proof.Machine
end

section
/-! The outputs of a step in order (60_exceptions R250): one received byte completes at most one frame, and then no other
byte is left, so no framing error stands beside a frame. -/

namespace Sys2Proof.Machine

/-- A framing error of the Reassembler (40_reassembler R112, R113). -/
def IsFramingError (o : Output) : Prop := ∃ k : Nat, o = .err (.syncDiscard k) ∨ o = .err (.length k)

theorem discardReport_isFramingError {k : Nat} {e : EngineError} (h : discardReport k = some e) :
    IsFramingError (.err e) := by
  unfold discardReport at h
  split at h
  · obtain rfl := Option.some.inj h
    exact ⟨k, .inl rfl⟩
  · nomatch h

/-- The Reassembler reports framing errors alone. -/
theorem act_report_isFramingError {mp : U32} {ra : Reassembler} {e : EngineError} (h : (act mp ra).report = some e) :
    IsFramingError (.err e) := by
  unfold act at h
  split at h
  · unfold actSeek at h
    split at h <;> exact discardReport_isFramingError h
  · unfold actHeader at h
    split_ifs at h
    obtain rfl := Option.some.inj h
    exact ⟨_, .inr rfl⟩
  · unfold actPayload at h
    split_ifs at h

/-- From `s` to `t` framing errors were added to the outputs, and nothing else. -/
def AddsFramingErrors (s t : State) : Prop := ∃ framing, t.out = s.out ++ framing ∧ ∀ o ∈ framing, IsFramingError o

theorem AddsFramingErrors.refl (s : State) : AddsFramingErrors s s := ⟨[], (List.append_nil _).symm, by simp⟩

theorem AddsFramingErrors.trans {s t u : State} (h : AddsFramingErrors s t) (h' : AddsFramingErrors t u) :
    AddsFramingErrors s u := by
  obtain ⟨f, hf, hall⟩ := h
  obtain ⟨g, hg, hall'⟩ := h'
  refine ⟨f ++ g, by rw [hg, hf, List.append_assoc], fun o ho => ?_⟩
  rcases List.mem_append.1 ho with ho | ho
  · exact hall o ho
  · exact hall' o ho

theorem afterAction_addsFramingErrors (mp : U32) (ra : Reassembler) (s : State) :
    AddsFramingErrors s (s.afterAction (act mp ra)) := by
  refine ⟨_, State.afterAction_out _ s, fun o ho => ?_⟩
  obtain ⟨e, he, rfl⟩ := Option.map_eq_some_iff.1 (Option.mem_toList.1 ho)
  exact act_report_isFramingError he

/-- `Q` holds less than a header, or less than the frame whose payload is being received: no action can emit a frame. -/
def Reassembler.Incomplete (ra : Reassembler) : Prop :=
  ra.q.length < 7 ∨ ra.state = .readPayload ∧ ra.q.length < 7 + ra.len.toNat

/-- An action on an incomplete frame emits none and leaves none complete. -/
theorem act_incomplete (mp : U32) {ra : Reassembler} (h : ra.Incomplete) :
    (act mp ra).emitted = none ∧ (act mp ra).ra.Incomplete := by
  obtain ⟨st, q, t, len⟩ := ra
  cases st with
  | seekSync =>
    have hq : q.length < 7 := by simpa [Reassembler.Incomplete] using h
    rw [act, actSeek]
    dsimp only
    split
    · exact ⟨rfl, .inl (by simp only [List.length_drop]; omega)⟩
    · exact ⟨rfl, .inl (by simp only [List.length_drop]; omega)⟩
  | readHeader =>
    have hq : q.length < 7 := by simpa [Reassembler.Incomplete] using h
    rw [act, actHeader, if_pos hq]
    exact ⟨rfl, h⟩
  | readPayload =>
    have hq : q.length < 7 + len.toNat := by
      rcases h with hq | ⟨-, hq⟩
      · exact Nat.lt_add_right _ hq
      · exact hq
    rw [act, actPayload, if_pos hq]
    exact ⟨rfl, h⟩

/-- A loop whose first action emits no frame and leaves none complete adds framing errors alone. -/
theorem runActions_addsFramingErrors {n : Nat} {s t : State} (hemit : (act s.cfg.maxPayload s.ra).emitted = none)
    (hinc : (act s.cfg.maxPayload s.ra).ra.Incomplete) (h : runActions n s = .next t) : AddsFramingErrors s t := by
  induction n generalizing s with
  | zero =>
    obtain rfl := Host.Outcome.next.inj h
    exact .refl s
  | succ n ih =>
    have hact := afterAction_addsFramingErrors s.cfg.maxPayload s.ra s
    rw [runActions, hemit] at h
    dsimp only at h
    split at h
    · obtain rfl := Host.Outcome.next.inj h
      exact hact
    · rw [← State.afterAction_ra (act s.cfg.maxPayload s.ra) s] at hinc
      obtain ⟨hemit', hinc'⟩ := act_incomplete _ hinc
      exact hact.trans (ih hemit' hinc' h)

/-- The last byte of a header is the last of a frame without a payload, or no frame is complete. -/
theorem actHeader_seven (mp : U32) {ra : Reassembler} (hq : ra.q.length = 7) :
    (∃ t, actHeader mp ra = consumed ra t []) ∨
      (actHeader mp ra).emitted = none ∧ (actHeader mp ra).ra.Incomplete := by
  unfold actHeader
  split_ifs with hshort hmax hzero
  · omega
  · exact .inr ⟨rfl, .inl (by simp only [List.length_drop]; omega)⟩
  · left
    exact ⟨headerType ra.q, by rw [consumed, List.drop_eq_nil_of_le hq.le]⟩
  · have hlen : (BitVec.ofNat 32 (headerLen ra.q)).toNat = headerLen ra.q := by
      have := mp.isLt
      rw [BitVec.toNat_ofNat]
      exact Nat.mod_eq_of_lt (by omega)
    exact .inr ⟨rfl, .inr ⟨rfl, by dsimp only; omega⟩⟩

/-- One more byte in a waiting Reassembler completes a frame and leaves nothing in `Q`, or no frame is complete. -/
theorem act_receive_byte {mp : U32} {ra : Reassembler} (h : ReassemblerOk mp ra) (b : Byte) :
    (∃ t p, act mp (ra.receive [b]) = consumed (ra.receive [b]) t p) ∨
      (act mp (ra.receive [b])).emitted = none ∧ (act mp (ra.receive [b])).ra.Incomplete := by
  by_cases hinc : (ra.receive [b]).Incomplete
  · exact .inr (act_incomplete mp hinc)
  · obtain ⟨st, q, t, len⟩ := ra
    have hlen : (q ++ [b]).length = q.length + 1 := List.length_append
    have hseven : ¬ (q ++ [b]).length < 7 := fun hlt => hinc (.inl hlt)
    cases st with
    | seekSync =>
      have hq : q.length ≤ 1 := by rcases h with rfl | rfl <;> decide
      omega
    | readHeader =>
      obtain ⟨-, hq⟩ := h
      dsimp only at hq
      have hact := actHeader_seven mp (ra := Reassembler.receive ⟨.readHeader, q, t, len⟩ [b])
        (by show (q ++ [b]).length = 7; omega)
      exact hact.imp_left fun ⟨ty, he⟩ => ⟨ty, [], he⟩
    | readPayload =>
      obtain ⟨-, -, hq, -⟩ := h
      dsimp only at hq
      have hfull : ¬ (q ++ [b]).length < 7 + len.toNat := fun hlt => hinc (.inr ⟨rfl, hlt⟩)
      have hdrop : (q ++ [b]).drop (7 + len.toNat) = [] := List.drop_eq_nil_of_le (by omega)
      refine .inl ⟨t, ((q ++ [b]).drop 7).take len.toNat, ?_⟩
      show actPayload ⟨.readPayload, q ++ [b], t, len⟩ = _
      rw [actPayload, if_neg hfull, hdrop]
      rfl

/-- A received byte adds framing errors alone, or one frame and its command's outputs. -/
theorem rxByte_outputs {b : Byte} {s t : State} (hra : ReassemblerOk s.cfg.maxPayload s.ra)
    (h : rxByte b s = .next t) :
    AddsFramingErrors s t ∨ ∃ ty p e k, t.out = s.out ++ .frame ty p :: commandOutputs e k := by
  rcases act_receive_byte hra b with ⟨ty, p, hact⟩ | ⟨hemit, hinc⟩
  · right
    have hrun : rxByte b s = ((s.receive [b]).afterAction (consumed (s.receive [b]).ra ty p)).emitFrame ty p :=
      runActions_consumed _ hact
    obtain ⟨e, k, hout⟩ := exec_inbound_outputs (decodeInbound_direction ty p) (hrun.symm.trans h)
    exact ⟨ty, p, e, k, hout.trans (List.append_assoc _ _ _)⟩
  · left
    have hadds : AddsFramingErrors (s.receive [b]) t := runActions_addsFramingErrors hemit hinc h
    exact hadds

/-- A command adds at most one error, then at most one notification. -/
theorem commandOutputs_split (e : Option EngineError) (k : Option Notification) :
    ∃ errs notes, commandOutputs e k = errs ++ notes ∧
      errs.length ≤ 1 ∧ (∀ o ∈ errs, ∃ e : EngineError, o = .err e) ∧
      notes.length ≤ 1 ∧ (∀ o ∈ notes, ∃ k : Notification, o = .notify k) := by
  refine ⟨_, _, rfl, ?_, ?_, ?_, ?_⟩
  · cases e <;> simp
  · cases e <;> simp
  · cases k <;> simp
  · cases k <;> simp

/-- The three forms of a step's outputs: framing errors, one transmitted frame, or one emitted frame and the outputs of
its command. -/
def OutputsInOrder (out : List Output) : Prop :=
  (∀ o ∈ out, IsFramingError o) ∨ (∃ b, out = [.tx b]) ∨ ∃ ty p e k, out = .frame ty p :: commandOutputs e k

theorem OutputsInOrder.nil : OutputsInOrder [] := .inl (by simp)

theorem OutputsInOrder.of_sent {out : List Output} (h : out = [] ∨ ∃ b, out = [.tx b]) : OutputsInOrder out := by
  rcases h with rfl | hsent
  · exact .nil
  · exact .inr (.inl hsent)

theorem transact_outputsInOrder {tr : Transaction} {s t : State} (hra : ReassemblerOk s.cfg.maxPayload s.ra)
    (hnil : s.out = []) (h : transact tr s = .next t) : OutputsInOrder t.out := by
  cases tr with
  | rxByte b =>
    rcases rxByte_outputs hra h with ⟨framing, hout, hall⟩ | ⟨ty, p, e, k, hout⟩
    · rw [hnil] at hout
      exact .inl (hout ▸ hall)
    · rw [hnil] at hout
      exact .inr (.inr ⟨ty, p, e, k, hout⟩)
  | tick now =>
    obtain ⟨-, -, -, -, hsent⟩ := exec_outbound_setNow (i := .initRequest) rfl hnil h
    exact .of_sent hsent
  | input ev now =>
    obtain ⟨-, -, -, -, hsent⟩ := exec_outbound_setNow (eventInstr_direction ev) hnil h
    exact .of_sent hsent

theorem step_outputsInOrder {s t : State} (hra : ReassemblerOk s.cfg.maxPayload s.ra) (h : step s = .next t) :
    OutputsInOrder t.out := by
  cases hin : s.inbox with
  | nil =>
    rw [step, hin] at h
    obtain rfl := Host.Outcome.next.inj h
    exact .nil
  | cons tr rest =>
    rw [step_of_inbox hin] at h
    exact transact_outputsInOrder (s := { s.startStep with inbox := rest }) hra rfl h

/-- Settles O15: of the invariant the three forms need that the Reassembler waits. -/
theorem outputsComeInOrder : Obligations.OutputsComeInOrder := by
  intro s t hinv h
  rcases step_outputsInOrder hinv.reassembler h with hall | hsent | ⟨ty, p, e, k, hout⟩
  · exact ⟨t.out, [], (List.append_nil _).symm, hall, .inl rfl⟩
  · exact ⟨[], t.out, rfl, by simp, .inr (.inl ⟨rfl, hsent⟩)⟩
  · obtain ⟨errs, notes, hsplit, hcommand⟩ := commandOutputs_split e k
    exact ⟨[], t.out, rfl, by simp, .inr (.inr ⟨ty, p, errs, notes, by rw [hout, hsplit], hcommand⟩)⟩

end Sys2Proof.Machine
end

section
/-! Both decoders read back what the encoder writes, and the inbound one reads nothing else (30_encoding R80 to R98). -/

namespace Sys2Proof

/-! ## Inbound frames -/

/-- Settles O1: the decoder cuts the frame at its length, and the inbound map undoes the encoding. -/
theorem inboundFrameDecodesBack : Obligations.InboundFrameDecodesBack := by
  intro i rest hd hwf
  obtain ⟨hfits, hsize⟩ := (Instr.wellFormed_iff i).1 hwf
  have hlen : (payloadBytes i).length < 2 ^ 32 := by rwa [payloadBytes_length]
  rw [encode, decode_frameBytes _ _ _ _ hlen, decodeInbound_typeByte_payloadBytes hd hfits]

/-- The type byte of the command of a frame is the frame's: the low bits that a row keeps complete it. -/
theorem typeByte_decodeInbound (t : Byte) (p : List Byte) : typeByte (decodeInbound t p) = t := by
  refine decodeInbound_cases (fun i => typeByte i = t) t p ?_ ?_ ?_ ?_ ?_ ?_ (typeByte_06to07 t) (typeByte_08to0F t)
    (typeByte_10to1F t) (typeByte_20to3F t) (typeByte_40to7F t) id
  all_goals exact Eq.symm

/-- The command of a frame has the frame's payload, its `short` form being short. -/
theorem payload_decodeInbound (t : Byte) (p : List Byte) :
    payloadBytes (decodeInbound t p) = p ∧ (decodeInbound t p).payloadFits = true := by
  obtain ⟨hinit, hinitFits, _⟩ := initBytes_parseInit p
  obtain ⟨hrect, hrectFits, _⟩ := rectBytes_parseRect p
  obtain ⟨hpoint, hpointFits, _⟩ := pointBytes_parsePoint p
  refine decodeInbound_cases (fun i => payloadBytes i = p ∧ i.payloadFits = true) t p (fun _ => ⟨hinit, hinitFits⟩)
    (fun _ => ⟨hrect, hrectFits⟩) ?_ (fun _ => ⟨hrect, hrectFits⟩) (fun _ => ⟨hpoint, hpointFits⟩) ?_ ?_ ?_ ?_ ?_ ?_ ?_
  all_goals exact fun _ => ⟨rfl, rfl⟩

theorem encode_decodeInbound (t : Byte) (p : List Byte) : encode (decodeInbound t p) = frameBytes t p := by
  rw [encode, typeByte_decodeInbound, (payload_decodeInbound t p).1]

theorem wellFormed_decodeInbound (t : Byte) {p : List Byte} (h : p.length < 2 ^ 32) :
    (decodeInbound t p).wellFormed = true := by
  obtain ⟨hbytes, hfits⟩ := payload_decodeInbound t p
  exact (Instr.wellFormed_iff _).2 ⟨hfits, by rwa [← payloadBytes_length, hbytes]⟩

/-- A header whose length field asks for no more bytes than follow it begins a frame (30_encoding R80, R82). -/
theorem header_cons_eq_frameBytes_append (t l0 l1 l2 l3 : Byte) {body : List Byte}
    (h : leNat [l0, l1, l2, l3] ≤ body.length) :
    0xAA :: 0x55 :: t :: l0 :: l1 :: l2 :: l3 :: body =
      frameBytes t (body.take (leNat [l0, l1, l2, l3])) ++ body.drop (leNat [l0, l1, l2, l3]) := by
  have hfield : leBytes 4 (leNat [l0, l1, l2, l3]) = [l0, l1, l2, l3] := leBytes_leNat [l0, l1, l2, l3]
  rw [frameBytes, List.length_take_of_le h, hfield]
  simp

/-- What the inbound decoder accepts: a frame, of which it answers the command, and any bytes after it. -/
theorem decode_inbound_eq_ok {bytes rest : List Byte} {i : Instr} (h : decode .inbound bytes = .ok (i, rest)) :
    ∃ t p, p.length < 2 ^ 32 ∧ bytes = frameBytes t p ++ rest ∧ i = decodeInbound t p := by
  rw [decode.eq_def] at h
  split at h
  case h_2 => cases h
  case h_1 s0 s1 t l0 l1 l2 l3 body =>
    split at h
    case isFalse => cases h
    case isTrue hsync =>
      obtain ⟨rfl, rfl⟩ := hsync
      dsimp only at h
      split at h
      case isTrue => cases h
      case isFalse hlen =>
        obtain ⟨rfl, rfl⟩ := Prod.mk.inj (Except.ok.inj h)
        have hle := Nat.le_of_not_lt hlen
        have hlt : leNat [l0, l1, l2, l3] < 2 ^ 32 := by simpa using leNat_lt [l0, l1, l2, l3]
        exact ⟨t, _, by rwa [List.length_take_of_le hle], header_cons_eq_frameBytes_append t l0 l1 l2 l3 hle, rfl⟩

/-- Settles O3: the accepted bytes are a frame, and its command encodes to that frame. -/
theorem inboundBytesEncodeBack : Obligations.InboundBytesEncodeBack := by
  intro bytes i rest h
  obtain ⟨t, p, hlen, rfl, rfl⟩ := decode_inbound_eq_ok h
  exact ⟨Machine.decodeInbound_direction t p, wellFormed_decodeInbound t hlen, by rw [encode_decodeInbound]⟩

/-! ## The rows of the opcode table -/

/-- Every instruction's frame begins as its row of the opcode table says, and as no other row of its direction. -/
theorem encodedHeader (i : Instr) : Laws.EncodedHeader.Statement i := by
  cases i with
  | init p => exact Laws.EncodedHeader.init p
  | setWindow p => exact Laws.EncodedHeader.setWindow p
  | write data => exact Laws.EncodedHeader.write data
  | setWindowWrite p => exact Laws.EncodedHeader.setWindowWrite p
  | drawPoint p => exact Laws.EncodedHeader.drawPoint p
  | ignored00 payload => exact Laws.EncodedHeader.ignored00 payload
  | ignored06to07 low payload => exact Laws.EncodedHeader.ignored06to07 low payload
  | ignored08to0F low payload => exact Laws.EncodedHeader.ignored08to0F low payload
  | ignored10to1F low payload => exact Laws.EncodedHeader.ignored10to1F low payload
  | ignored20to3F low payload => exact Laws.EncodedHeader.ignored20to3F low payload
  | ignored40to7F low payload => exact Laws.EncodedHeader.ignored40to7F low payload
  | ignored80toFF low payload => exact Laws.EncodedHeader.ignored80toFF low payload
  | evKeyboard pressed rep keycode modifiers ascii =>
    exact Laws.EncodedHeader.evKeyboard pressed rep keycode modifiers ascii
  | evTouch x y down => exact Laws.EncodedHeader.evTouch x y down
  | evMouse x y wheel buttons => exact Laws.EncodedHeader.evMouse x y wheel buttons
  | evButton index pressed => exact Laws.EncodedHeader.evButton index pressed
  | evEncoder delta pressed => exact Laws.EncodedHeader.evEncoder delta pressed
  | initRequest => exact Laws.EncodedHeader.initRequest

/-- Settles O4: the frame is its command's, whose header matches the command's row alone. -/
theorem everyInboundTypeIsOneRow : Obligations.EveryInboundTypeIsOneRow := by
  intro t p
  have hrow := (encodedHeader (decodeInbound t p)).2
  rwa [Machine.decodeInbound_direction, typeByte_decodeInbound] at hrow

/-! ## Outbound frames -/

/-- A Bool field reads back (30_encoding R98). -/
@[simp] theorem withBool_boolByte (t : Byte) (b : Bool) (k : Bool → Instr) : withBool t (boolByte b) k = .ok (k b) := by
  cases b <;> rfl

/-- The bits of the keyboard state byte (30_encoding R92). -/
theorem keyStateByte_bits (pressed rep : Bool) :
    keyStateByte pressed rep &&& 0xFC = 0 ∧ (keyStateByte pressed rep).getLsbD 0 = pressed ∧
      (keyStateByte pressed rep).getLsbD 1 = rep := by
  revert pressed rep
  decide

/-- A u32 of which two bytes are sent reads back truncated to 16 bits (44_events R212). -/
theorem u32Of_low_bytes (v : U32) :
    u32Of (BitVec.ofNat 8 v.toNat) (BitVec.ofNat 8 (v.toNat / 256)) 0 0 = (v.setWidth 16).setWidth 32 := by
  apply BitVec.eq_of_toNat_eq
  have hzero : (0 : Byte).toNat = 0 := rfl
  simp only [u32Of_toNat, leNat, hzero, BitVec.toNat_ofNat, BitVec.toNat_setWidth]
  omega

theorem decodeKeyboard_payloadBytes (pressed rep : Bool) (keycode : U16) (modifiers : U32) (ascii : Byte) :
    decodeKeyboard (payloadBytes (.evKeyboard pressed rep keycode modifiers ascii)) =
      .ok (onWire (.evKeyboard pressed rep keycode modifiers ascii)) := by
  obtain ⟨hreserved, hpressed, hrep⟩ := keyStateByte_bits pressed rep
  have hmodifiers : leBytes 2 modifiers.toNat =
    [BitVec.ofNat 8 modifiers.toNat, BitVec.ofNat 8 (modifiers.toNat / 256)] := rfl
  simp only [payloadBytes, leBytes_two, hmodifiers, List.cons_append, List.nil_append, decodeKeyboard, hreserved,
    if_true, hpressed, hrep, u16Of_leBytes, u32Of_low_bytes, onWire]

/-- The outbound map undoes the encoding, but for the bits that the frame does not carry. -/
theorem decodeOutbound_typeByte_payloadBytes {i : Instr} (hd : i.direction = .outbound) :
    decodeOutbound (typeByte i) (payloadBytes i) = .ok (onWire i) := by
  cases i with
  | evKeyboard pressed rep keycode modifiers ascii =>
    exact decodeKeyboard_payloadBytes pressed rep keycode modifiers ascii
  | evTouch x y down =>
    show decodeTouch (payloadBytes (.evTouch x y down)) = _
    simp [payloadBytes, leBytes_two, decodeTouch, onWire]
  | evMouse x y wheel buttons =>
    show decodeMouse (payloadBytes (.evMouse x y wheel buttons)) = _
    simp [payloadBytes, leBytes_two, decodeMouse, onWire]
  | evButton index pressed => exact withBool_boolByte _ pressed _
  | evEncoder delta pressed => exact withBool_boolByte _ pressed _
  | initRequest => rfl
  | _ => cases hd

theorem payloadBytes_length_of_outbound {i : Instr} (hd : i.direction = .outbound) : (payloadBytes i).length ≤ 6 := by
  rw [payloadBytes_length]
  cases i with
  | evKeyboard _ _ _ _ _ | evTouch _ _ _ | evMouse _ _ _ _ | evButton _ _ | evEncoder _ _ | initRequest =>
    simp [Instr.payloadSize]
  | _ => cases hd

theorem decode_outbound_encode {i : Instr} (rest : List Byte) (hd : i.direction = .outbound) :
    decode .outbound (encode i ++ rest) = .ok (onWire i, rest) := by
  have hlen := payloadBytes_length_of_outbound hd
  rw [encode, decode_frameBytes _ _ _ _ (by omega), decodeOutbound_typeByte_payloadBytes hd]

/-- Truncating to 16 bits is masking the low half. -/
theorem setWidth_setWidth_eq_and (v : U32) : (v.setWidth 16).setWidth 32 = v &&& 0xFFFF := by
  apply BitVec.eq_of_toNat_eq
  have hmask : v.toNat &&& 0xFFFF = v.toNat % 2 ^ 16 := Nat.and_two_pow_sub_one_eq_mod v.toNat 16
  simp only [BitVec.toNat_setWidth, BitVec.toNat_and, BitVec.reduceToNat, hmask]
  omega

/-- Settles O2: the decoder cuts the frame at its length, and of the fields only the modifiers lose bits. -/
theorem outboundFrameDecodesBack : Obligations.OutboundFrameDecodesBack := by
  intro i rest hd
  rw [decode_outbound_encode rest hd]
  cases i with
  | evKeyboard pressed rep keycode modifiers ascii => rw [onWire, setWidth_setWidth_eq_and]
  | _ => rfl

/-! ## Written frames and mnemonics -/

/-- Settles O5: each of the written frames is the encoding of its instruction, which reads back. -/
theorem writtenFramesDecode : Obligations.WrittenFramesDecode :=
  ⟨inboundFrameDecodesBack (.init (.full ⟨4, 3, 2, 1, 0x1F⟩ [])) [] rfl rfl,
    inboundFrameDecodesBack (.drawPoint (.full ⟨3, 0x104, 0x1234F800⟩ [])) [0x77] rfl rfl,
    inboundFrameDecodesBack (.setWindow (.short [1, 2])) [] rfl rfl,
    inboundFrameDecodesBack (.ignored80toFF 0x7F [9]) [] rfl rfl,
    outboundFrameDecodesBack (.evMouse 10 20 0xFF 1) [] rfl,
    outboundFrameDecodesBack .initRequest [] rfl⟩

/-- Settles O6: a mnemonic's payload is the fixed part of the instruction's, the data after it being what the line
gives or nothing. -/
theorem notationStandsForFrames : Obligations.NotationStandsForFrames := by
  intro c x y w h code rot indev color hex
  have hnil (t : Byte) (p : List Byte) : some (frameBytes t p) = some (frameBytes t (p ++ [])) := by
    rw [List.append_nil]
  exact ⟨hnil _ _, hnil _ _, rfl, rfl, hnil _ _⟩

end Sys2Proof
end

section
/-! The actions of the Reassembler as their rules say them, and the registers they leave untouched (40_reassembler R112 to
R116). -/

namespace Sys2Proof.Machine

theorem act_of_seekSync (mp : U32) {ra : Reassembler} (hs : ra.state = .seekSync) : act mp ra = actSeek ra := by
  rw [act, hs]

theorem act_of_readHeader (mp : U32) {ra : Reassembler} (hs : ra.state = .readHeader) : act mp ra = actHeader mp ra := by
  rw [act, hs]

theorem act_of_readPayload (mp : U32) {ra : Reassembler} (hs : ra.state = .readPayload) : act mp ra = actPayload ra := by
  rw [act, hs]

theorem actSeek_of_marker {ra : Reassembler} {i : Nat} (h : findMarker ra.q = some i) :
    actSeek ra =
      { ra := { ra with q := ra.q.drop i, state := .readHeader }, report := discardReport i, emitted := none,
        waits := false } := by
  simp only [actSeek, h]

/-- The number of bytes act_seek drops of bytes without a marker (40_reassembler R112). -/
def droppedCount (q : List Byte) : Nat := q.length - keptBytes q

/-- What act_seek keeps of bytes without a marker: nothing, or a final 0xAA (40_reassembler R112). -/
def keptTail (q : List Byte) : List Byte := q.drop (droppedCount q)

theorem actSeek_of_no_marker {ra : Reassembler} (h : findMarker ra.q = none) :
    actSeek ra =
      { ra := { ra with q := keptTail ra.q }, report := discardReport (droppedCount ra.q), emitted := none,
        waits := true } := by
  simp only [actSeek, h]
  rfl

theorem keptBytes_of_final {q : List Byte} (h : q.getLast? = some 0xAA) : keptBytes q = 1 := if_pos h

theorem keptBytes_of_not_final {q : List Byte} (h : q.getLast? ≠ some 0xAA) : keptBytes q = 0 := if_neg h

theorem keptTail_of_final {q : List Byte} (h : q.getLast? = some 0xAA) : keptTail q = [0xAA] := by
  rw [keptTail, droppedCount, keptBytes_of_final h]
  obtain ⟨l, rfl⟩ := List.getLast?_eq_some_iff.1 h
  simp

theorem keptTail_of_not_final {q : List Byte} (h : q.getLast? ≠ some 0xAA) : keptTail q = [] := by
  rw [keptTail, droppedCount, keptBytes_of_not_final h]
  exact List.drop_length

/-- Settles O9: the search finds the first marker; without one the kept bytes are a final 0xAA or none. -/
theorem seekFollowsItsRule : Obligations.SeekFollowsItsRule := by
  intro mp ra hs
  rw [act_of_seekSync mp hs]
  refine ⟨fun i h0 h1 hfirst => ?_, fun hnone => ?_⟩
  · rw [actSeek_of_marker (findMarker_eq_some ra.q i h0 h1 hfirst)]
    rfl
  · rw [actSeek_of_no_marker ((findMarker_none_iff ra.q).2 hnone)]
    by_cases hfinal : ra.q.getLast? = some 0xAA
    · rw [if_pos hfinal, keptTail_of_final hfinal, discardReport, droppedCount, keptBytes_of_final hfinal]
      simp only [Nat.sub_pos_iff_lt]
    · rw [if_neg hfinal, keptTail_of_not_final hfinal, droppedCount, keptBytes_of_not_final hfinal]
      rfl

/-- Settles O10: the action of ReadHeader, its header's type and length read out of `Q`. -/
theorem headerFollowsItsRules : Obligations.HeaderFollowsItsRules := by
  intro mp ra hs
  rw [act_of_readHeader mp hs]
  rfl

/-- Settles O11: the action of ReadPayload. -/
theorem payloadFollowsItsRule : Obligations.PayloadFollowsItsRule := by
  intro mp ra hs
  rw [act_of_readPayload mp hs]
  rfl

/-- The action waits and changes nothing. -/
def Idle (mp : U32) (ra : Reassembler) : Prop :=
  act mp ra = { ra := ra, report := none, emitted := none, waits := true }

theorem idle_of_seekSync (mp : U32) {ra : Reassembler} (hs : ra.state = .seekSync) (hq : ra.q = [] ∨ ra.q = [0xAA]) :
    Idle mp ra := by
  obtain ⟨st, q, t, len⟩ := ra
  obtain rfl : st = .seekSync := hs
  rcases hq with hq | hq <;> obtain rfl : q = _ := hq <;> rfl

theorem idle_of_readHeader (mp : U32) {ra : Reassembler} (hs : ra.state = .readHeader) (hq : ra.q.length < 7) :
    Idle mp ra := by
  rw [Idle, act_of_readHeader mp hs, actHeader, if_pos hq]

theorem idle_of_readPayload (mp : U32) {ra : Reassembler} (hs : ra.state = .readPayload)
    (hq : ra.q.length < 7 + ra.len.toNat) : Idle mp ra := by
  rw [Idle, act_of_readPayload mp hs, actPayload, if_pos hq]

/-- The states in which the Reassembler waits are those in which its action waits and changes nothing. -/
theorem ReassemblerOk.idle {mp : U32} {ra : Reassembler} (h : ReassemblerOk mp ra) : Idle mp ra := by
  unfold ReassemblerOk at h
  split at h
  · next hs => exact idle_of_seekSync mp hs h
  · next hs => exact idle_of_readHeader mp hs h.2
  · next hs =>
    obtain ⟨-, -, hq, -⟩ := h
    exact idle_of_readPayload mp hs hq

/-- Only the search of SeekSync changes anything when it waits. -/
theorem idle_of_waits (mp : U32) {ra : Reassembler} (hs : ra.state ≠ .seekSync) (hw : (act mp ra).waits = true) :
    Idle mp ra := by
  cases hst : ra.state with
  | seekSync => exact absurd hst hs
  | readHeader =>
    rw [act_of_readHeader mp hst, actHeader] at hw
    refine idle_of_readHeader mp hst (Decidable.by_contra fun hq => ?_)
    rw [if_neg hq] at hw
    split_ifs at hw
  | readPayload =>
    rw [act_of_readPayload mp hst, actPayload] at hw
    refine idle_of_readPayload mp hst (Decidable.by_contra fun hq => ?_)
    rw [if_neg hq] at hw
    cases hw

/-- An action that waits leaves nothing to do (40_reassembler R111). -/
theorem act_leaves_idle (mp : U32) {ra : Reassembler} (hw : (act mp ra).waits = true) : Idle mp (act mp ra).ra := by
  by_cases hs : ra.state = .seekSync
  · rw [act_of_seekSync mp hs] at hw ⊢
    exact ((actSeek_ok mp hs).of_waits hw).idle
  · have hidle := idle_of_waits mp hs hw
    rw [congrArg ActionResult.ra hidle]
    exact hidle

end Sys2Proof.Machine
end

section
/-! The loop of the Reassembler as one action and the rest (40_reassembler R111), the end of the loop within the bound of
R119, and the loop without its fuel. -/

namespace Sys2Proof.Machine

/-- What follows an answer need agree only on that answer. -/
theorem andThen_congr {r : Result} {k l : State → Result} (h : ∀ u, r = .next u → k u = l u) :
    andThen r k = andThen r l := by
  cases r with
  | next u => exact h u rfl
  | fault | refused => rfl

/-- One action of the loop with the command of the frame it emits (40_reassembler R111, 43_commands R180). -/
def State.doAction (s : State) : Result :=
  match (act s.cfg.maxPayload s.ra).emitted with
  | some (t, p) => (s.afterAction (act s.cfg.maxPayload s.ra)).emitFrame t p
  | none => .next (s.afterAction (act s.cfg.maxPayload s.ra))

theorem State.doAction_of_emitted {s : State} {t : Byte} {p : List Byte}
    (h : (act s.cfg.maxPayload s.ra).emitted = some (t, p)) :
    s.doAction = (s.afterAction (act s.cfg.maxPayload s.ra)).emitFrame t p := by
  simp only [State.doAction, h]

theorem State.doAction_of_not_emitted {s : State} (h : (act s.cfg.maxPayload s.ra).emitted = none) :
    s.doAction = .next (s.afterAction (act s.cfg.maxPayload s.ra)) := by
  simp only [State.doAction, h]

/-- The frame an action emits or the emission of none. -/
theorem State.doAction_cases (s : State) :
    (∃ t p, (act s.cfg.maxPayload s.ra).emitted = some (t, p) ∧
        s.doAction = (s.afterAction (act s.cfg.maxPayload s.ra)).emitFrame t p) ∨
      (act s.cfg.maxPayload s.ra).emitted = none ∧
        s.doAction = .next (s.afterAction (act s.cfg.maxPayload s.ra)) := by
  cases h : (act s.cfg.maxPayload s.ra).emitted with
  | some f => exact .inl ⟨f.1, f.2, rfl, State.doAction_of_emitted h⟩
  | none => exact .inr ⟨rfl, State.doAction_of_not_emitted h⟩

theorem runActions_of_waits (n : Nat) {s : State} (hw : (act s.cfg.maxPayload s.ra).waits = true) :
    runActions (n + 1) s = .next (s.afterAction (act s.cfg.maxPayload s.ra)) := by
  simp only [runActions, act_waits _ _ hw, hw, if_true]

theorem runActions_of_continues (n : Nat) {s : State} (hw : (act s.cfg.maxPayload s.ra).waits = false) :
    runActions (n + 1) s = andThen s.doAction (runActions n) := by
  rcases s.doAction_cases with ⟨t, p, he, hdo⟩ | ⟨he, hdo⟩
  · simp only [runActions, he, hdo]
  · simp only [runActions, he, hdo, hw, andThen_next, Bool.false_eq_true, if_false]

/-- The command of an emitted frame changes neither the Reassembler nor the parameters. -/
theorem State.doAction_next {s u : State} (h : s.doAction = .next u) :
    u.ra = (act s.cfg.maxPayload s.ra).ra ∧ u.cfg = s.cfg := by
  rcases s.doAction_cases with ⟨t, p, -, hdo⟩ | ⟨-, hdo⟩
  · have hrun := hdo.symm.trans h
    exact ⟨(exec_ra hrun).trans (State.afterAction_ra _ s), (exec_cfg hrun).trans (State.afterAction_cfg _ s)⟩
  · obtain rfl := Host.Outcome.next.inj (hdo.symm.trans h)
    exact ⟨State.afterAction_ra _ s, State.afterAction_cfg _ s⟩

theorem State.doAction_measure {s u : State} (hw : (act s.cfg.maxPayload s.ra).waits = false)
    (h : s.doAction = .next u) : u.ra.measure < s.ra.measure :=
  (State.doAction_next h).1 ▸ act_measure _ _ hw

/-- The loop gives one result with any fuel above the measure. -/
theorem runActions_fuel {m n : Nat} {s : State} (hm : s.ra.measure < m) (hn : s.ra.measure < n) :
    runActions m s = runActions n s := by
  induction m generalizing n s with
  | zero => exact absurd hm (Nat.not_lt_zero _)
  | succ m ih =>
    obtain ⟨n, rfl⟩ := Nat.exists_eq_succ_of_ne_zero (Nat.ne_zero_of_lt hn)
    cases hw : (act s.cfg.maxPayload s.ra).waits with
    | true => rw [runActions_of_waits m hw, runActions_of_waits n hw]
    | false =>
      rw [runActions_of_continues m hw, runActions_of_continues n hw]
      refine andThen_congr fun u hu => ?_
      have hlt := State.doAction_measure hw hu
      exact ih (by omega) (by omega)

theorem Reassembler.measure_lt_actionBound (ra : Reassembler) : ra.measure < actionBound ra.q.length := by
  have hweight : ra.state.weight ≤ 2 := by cases ra.state <;> decide
  rw [Reassembler.measure, actionBound]
  omega

/-- Settles O14: the bound is above the measure that every action but a waiting one shrinks. -/
theorem actionsAreBounded : Obligations.ActionsAreBounded := by
  intro s extra
  have hbound := s.ra.measure_lt_actionBound
  exact runActions_fuel (Nat.lt_add_right extra hbound) hbound

/-- The loop of 40_reassembler R111, run until WAIT. -/
def State.runToWait (s : State) : Result := runActions (actionBound s.ra.q.length) s

theorem feed_eq_runToWait (chunk : List Byte) (s : State) : feed chunk s = (s.receive chunk).runToWait := rfl

theorem State.runToWait_of_waits {s : State} (hw : (act s.cfg.maxPayload s.ra).waits = true) :
    s.runToWait = .next (s.afterAction (act s.cfg.maxPayload s.ra)) :=
  runActions_of_waits _ hw

theorem State.runToWait_of_idle {s : State} (h : Idle s.cfg.maxPayload s.ra) : s.runToWait = .next s := by
  rw [State.runToWait_of_waits (congrArg ActionResult.waits h), h]
  rfl

theorem State.runToWait_of_continues {s : State} (hw : (act s.cfg.maxPayload s.ra).waits = false) :
    s.runToWait = andThen s.doAction State.runToWait := by
  rw [State.runToWait, actionBound, runActions_of_continues _ hw]
  refine andThen_congr fun u hu => runActions_fuel ?_ u.ra.measure_lt_actionBound
  have hlt := State.doAction_measure hw hu
  have hbound := s.ra.measure_lt_actionBound
  rw [actionBound] at hbound
  omega

/-- The loop's own induction: a state in which the action waits, or one whose successor satisfies the claim. -/
theorem State.runToWait_induction {P : State → Prop}
    (waits : ∀ s, (act s.cfg.maxPayload s.ra).waits = true → P s)
    (continues : ∀ s, (act s.cfg.maxPayload s.ra).waits = false → (∀ u, s.doAction = .next u → P u) → P s)
    (s : State) : P s := by
  induction hn : s.ra.measure using Nat.strong_induction_on generalizing s with
  | _ n ih =>
    cases hw : (act s.cfg.maxPayload s.ra).waits with
    | true => exact waits s hw
    | false => exact continues s hw fun u hu => ih _ (hn ▸ State.doAction_measure hw hu) u rfl

/-- The loop ends in a state in which it has nothing to do. -/
theorem State.runToWait_idle (s : State) {t : State} (h : s.runToWait = .next t) : Idle t.cfg.maxPayload t.ra := by
  induction s using State.runToWait_induction with
  | waits s hw =>
    rw [State.runToWait_of_waits hw] at h
    obtain rfl := Host.Outcome.next.inj h
    rw [State.afterAction_cfg, State.afterAction_ra]
    exact act_leaves_idle _ hw
  | continues s hw ih =>
    rw [State.runToWait_of_continues hw] at h
    obtain ⟨u, hu, hrest⟩ := andThen_eq_next.1 h
    exact ih u hu hrest

end Sys2Proof.Machine
end

section
/-! The loop reads no outputs, and bytes received later change nothing before it waits (00_scope R10, 40_reassembler
R118). -/

namespace Sys2Proof.Machine

theorem mapNext_congr {f g : State → State} {r : Result} (h : ∀ u, r = .next u → f u = g u) :
    mapNext f r = mapNext g r := by
  cases r with
  | next u => exact congrArg Host.Outcome.next (h u rfl)
  | fault | refused => rfl

/-- The state with outputs put before its own. -/
def State.precede (o : List Output) (s : State) : State := { s with out := o ++ s.out }

/-- A command does not read `Q` (10_state R57). -/
theorem exec_receive (i : Instr) (c : List Byte) (s : State) :
    exec i (s.receive c) = mapNext (State.receive c) (exec i s) := by
  refine (exec_reseat [] (s.ra.receive c) s.inbox i s).trans (mapNext_congr fun u hu => ?_)
  rw [State.reseat, State.receive, exec_ra hu, ← exec_inbox hu]
  rfl

/-- A command does not read the outputs (00_scope R10). -/
theorem exec_precede (i : Instr) (o : List Output) (s : State) :
    exec i (s.precede o) = mapNext (State.precede o) (exec i s) := by
  refine (exec_reseat o s.ra s.inbox i s).trans (mapNext_congr fun u hu => ?_)
  rw [State.reseat, State.precede, ← exec_ra hu, ← exec_inbox hu]

theorem State.output_precede (x : Output) (o : List Output) (s : State) :
    (s.precede o).output x = (s.output x).precede o := by
  simp [State.precede, State.output]

theorem State.afterAction_precede (r : ActionResult) (o : List Output) (s : State) :
    (s.precede o).afterAction r = (s.afterAction r).precede o := by
  obtain ⟨ra, report, emitted, waits⟩ := r
  cases report with
  | none => rfl
  | some e => exact State.output_precede (.err e) o { s with ra := ra }

theorem State.emitFrame_precede (t : Byte) (p : List Byte) (o : List Output) (s : State) :
    (s.precede o).emitFrame t p = mapNext (State.precede o) (s.emitFrame t p) := by
  rw [State.emitFrame, State.output_precede, exec_precede, State.emitFrame]

theorem State.doAction_precede (o : List Output) (s : State) :
    (s.precede o).doAction = mapNext (State.precede o) s.doAction := by
  rcases s.doAction_cases with ⟨t, p, he, hdo⟩ | ⟨he, hdo⟩
  · rw [hdo, ← State.emitFrame_precede, ← State.afterAction_precede]
    exact State.doAction_of_emitted (s := s.precede o) he
  · rw [hdo, mapNext, ← State.afterAction_precede]
    exact State.doAction_of_not_emitted (s := s.precede o) he

/-- The loop reads no outputs (00_scope R10). -/
theorem State.runToWait_precede (o : List Output) (s : State) :
    (s.precede o).runToWait = mapNext (State.precede o) s.runToWait := by
  induction s using State.runToWait_induction with
  | waits s hw =>
    rw [State.runToWait_of_waits hw, mapNext, ← State.afterAction_precede]
    exact State.runToWait_of_waits (s := s.precede o) hw
  | continues s hw ih =>
    have hrun : (s.precede o).runToWait = andThen (s.precede o).doAction State.runToWait :=
      State.runToWait_of_continues (s := s.precede o) hw
    rw [hrun, State.runToWait_of_continues hw, State.doAction_precede]
    cases hdo : s.doAction with
    | next u => exact ih u hdo
    | fault | refused => rfl

/-- The outcome of an action that does not wait, with more bytes received. -/
theorem State.afterAction_receive (r : ActionResult) (c : List Byte) (s : State) :
    (s.receive c).afterAction { r with ra := r.ra.receive c } = (s.afterAction r).receive c := by
  obtain ⟨ra, report, emitted, waits⟩ := r
  cases report <;> rfl

/-- An action that does not wait, and its frame's command, come out the same when more bytes are received. -/
theorem State.doAction_receive (c : List Byte) {s : State} (hw : (act s.cfg.maxPayload s.ra).waits = false) :
    (s.receive c).doAction = mapNext (State.receive c) s.doAction := by
  have hact : act (s.receive c).cfg.maxPayload (s.receive c).ra = _ := act_receive s.cfg.maxPayload s.ra c hw
  have hemitted := congrArg ActionResult.emitted hact
  rcases s.doAction_cases with ⟨t, p, he, hdo⟩ | ⟨he, hdo⟩
  · rw [State.doAction_of_emitted (hemitted.trans he), hact, State.afterAction_receive, hdo]
    exact exec_receive (decodeInbound t p) c (State.output (.frame t p) _)
  · rw [State.doAction_of_not_emitted (hemitted.trans he), hact, State.afterAction_receive, hdo]
    rfl

theorem State.receive_receive (c d : List Byte) (s : State) : (s.receive c).receive d = s.receive (c ++ d) := by
  simp only [State.receive, List.append_assoc]

theorem State.receive_nil (s : State) : s.receive [] = s := by
  simp only [State.receive, List.append_nil]

end Sys2Proof.Machine
end

section
/-! Two results that differ at most in how the reports of discarded bytes are grouped (40_reassembler R118). -/

namespace Sys2Proof.Machine

theorem discarded_cons (o : Output) (os : List Output) : discarded (o :: os) = discarded [o] + discarded os := by
  cases o with
  | err e => cases e <;> simp [discarded]
  | frame _ _ | notify _ | tx _ => simp [discarded]

theorem discarded_append (a b : List Output) : discarded (a ++ b) = discarded a + discarded b := by
  induction a with
  | nil => simp [discarded]
  | cons o os ih => rw [List.cons_append, discarded_cons, ih, discarded_cons o os, Nat.add_assoc]

/-- The outputs with the reports of discarded bytes gathered into one at the front. -/
def gatherDiscards (out : List Output) : List Output :=
  .err (.syncDiscard (discarded out)) :: out.filter fun o => !isDiscard o

theorem gatherDiscards_eq_iff {a b : List Output} :
    gatherDiscards a = gatherDiscards b ↔
      a.filter (fun o => !isDiscard o) = b.filter (fun o => !isDiscard o) ∧ discarded a = discarded b := by
  simp [gatherDiscards, and_comm]

theorem gatherDiscards_append_congr {a a' b b' : List Output} (ha : gatherDiscards a = gatherDiscards a')
    (hb : gatherDiscards b = gatherDiscards b') : gatherDiscards (a ++ b) = gatherDiscards (a' ++ b') := by
  obtain ⟨hfa, hda⟩ := gatherDiscards_eq_iff.1 ha
  obtain ⟨hfb, hdb⟩ := gatherDiscards_eq_iff.1 hb
  rw [gatherDiscards_eq_iff, List.filter_append, List.filter_append, discarded_append, discarded_append, hfa, hfb, hda,
    hdb]
  exact ⟨rfl, rfl⟩

/-- The output of a report of `k` dropped bytes, if any were. -/
def discardOutput (k : Nat) : List Output := ((discardReport k).map Output.err).toList

theorem discarded_discardOutput (k : Nat) : discarded (discardOutput k) = k := by
  unfold discardOutput discardReport
  split
  · rfl
  · show 0 = k
    omega

theorem isDiscard_discardOutput {k : Nat} {o : Output} (h : o ∈ discardOutput k) : isDiscard o = true := by
  unfold discardOutput discardReport at h
  split at h
  · obtain rfl := List.mem_singleton.1 h
    rfl
  · nomatch h

theorem filter_discardOutput (k : Nat) : (discardOutput k).filter (fun o => !isDiscard o) = [] :=
  List.filter_eq_nil_iff.2 fun o ho => by simp [isDiscard_discardOutput ho]

/-- Bytes dropped at once or in two parts. -/
theorem gatherDiscards_discardOutput_add (j k : Nat) :
    gatherDiscards (discardOutput (j + k)) = gatherDiscards (discardOutput j ++ discardOutput k) := by
  rw [gatherDiscards_eq_iff, List.filter_append, discarded_append]
  simp only [filter_discardOutput, discarded_discardOutput, List.append_nil, and_self]

/-- The state with its reports of discarded bytes gathered. -/
def State.gathered (s : State) : State := { s with out := gatherDiscards s.out }

theorem State.gathered_eq_iff {s t : State} :
    s.gathered = t.gathered ↔ s.startStep = t.startStep ∧ gatherDiscards s.out = gatherDiscards t.out := by
  constructor
  · intro h
    have hstart : s.gathered.startStep = t.gathered.startStep := by rw [h]
    exact ⟨hstart, congrArg State.out h⟩
  · rintro ⟨hs, ho⟩
    show ({ s.startStep with out := gatherDiscards s.out } : State) = { t.startStep with out := gatherDiscards t.out }
    rw [hs, ho]

/-- The two results are the same but for the grouping of the reports of discarded bytes. -/
def SameGathered (r r' : Result) : Prop := mapNext State.gathered r = mapNext State.gathered r'

theorem State.startStep_precede (s : State) : s.startStep.precede s.out = s := by
  simp [State.startStep, State.precede]

/-- States that agree but for the grouping are run to results that do. -/
theorem runToWait_sameGathered {s t : State} (h : s.gathered = t.gathered) : SameGathered s.runToWait t.runToWait := by
  obtain ⟨hstart, hout⟩ := State.gathered_eq_iff.1 h
  rw [SameGathered, ← s.startStep_precede, ← t.startStep_precede, ← hstart, State.runToWait_precede,
    State.runToWait_precede]
  cases s.startStep.runToWait with
  | next u =>
    refine congrArg Host.Outcome.next (State.gathered_eq_iff.2 ⟨rfl, ?_⟩)
    exact gatherDiscards_append_congr hout rfl
  | fault | refused => rfl

end Sys2Proof.Machine
end

section
/-! However a stream is cut into chunks (40_reassembler R118): a search that waits may drop its bytes before or after more
are received, and every other action waits for them or does not need them. -/

namespace Sys2Proof.Machine

/-- More bytes dropped after those dropped without a marker. -/
theorem drop_droppedCount_add (q c : List Byte) (n : Nat) :
    (q ++ c).drop (droppedCount q + n) = (keptTail q ++ c).drop n := by
  have hle : droppedCount q ≤ q.length := Nat.sub_le _ _
  rw [← List.drop_drop, List.drop_append_of_le_length hle, keptTail]

theorem droppedCount_append (q c : List Byte) :
    droppedCount (q ++ c) = droppedCount q + droppedCount (keptTail q ++ c) := by
  have hkept : keptBytes (keptTail q ++ c) = keptBytes (q ++ c) := keptBytes_append q c
  have hle := (keptBytes_le (keptTail q ++ c)).1
  have hdropped : droppedCount q ≤ q.length := Nat.sub_le _ _
  have hlen : (keptTail q).length = q.length - droppedCount q := List.length_drop
  show (q ++ c).length - keptBytes (q ++ c) = _ + ((keptTail q ++ c).length - keptBytes (keptTail q ++ c))
  rw [List.length_append] at hle ⊢
  rw [List.length_append]
  omega

theorem keptTail_append (q c : List Byte) : keptTail (q ++ c) = keptTail (keptTail q ++ c) := by
  show (q ++ c).drop (droppedCount (q ++ c)) = (keptTail q ++ c).drop (droppedCount (keptTail q ++ c))
  rw [droppedCount_append, drop_droppedCount_add]

theorem findMarker_keptTail_append {q : List Byte} (c : List Byte) (h : findMarker q = none) :
    findMarker (q ++ c) = (findMarker (keptTail q ++ c)).map (· + droppedCount q) :=
  findMarker_none_append h

/-- The search of all bytes is the search of the kept and the later ones, but for the number of bytes dropped. -/
theorem actSeek_receive {ra : Reassembler} (c : List Byte) (h : findMarker ra.q = none) :
    ∃ j, (actSeek ((actSeek ra).ra.receive c)).report = discardReport j ∧
      (actSeek ((actSeek ra).ra.receive c)).emitted = none ∧
      actSeek (ra.receive c) =
        { actSeek ((actSeek ra).ra.receive c) with report := discardReport (droppedCount ra.q + j) } := by
  have hmarker : findMarker (ra.receive c).q = _ := findMarker_keptTail_append c h
  rw [congrArg ActionResult.ra (actSeek_of_no_marker h)]
  cases hm : findMarker (keptTail ra.q ++ c) with
  | some i =>
    rw [hm, Option.map_some, Nat.add_comm] at hmarker
    rw [actSeek_of_marker hmarker, actSeek_of_marker hm]
    refine ⟨i, rfl, rfl, ?_⟩
    simp only [Reassembler.receive, drop_droppedCount_add]
  | none =>
    rw [hm, Option.map_none] at hmarker
    rw [actSeek_of_no_marker hmarker, actSeek_of_no_marker hm]
    refine ⟨droppedCount (keptTail ra.q ++ c), rfl, rfl, ?_⟩
    simp only [Reassembler.receive, ← keptTail_append, ← droppedCount_append]

theorem State.afterAction_startStep (r : ActionResult) (s : State) :
    (s.afterAction r).startStep = { s.startStep with ra := r.ra } := by
  obtain ⟨ra, report, emitted, waits⟩ := r
  cases report <;> rfl

theorem State.runToWait_of_not_emitted {s : State} {r : ActionResult} (h : act s.cfg.maxPayload s.ra = r)
    (he : r.emitted = none) :
    s.runToWait = if r.waits then .next (s.afterAction r) else (s.afterAction r).runToWait := by
  subst h
  split
  · next hw => exact State.runToWait_of_waits hw
  · next hw =>
    rw [State.runToWait_of_continues (Bool.eq_false_iff.2 hw), State.doAction_of_not_emitted he, andThen_next]

/-- One report for the bytes dropped by an action, or a report before more bytes are received and one after. -/
theorem State.afterAction_resumed {q r : ActionResult} {j k : Nat} (c : List Byte) (s : State)
    (hq : q.report = discardReport j) (hr : r.report = discardReport k) :
    ((s.receive c).afterAction { r with report := discardReport (j + k) }).gathered =
      (((s.afterAction q).receive c).afterAction r).gathered := by
  refine State.gathered_eq_iff.2 ⟨?_, ?_⟩
  · rw [State.afterAction_startStep, State.afterAction_startStep]
    obtain ⟨ra, report, emitted, waits⟩ := q
    cases report <;> rfl
  · rw [State.afterAction_out, State.afterAction_out, State.receive_out, State.receive_out, State.afterAction_out,
      hq, hr, List.append_assoc]
    exact gatherDiscards_append_congr rfl (gatherDiscards_discardOutput_add j k)

/-- A search without a marker, resumed with more bytes, is the search of all of them. -/
theorem runToWait_receive_of_no_marker (c : List Byte) {s : State} (hs : s.ra.state = .seekSync)
    (hm : findMarker s.ra.q = none) :
    SameGathered (s.receive c).runToWait ((s.afterAction (actSeek s.ra)).receive c).runToWait := by
  obtain ⟨j, hreport, hemitted, hall⟩ := actSeek_receive c hm
  have hstate : (actSeek s.ra).ra.state = .seekSync := by rw [actSeek_of_no_marker hm]; exact hs
  have hwhole : act (s.receive c).cfg.maxPayload (s.receive c).ra = _ :=
    (act_of_seekSync (ra := s.ra.receive c) _ hs).trans hall
  have hrest : act ((s.afterAction (actSeek s.ra)).receive c).cfg.maxPayload
      ((s.afterAction (actSeek s.ra)).receive c).ra = actSeek ((actSeek s.ra).ra.receive c) := by
    rw [State.receive_ra, State.afterAction_ra]
    exact act_of_seekSync _ hstate
  have hgathered := State.afterAction_resumed c s (congrArg ActionResult.report (actSeek_of_no_marker hm)) hreport
  rw [State.runToWait_of_not_emitted hwhole hemitted, State.runToWait_of_not_emitted hrest hemitted]
  dsimp only
  split
  · exact congrArg Host.Outcome.next hgathered
  · exact runToWait_sameGathered hgathered

theorem andThen_sameGathered {r : Result} {k l : State → Result} (h : ∀ u, r = .next u → SameGathered (k u) (l u)) :
    SameGathered (andThen r k) (andThen r l) := by
  cases r with
  | next u => exact h u rfl
  | fault | refused => rfl

/-- A loop with more bytes received is the loop without them, then the loop with them. -/
theorem runToWait_receive (c : List Byte) (s : State) :
    SameGathered (s.receive c).runToWait (andThen s.runToWait (feed c)) := by
  induction s using State.runToWait_induction with
  | waits s hw =>
    by_cases hs : s.ra.state = .seekSync
    · rw [State.runToWait_of_waits hw, andThen_next, act_of_seekSync _ hs]
      rw [act_of_seekSync _ hs] at hw
      cases hm : findMarker s.ra.q with
      | none => exact runToWait_receive_of_no_marker c hs hm
      | some i => rw [actSeek_of_marker hm] at hw; cases hw
    · rw [State.runToWait_of_idle (idle_of_waits _ hs hw)]
      rfl
  | continues s hw ih =>
    have hrun : (s.receive c).runToWait = andThen (s.receive c).doAction State.runToWait :=
      State.runToWait_of_continues (congrArg ActionResult.waits (act_receive _ _ c hw) |>.trans hw)
    rw [hrun, State.runToWait_of_continues hw, State.doAction_receive c hw, andThen_assoc]
    cases hdo : s.doAction with
    | next u => exact ih u hdo
    | fault | refused => rfl

theorem feed_append (c d : List Byte) (s : State) :
    SameGathered (feed (c ++ d) s) (andThen (feed c s) (feed d)) := by
  rw [feed_eq_runToWait, ← State.receive_receive]
  exact runToWait_receive d (s.receive c)

/-- A stream in chunks, then one more run of the loop, is the stream in one chunk. -/
theorem feedAll_then_feed_nil (chunks : List (List Byte)) (s : State) :
    SameGathered (andThen (feedAll chunks s) (feed [])) (feed chunks.flatten s) := by
  induction chunks generalizing s with
  | nil => rfl
  | cons c chunks ih =>
    rw [feedAll, andThen_assoc, List.flatten_cons]
    exact (andThen_sameGathered fun u _ => ih u).trans (feed_append c chunks.flatten s).symm

/-- A waiting Reassembler that receives chunks waits after them. -/
theorem feedAll_idle {chunks : List (List Byte)} {s t : State} (hs : Idle s.cfg.maxPayload s.ra)
    (h : feedAll chunks s = .next t) : Idle t.cfg.maxPayload t.ra := by
  induction chunks generalizing s with
  | nil =>
    obtain rfl := Host.Outcome.next.inj h
    exact hs
  | cons c chunks ih =>
    obtain ⟨u, hu, hrest⟩ := andThen_eq_next.1 h
    exact ih (State.runToWait_idle (s.receive c) hu) hrest

theorem feed_nil_of_idle {s : State} (h : Idle s.cfg.maxPayload s.ra) : feed [] s = .next s := by
  rw [feed_eq_runToWait, State.receive_nil, State.runToWait_of_idle h]

/-- A stream in chunks is the stream in one. -/
theorem feedAll_sameGathered (chunks : List (List Byte)) {s : State} (hs : Idle s.cfg.maxPayload s.ra) :
    SameGathered (feedAll chunks s) (feed chunks.flatten s) := by
  have hnil : andThen (feedAll chunks s) (feed []) = feedAll chunks s :=
    (andThen_congr fun u hu => feed_nil_of_idle (feedAll_idle hs hu)).trans (andThen_pure _)
  rw [← hnil]
  exact feedAll_then_feed_nil chunks s

/-- Bytes received one by one are chunks of one byte. -/
theorem rxBytes_eq_feedAll (bytes : List Byte) (s : State) : rxBytes bytes s = feedAll (bytes.map fun b => [b]) s := by
  induction bytes generalizing s with
  | nil => rfl
  | cons b bytes ih =>
    rw [rxBytes, List.map_cons, feedAll]
    exact andThen_congr fun u _ => ih u

/-- The same but for the grouping, in the three forms of a result. -/
theorem sameGathered_next_iff {t u : State} :
    SameGathered (.next t) (.next u) ↔
      ({ t with out := [] } : State) = { u with out := [] } ∧
        t.out.filter (fun o => !isDiscard o) = u.out.filter (fun o => !isDiscard o) ∧
        discarded t.out = discarded u.out := by
  rw [← gatherDiscards_eq_iff]
  exact ⟨fun h => State.gathered_eq_iff.1 (Host.Outcome.next.inj h), fun h =>
    congrArg Host.Outcome.next (State.gathered_eq_iff.2 h)⟩

/-- Settles O13: the chunks and the single bytes each give what the whole stream in one chunk does. -/
theorem chunkingDoesNotShow : Obligations.ChunkingDoesNotShow := by
  intro s chunks hok
  have hsame : SameGathered (feedAll chunks s) (rxBytes chunks.flatten s) := by
    have hbytes := feedAll_sameGathered (chunks.flatten.map fun b => [b]) hok.idle
    rw [← rxBytes_eq_feedAll, ← List.flatMap_def, List.flatMap_singleton'] at hbytes
    exact (feedAll_sameGathered chunks hok.idle).trans hbytes.symm
  generalize feedAll chunks s = r at hsame
  generalize rxBytes chunks.flatten s = r' at hsame
  cases r with
  | next t =>
    cases r' with
    | next u => exact sameGathered_next_iff.1 hsame
    | fault | refused => nomatch hsame
  | fault f =>
    cases r' with
    | fault g => exact Host.Outcome.fault.inj hsame
    | next | refused => nomatch hsame
  | refused f =>
    cases r' with
    | refused g => exact Host.Outcome.refused.inj hsame
    | next | fault => nomatch hsame

end Sys2Proof.Machine
end

section
/-! A frame received byte by byte after bytes without a marker (40_reassembler R112 to R117). -/

namespace Sys2Proof.Machine

theorem rxBytes_append (a b : List Byte) (s : State) : rxBytes (a ++ b) s = andThen (rxBytes a s) (rxBytes b) := by
  induction a generalizing s with
  | nil => rfl
  | cons x a ih =>
    rw [List.cons_append, rxBytes, rxBytes, andThen_assoc]
    exact andThen_congr fun u _ => ih u

theorem rxBytes_singleton (b : Byte) (s : State) : rxBytes [b] s = rxByte b s := andThen_pure _

theorem rxByte_eq_runToWait (b : Byte) (s : State) : rxByte b s = (s.receive [b]).runToWait := rfl

/-! ## Before the frame -/

theorem State.afterAction_eq (r : ActionResult) (s : State) :
    s.afterAction r = { s with ra := r.ra, out := s.out ++ (r.report.map Output.err).toList } := by
  rw [← State.afterAction_out]
  obtain ⟨ra, report, emitted, waits⟩ := r
  cases report <;> rfl

/-- The state after a search of `bytes` that found no marker (40_reassembler R112). -/
def State.withoutMarker (bytes : List Byte) (s : State) : State :=
  { s with ra := { s.ra with q := keptTail bytes }, out := s.out ++ discardOutput (droppedCount bytes) }

theorem rxByte_without_marker {b : Byte} {s : State} (hs : s.ra.state = .seekSync)
    (hm : findMarker (s.ra.q ++ [b]) = none) : rxByte b s = .next (s.withoutMarker (s.ra.q ++ [b])) := by
  have hact : act (s.receive [b]).cfg.maxPayload (s.receive [b]).ra = _ :=
    (act_of_seekSync (ra := s.ra.receive [b]) _ hs).trans (actSeek_of_no_marker hm)
  rw [rxByte_eq_runToWait, State.runToWait_of_not_emitted hact rfl, if_pos rfl, State.afterAction_eq]
  rfl

theorem findMarker_of_append {q c : List Byte} (h : findMarker (q ++ c) = none) : findMarker q = none := by
  cases hq : findMarker q with
  | none => rfl
  | some i => rw [findMarker_append c hq] at h; cases h

/-- Bytes without a marker are reported dropped, but for a kept final 0xAA. -/
theorem rxBytes_without_marker (g : List Byte) {s : State} (hs : s.ra.state = .seekSync) (hq : s.ra.q = [])
    (hm : findMarker g = none) :
    ∃ reports : List Output, (∀ o ∈ reports, isDiscard o = true) ∧ discarded reports = droppedCount g ∧
      rxBytes g s = .next { s with ra := { s.ra with q := keptTail g }, out := s.out ++ reports } := by
  induction g using List.reverseRecOn with
  | nil =>
    refine ⟨[], by simp, rfl, ?_⟩
    have hkept : keptTail [] = s.ra.q := hq.symm
    rw [hkept, List.append_nil]
    rfl
  | append_singleton g b ih =>
    have hg := findMarker_of_append hm
    have hrest : findMarker (keptTail g ++ [b]) = none := by
      rwa [findMarker_keptTail_append _ hg, Option.map_eq_none_iff] at hm
    obtain ⟨reports, hall, hsum, hrun⟩ := ih hg
    refine ⟨reports ++ discardOutput (droppedCount (keptTail g ++ [b])), fun o ho => ?_, ?_, ?_⟩
    · rcases List.mem_append.1 ho with ho | ho
      · exact hall o ho
      · exact isDiscard_discardOutput ho
    · rw [discarded_append, hsum, discarded_discardOutput, droppedCount_append g [b]]
    · rw [rxBytes_append, hrun, andThen_next, rxBytes_singleton, keptTail_append, ← List.append_assoc]
      exact rxByte_without_marker hs hrest

/-! ## The frame -/

/-- The second byte of a marker whose first was kept (40_reassembler R112, R113). -/
theorem rxByte_marker {s : State} (hs : s.ra.state = .seekSync) (hq : s.ra.q = [0xAA]) :
    rxByte 0x55 s = .next { s with ra := { s.ra with state := .readHeader, q := [0xAA, 0x55] } } := by
  obtain ⟨cfg, ss, win, fb, ⟨st, q, t, len⟩, enc, now, inbox, out, draws⟩ := s
  obtain rfl : st = .seekSync := hs
  obtain rfl : q = [0xAA] := hq
  rfl

theorem Reassembler.Incomplete.idle {mp : U32} {ra : Reassembler} (h : ra.Incomplete) (hs : ra.state ≠ .seekSync) :
    Idle mp ra := by
  cases hst : ra.state with
  | seekSync => exact absurd hst hs
  | readHeader =>
    rw [Reassembler.Incomplete, hst] at h
    exact idle_of_readHeader mp hst (h.resolve_right (by simp))
  | readPayload =>
    rcases h with hq | ⟨-, hq⟩
    · exact idle_of_readPayload mp hst (Nat.lt_add_right _ hq)
    · exact idle_of_readPayload mp hst hq

theorem Reassembler.Incomplete.of_receive {ra : Reassembler} {c : List Byte} (h : (ra.receive c).Incomplete) :
    ra.Incomplete := by
  have hlen : (ra.q ++ c).length = ra.q.length + c.length := List.length_append
  rcases h with hq | ⟨hs, hq⟩
  · exact .inl (by dsimp only [Reassembler.receive] at hq; omega)
  · exact .inr ⟨hs, by dsimp only [Reassembler.receive] at hq; omega⟩

/-- Bytes that complete neither a header nor a payload are only received (40_reassembler R113, R116). -/
theorem rxBytes_incomplete (bytes : List Byte) {s : State} (hs : s.ra.state ≠ .seekSync)
    (hinc : (s.ra.receive bytes).Incomplete) : rxBytes bytes s = .next (s.receive bytes) := by
  induction bytes generalizing s with
  | nil => rw [State.receive_nil, rxBytes]
  | cons b bytes ih =>
    have hall : ((s.receive [b]).ra.receive bytes).Incomplete := by
      simpa [Reassembler.receive] using hinc
    have hbyte : rxByte b s = .next (s.receive [b]) := State.runToWait_of_idle (hall.of_receive.idle hs)
    rw [rxBytes, hbyte, andThen_next, ih (s := s.receive [b]) hs hall, State.receive_receive, List.singleton_append]

/-- `r` is the frame's command run once, on `s` but for the Reassembler and the outputs (43_commands R180). -/
def RunsFrame (s : State) (t : Byte) (p : List Byte) (r : Result) : Prop :=
  ∃ ra : Reassembler, ra.state = .seekSync ∧ ra.q = [] ∧
    r = exec (decodeInbound t p) { s with ra := ra, out := s.out ++ [.frame t p] }

theorem rxByte_consumed {b t : Byte} {p : List Byte} {s : State}
    (h : act s.cfg.maxPayload (s.ra.receive [b]) = consumed (s.ra.receive [b]) t p) :
    RunsFrame s t p (rxByte b s) :=
  ⟨{ s.ra with state := .seekSync, q := [] }, rfl, rfl, runActions_consumed _ h⟩

/-- A payload of the latched length, byte by byte: it is not scanned, and its last byte runs the command (40_reassembler
R116, R117). -/
theorem rxBytes_payload {p : List Byte} {s : State} (hs : s.ra.state = .readPayload) (hp : p ≠ [])
    (hl : s.ra.len.toNat = p.length) (hq : s.ra.q ++ p = frameBytes s.ra.t p) :
    RunsFrame s s.ra.t p (rxBytes p s) := by
  obtain ⟨init, last, rfl⟩ := (List.eq_nil_or_concat' p).resolve_left hp
  have hlen := congrArg List.length hq
  simp only [List.length_append, List.length_singleton, frameBytes_length] at hlen hl
  have hinc : (s.ra.receive init).Incomplete :=
    .inr ⟨hs, by simp only [Reassembler.receive, List.length_append]; omega⟩
  have hinit : rxBytes init s = .next (s.receive init) := rxBytes_incomplete init (by simp [hs]) hinc
  rw [rxBytes_append, hinit, andThen_next, rxBytes_singleton]
  refine rxByte_consumed (s := s.receive init) ?_
  exact act_readPayload_frame _ (ra := (s.ra.receive init).receive [last]) hs
    (by simpa [Reassembler.receive] using hl) ((List.append_assoc _ _ _).trans hq)

theorem toNat_ofNat_of_le {n : Nat} {v : U32} (h : n ≤ v.toNat) : (BitVec.ofNat 32 n).toNat = n := by
  rw [BitVec.toNat_ofNat, Nat.mod_eq_of_lt (h.trans_lt v.isLt)]

/-- A header of an accepted length above 0 (40_reassembler R115). -/
theorem actHeader_latches {mp : U32} {ra : Reassembler} (hq : 7 ≤ ra.q.length) (hmax : headerLen ra.q ≤ mp.toNat)
    (hpos : 0 < headerLen ra.q) :
    actHeader mp ra =
      { ra := { ra with t := headerType ra.q, len := BitVec.ofNat 32 (headerLen ra.q), state := .readPayload },
        report := none, emitted := none, waits := false } := by
  rw [actHeader, if_neg hq.not_gt, if_neg hmax.not_gt, if_neg hpos.ne']

/-- The last byte of such a header: the Reassembler waits for the payload. -/
theorem rxByte_header {b : Byte} {s : State} (hs : s.ra.state = .readHeader) (hq : (s.ra.q ++ [b]).length = 7)
    (hmax : headerLen (s.ra.q ++ [b]) ≤ s.cfg.maxPayload.toNat) (hpos : 0 < headerLen (s.ra.q ++ [b])) :
    rxByte b s = .next { s with ra :=
      { state := .readPayload, q := s.ra.q ++ [b], t := headerType (s.ra.q ++ [b]),
        len := BitVec.ofNat 32 (headerLen (s.ra.q ++ [b])) } } := by
  have hact : act (s.receive [b]).cfg.maxPayload (s.receive [b]).ra = _ :=
    (act_of_readHeader (ra := s.ra.receive [b]) _ hs).trans (actHeader_latches (ra := s.ra.receive [b]) hq.ge hmax hpos)
  have hshort : (s.ra.q ++ [b]).length < 7 + (BitVec.ofNat 32 (headerLen (s.ra.q ++ [b]))).toNat := by
    rw [toNat_ofNat_of_le hmax]
    omega
  rw [rxByte_eq_runToWait, State.runToWait_of_not_emitted hact rfl]
  exact State.runToWait_of_idle (idle_of_readPayload _ rfl hshort)

/-- The rest of a frame after the first six bytes of its header. -/
theorem rxBytes_from_last_header_byte {b t : Byte} {p : List Byte} {s : State} (hs : s.ra.state = .readHeader)
    (hq : s.ra.q.length = 6) (hframe : s.ra.q ++ [b] ++ p = frameBytes t p)
    (hmax : p.length ≤ s.cfg.maxPayload.toNat) : RunsFrame s t p (rxBytes (b :: p) s) := by
  have hseven : (s.ra.q ++ [b]).length = 7 := by rw [List.length_append, hq, List.length_singleton]
  have hlen : headerLen (s.ra.q ++ [b]) = p.length := by
    rw [← headerLen_append p hseven.ge, hframe]
    exact headerLen_frameBytes t (Nat.lt_of_le_of_lt hmax s.cfg.maxPayload.isLt)
  have htype : headerType (s.ra.q ++ [b]) = t := by
    rw [← headerType_append p hseven.ge, hframe]
    rfl
  by_cases hp : p = []
  · subst hp
    rw [List.append_nil] at hframe
    rw [rxBytes_singleton]
    exact rxByte_consumed (act_readHeader_frame _ (ra := s.ra.receive [b]) hs hframe)
  · have hpos := List.length_pos_iff.2 hp
    rw [rxBytes, rxByte_header hs hseven (hlen.trans_le hmax) (hlen ▸ hpos), andThen_next, htype, hlen]
    refine rxBytes_payload (s := { s with ra := _ }) rfl hp ?_ hframe
    exact toNat_ofNat_of_le hmax

/-- A frame of an accepted length after its first byte. -/
theorem rxBytes_frame_tail {t : Byte} {p : List Byte} {s : State} (hs : s.ra.state = .seekSync)
    (hq : s.ra.q = [0xAA]) (hmax : p.length ≤ s.cfg.maxPayload.toNat) :
    RunsFrame s t p (rxBytes (frameBytes t p).tail s) := by
  obtain ⟨a, b, c, d, h4⟩ : ∃ a b c d, leBytes 4 p.length = [a, b, c, d] := ⟨_, _, _, _, leBytes_four _⟩
  have htail : (frameBytes t p).tail = 0x55 :: ([t, a, b, c] ++ d :: p) := by rw [frameBytes, h4]; rfl
  have hframe : [0xAA, 0x55] ++ [t, a, b, c] ++ [d] ++ p = frameBytes t p := by rw [frameBytes, h4]; rfl
  have hheader := rxBytes_incomplete [t, a, b, c]
    (s := { s with ra := { s.ra with state := .readHeader, q := [0xAA, 0x55] } }) nofun (.inl (Nat.lt_succ_self 6))
  rw [htail, rxBytes, rxByte_marker hs hq, andThen_next, rxBytes_append, hheader, andThen_next]
  exact rxBytes_from_last_header_byte (s := State.receive [t, a, b, c]
    { s with ra := { s.ra with state := .readHeader, q := [0xAA, 0x55] } }) rfl rfl hframe hmax

/-! ## The bytes before a frame and the first byte of its marker -/

theorem findMarker_append_first {g : List Byte}
    (h : ∀ j : Nat, j < g.length → ¬ (g[j]? = some 0xAA ∧ g[j + 1]? = some 0x55)) :
    findMarker (g ++ [0xAA]) = none := by
  refine (findMarker_none_iff _).2 fun j ⟨h0, h1⟩ => ?_
  rcases Nat.lt_trichotomy (j + 1) g.length with hlt | heq | hgt
  · rw [List.getElem?_append_left (Nat.lt_of_succ_lt hlt)] at h0
    rw [List.getElem?_append_left hlt] at h1
    exact h j (Nat.lt_of_succ_lt hlt) ⟨h0, h1⟩
  · rw [heq, List.getElem?_concat_length] at h1
    exact absurd h1 (by decide)
  · rw [List.getElem?_eq_none (by simpa using hgt)] at h1
    cases h1

/-- Settles O12: the first byte of the marker is kept with all bytes before it dropped, and the rest of the frame runs its
command. -/
theorem frameAfterGarbageRunsOnce : Obligations.FrameAfterGarbageRunsOnce := by
  intro s garbage t p hs hq hmax hnone
  have hfinal : (garbage ++ [0xAA]).getLast? = some (0xAA : Byte) := List.getLast?_concat
  have hdropped : droppedCount (garbage ++ [0xAA]) = garbage.length := by
    rw [droppedCount, keptBytes_of_final hfinal, List.length_append]
    exact Nat.add_sub_cancel _ _
  obtain ⟨reports, hall, hsum, hrun⟩ :=
    rxBytes_without_marker (garbage ++ [0xAA]) hs hq (findMarker_append_first hnone)
  rw [keptTail_of_final hfinal] at hrun
  obtain ⟨ra, hstate, hempty, htail⟩ := rxBytes_frame_tail (t := t)
    (s := { s with ra := { s.ra with q := [0xAA] }, out := s.out ++ reports }) hs rfl hmax
  refine ⟨ra, reports, hstate, hempty, hall, hsum.trans hdropped, ?_⟩
  have hsplit : garbage ++ frameBytes t p = garbage ++ [0xAA] ++ (frameBytes t p).tail := by
    rw [List.append_assoc]
    rfl
  rw [hsplit, rxBytes_append, hrun, andThen_next, htail]

end Sys2Proof.Machine
end

section
/-! What a drawing command does on an enabled screen, one equation per case (43_commands R185 to R188). -/

namespace Sys2Proof.Machine

/-- `valid(x, y, w, h)` with the packed formats named (41_framebuffer R131). -/
theorem validRect_iff_named (ss : ScreenState) (x y w h : Nat) :
    ss.validRect x y w h = true ↔
      1 ≤ w ∧ 1 ≤ h ∧ x + w ≤ ss.width.toNat ∧ y + h ≤ ss.height.toNat ∧
        ((ss.fmt = .mono ∨ ss.fmt = .monoInv) → x % 8 = 0 ∧ (w % 8 = 0 ∨ x + w = ss.width.toNat)) := by
  rw [validRect_iff, isPacked_iff]

theorem exec_setWindow_of_disabled {s : State} (hen : s.ss.enabled = false) (p : Payload RectArgs) :
    exec (.setWindow p) s = .next s := by
  show execSetWindow p s = .next s
  exact whenEnabled_of_disabled hen

theorem exec_drawPoint_of_disabled {s : State} (hen : s.ss.enabled = false) (p : Payload PointArgs) :
    exec (.drawPoint p) s = .next s := by
  show execDrawPoint p s = .next s
  exact whenEnabled_of_disabled hen

section Enabled

variable {s : State} (hen : s.ss.enabled = true)
include hen

theorem exec_setWindow_of_enabled (p : Payload RectArgs) :
    exec (.setWindow p) s = withFixedPart 0x02 p s fun r _ s => setWindowThen r s .next := by
  show execSetWindow p s = _
  exact whenEnabled_of_enabled hen

theorem exec_setWindow_short (b : List Byte) :
    exec (.setWindow (.short b)) s = .next { s with out := s.out ++ [.err (.bufferShortfall 0x02 b.length)] } :=
  exec_setWindow_of_enabled hen (.short b)

theorem exec_setWindow_valid {r : RectArgs} (rest : List Byte)
    (hv : s.ss.validRect r.x.toNat r.y.toNat r.w.toNat r.h.toNat = true) :
    exec (.setWindow (.full r rest)) s =
      .next { s with win := windowOf s.ss r.x.toNat r.y.toNat r.w.toNat r.h.toNat } :=
  (exec_setWindow_of_enabled hen (.full r rest)).trans (if_pos hv)

theorem exec_setWindow_invalid {r : RectArgs} (rest : List Byte)
    (hv : ¬ s.ss.validRect r.x.toNat r.y.toNat r.w.toNat r.h.toNat = true) :
    exec (.setWindow (.full r rest)) s =
      .next { s with out := s.out ++ [.err (.invalidWindow r.x.toNat r.y.toNat r.w.toNat r.h.toNat)] } :=
  (exec_setWindow_of_enabled hen (.full r rest)).trans (if_neg hv)

theorem exec_write_of_enabled (data : List Byte) :
    exec (.write data) s = andThen (s.writeData data) fun u => .next (u.notify .frame) := by
  show execWrite data s = _
  exact whenEnabled_of_enabled hen

theorem exec_drawPoint_of_enabled (p : Payload PointArgs) :
    exec (.drawPoint p) s =
      withFixedPart 0x05 p s fun a _ s => drawPointThen a s fun u => .next (u.notify .frame) := by
  show execDrawPoint p s = _
  exact whenEnabled_of_enabled hen

theorem exec_drawPoint_short (b : List Byte) :
    exec (.drawPoint (.short b)) s = .next { s with out := s.out ++ [.err (.bufferShortfall 0x05 b.length)] } :=
  exec_drawPoint_of_enabled hen (.short b)

theorem exec_drawPoint_outside {a : PointArgs} (rest : List Byte)
    (h : s.ss.width.toNat ≤ a.x.toNat ∨ s.ss.height.toNat ≤ a.y.toNat) :
    exec (.drawPoint (.full a rest)) s =
      .next { s with out := s.out ++ [.err (.invalidPoint a.x.toNat a.y.toNat)] } :=
  (exec_drawPoint_of_enabled hen (.full a rest)).trans (if_pos h)

theorem exec_drawPoint_inside {a : PointArgs} (rest : List Byte) {u : State} (hx : a.x.toNat < s.ss.width.toNat)
    (hy : a.y.toNat < s.ss.height.toNat) (h : s.storePixel a.x.toNat a.y.toNat a.color = .next u) :
    exec (.drawPoint (.full a rest)) s = .next (u.notify .frame) := by
  rw [exec_drawPoint_of_enabled hen, withFixedPart_full]
  exact drawPointThen_eq_next.2 (.inl ⟨⟨hx, hy⟩, u, h, rfl⟩)

end Enabled

/-- Settles O18, by the check order of 43_commands R181. -/
theorem setWindowFollowsItsRules : Obligations.SetWindowFollowsItsRules := by
  intro s p
  dsimp only
  by_cases hoff : s.ss.enabled = false
  · rw [if_pos hoff, exec_setWindow_of_disabled hoff]
  have hen := Bool.eq_true_of_not_eq_false hoff
  rw [if_neg hoff]
  split_ifs with hshort hv
  · rw [parseRect_short hshort, exec_setWindow_short hen]
  · obtain ⟨r, rest, hp, hx, hy, hw, hh, -⟩ := parseRect_full (Nat.le_of_not_lt hshort)
    rw [← hx, ← hy, ← hw, ← hh] at hv ⊢
    rw [hp, exec_setWindow_valid hen rest ((validRect_iff_named _ _ _ _ _).2 hv)]
    rfl
  · obtain ⟨r, rest, hp, hx, hy, hw, hh, -⟩ := parseRect_full (Nat.le_of_not_lt hshort)
    rw [← hx, ← hy, ← hw, ← hh] at hv ⊢
    rw [hp, exec_setWindow_invalid hen rest (mt (validRect_iff_named _ _ _ _ _).1 hv)]

/-- Settles O23, by the check order of 43_commands R181; the stores of a point in range are `State.storePixel_next`. -/
theorem drawPointFollowsItsRules : Obligations.DrawPointFollowsItsRules := by
  intro s p
  dsimp only
  by_cases hoff : s.ss.enabled = false
  · rw [if_pos hoff, exec_drawPoint_of_disabled hoff]
  have hen := Bool.eq_true_of_not_eq_false hoff
  rw [if_neg hoff]
  split_ifs with hshort hout
  · rw [parsePoint_short hshort, exec_drawPoint_short hen]
  · obtain ⟨a, rest, hp, hx, hy, -⟩ := parsePoint_full (Nat.le_of_not_lt hshort)
    rw [← hx, ← hy] at hout ⊢
    rw [hp, exec_drawPoint_outside hen rest hout]
  · obtain ⟨a, rest, hp, hx, hy, hcolor, -⟩ := parsePoint_full (Nat.le_of_not_lt hshort)
    rw [← hx, ← hy] at hout ⊢
    rw [← hcolor]
    have hxin := Nat.lt_of_not_le (mt .inl hout)
    have hyin := Nat.lt_of_not_le (mt .inr hout)
    obtain ⟨m, hm, hread⟩ := State.storePixel_next s a.x.toNat a.y.toNat a.color hxin hyin
    refine ⟨m, ?_, hread⟩
    rw [hp, exec_drawPoint_inside hen rest hxin hyin hm]
    rfl

end Sys2Proof.Machine
end

section
/-! The window of a rectangle on a byte format, and the order of a window's bytes (41_framebuffer R132 to R135). -/

namespace Sys2Proof.Machine

theorem stride_of_bytes {ss : ScreenState} {n : Nat} (hc : formatClass ss.fmt = .bytes n) :
    ss.stride = n * ss.width.toNat := by
  simp only [ScreenState.stride, rowBytes, hc]

theorem stride_of_packed {ss : ScreenState} (hc : formatClass ss.fmt = .packed) :
    ss.stride = (ss.width.toNat + 7) / 8 := by
  simp only [ScreenState.stride, rowBytes, hc, ceilDiv]

theorem colOff_of_bytes {f : Format} {n : Nat} (hc : formatClass f = .bytes n) (x : Nat) : colOff f x = n * x := by
  simp only [colOff, hc]

theorem winRowOf_of_bytes {f : Format} {n : Nat} (hc : formatClass f = .bytes n) (w : Nat) :
    winRowOf f w = n * w := by
  simp only [winRowOf, hc]

/-- On a byte format the bytes right of a rectangle inside the screen and below it are those of the columns and of the
rows left over (41_framebuffer R133). -/
theorem windowOf_back_of_bytes {ss : ScreenState} {x y w h n : Nat} (hc : formatClass ss.fmt = .bytes n)
    (hh : 1 ≤ h) (hx : x + w ≤ ss.width.toNat) (hy : y + h ≤ ss.height.toNat) :
    (windowOf ss x y w h).back =
      n * ss.width.toNat * (ss.height.toNat - y - h) + n * (ss.width.toNat - x - w) := by
  obtain ⟨right, hW⟩ := Nat.exists_eq_add_of_le hx
  obtain ⟨below, hH⟩ := Nat.exists_eq_add_of_le hy
  obtain ⟨k, rfl⟩ := Nat.exists_eq_add_of_le' hh
  have hright : ss.width.toNat - x - w = right := by omega
  have hbelow : ss.height.toNat - y - (k + 1) = below := by omega
  have hstride := stride_of_bytes hc
  have hlen : ss.fbLen = ss.stride * ss.height.toNat := rfl
  simp only [windowOf, colOff_of_bytes hc, winRowOf_of_bytes hc, hright, hbelow, hlen, hstride, Nat.add_sub_cancel]
  refine Nat.sub_eq_of_eq_add ?_
  rw [hH, hW]
  ring

/-- Settles O19: the formulas of 41_framebuffer R133 with the rows and columns of a byte format. -/
theorem byteWindowHasSourceFormulas : Obligations.ByteWindowHasSourceFormulas := by
  intro s r rest n hen hc hw hh hx hy
  have hpacked : ¬ isPacked s.ss.fmt = true := by simp [isPacked, hc]
  have hv := (validRect_iff s.ss r.x.toNat r.y.toNat r.w.toNat r.h.toNat).2
    ⟨hw, hh, hx, hy, fun h => absurd h hpacked⟩
  refine ⟨_, exec_setWindow_valid hen rest hv, ?_, ?_, windowOf_back_of_bytes hc hh hx hy, rfl⟩
  · simp only [windowOf, stride_of_bytes hc, colOff_of_bytes hc]
  · simp only [windowOf, stride_of_bytes hc, winRowOf_of_bytes hc, Nat.mul_sub]

/-- The ring end is the byte after the last position of the linear order. -/
theorem Geometry.ringEnd_eq {s : State} (g : Geometry s) : s.ringEnd = s.addr (s.capacity - 1) + 1 := by
  have hrow := g.rowPos
  have hlast : s.capacity - 1 = (s.winHeight - 1) * s.winRow + (s.winRow - 1) := by
    rw [State.capacity_eq, State.winHeight_eq, Nat.add_sub_cancel, Nat.succ_mul]
    omega
  rw [hlast, Geometry.addr_row (by omega), g.ringEnd]
  omega

theorem Geometry.addr_inWset {s : State} (g : Geometry s) {k : Nat} (hk : k < s.capacity) : InWset s (s.addr k) :=
  (g.inWset_iff _).2 ⟨k, hk, rfl⟩

/-- Settles O25, by the geometry of a window in order. -/
theorem windowOrderIsABijection : Obligations.WindowOrderIsABijection := fun _ h =>
  have g := h.geometry
  ⟨fun _ hk => ⟨g.addr_inWset hk, g.lin_addr hk⟩, fun _ ha => g.cursor_position ha, g.ringEnd_eq⟩

end Sys2Proof.Machine
end

section
/-! A write of exactly the window's capacity (41_framebuffer R138). -/

namespace Sys2Proof.Machine

/-- What a write of one capacity of data from position `k` leaves in the memory: each position of the window holds one
byte of the data, in ring order, and no byte outside the window has changed. -/
structure RingFill (s : State) (k : Nat) (data : List Byte) (m : Memory) : Prop where
  stored : ∀ (j : Nat) (hj : j < data.length), m.read (s.addr ((k + j) % s.capacity)) = data[j]
  kept : ∀ a, ¬ InWset s a → m.read a = s.byteAt a

/-- From position `k` every position is at most one turn of the ring away. -/
theorem exists_add_mod_eq {k i n : Nat} (hk : k < n) (hi : i < n) : ∃ j, j < n ∧ (k + j) % n = i := by
  rcases Nat.lt_or_ge i k with h | h
  · refine ⟨i + n - k, by omega, ?_⟩
    rw [show k + (i + n - k) = i + n by omega, Nat.add_mod_right, Nat.mod_eq_of_lt hi]
  · refine ⟨i - k, by omega, ?_⟩
    rw [Nat.add_sub_cancel' h, Nat.mod_eq_of_lt hi]

/-- The data and the bytes outside the window fix every byte of the memory. -/
theorem RingFill.read_eq {s : State} {k : Nat} {data : List Byte} {m m' : Memory} (g : Geometry s)
    (hk : k < s.capacity) (hlen : data.length = s.capacity) (h : RingFill s k data m) (h' : RingFill s k data m')
    (a : Nat) : m'.read a = m.read a := by
  by_cases ha : InWset s a
  · obtain ⟨i, hi, rfl⟩ := (g.inWset_iff a).1 ha
    obtain ⟨j, hj, rfl⟩ := exists_add_mod_eq hk hi
    have hj' : j < data.length := hlen ▸ hj
    rw [h'.stored j hj', h.stored j hj']
  · rw [h'.kept a ha, h.kept a ha]

/-- A write of one capacity of data ends where it began and is no partial row, so HAVOC does not follow. -/
theorem exec_write_capacity {s : State} {k : Nat} {data : List Byte} (hen : s.ss.enabled = true) (g : Geometry s)
    (hk : k < s.capacity) (hcur : s.win.cursor = s.addr k) (hlen : data.length = s.capacity) :
    ∃ m : Memory, exec (.write data) s = .next { s with fb := m, out := s.out ++ [.notify .frame] } ∧
      RingFill s k data m := by
  obtain ⟨m, d, hm, hring, -⟩ := State.writeData_ring (data := data) g hk hcur
  have hrow : data.length % s.winRow = 0 := by rw [hlen, State.capacity_eq, Nat.mul_mod_left]
  have hhavoc : s.havocs data = false := by simp [State.havocs, hrow]
  obtain ⟨rfl, hstored, hkept⟩ := hring hhavoc
  have hwin : { s.win with cursor := s.addr ((k + data.length) % s.capacity) } = s.win := by
    rw [hlen, Nat.add_mod_right, Nat.mod_eq_of_lt hk, ← hcur]
  rw [hwin] at hm
  have hexec : exec (.write data) s = .next { s with fb := m, out := s.out ++ [.notify .frame] } := by
    rw [exec_write_of_enabled hen, hm, andThen_next]
    rfl
  refine ⟨m, hexec, fun j hj => hstored j hj (by omega), fun a ha => ?_⟩
  exact hkept a fun j _ heq => ha (heq ▸ g.addr_inWset (Nat.mod_lt _ g.capacity_pos))

/-- Settles O28: both writes fill the ring from the same position, and the bytes outside the window are the same. -/
theorem ringFillIsIdempotent : Obligations.RingFillIsIdempotent := by
  intro s data h hen hlen
  have g := h.geometry
  obtain ⟨hk, hcur⟩ := g.cursor_position h.cursor
  obtain ⟨m, hm, hfill⟩ := exec_write_capacity hen g hk hcur.symm hlen
  let t : State := { s with fb := m, out := s.out ++ [.notify .frame] }
  have gt : Geometry t := g.congr rfl rfl
  obtain ⟨m', hm', hfill'⟩ := exec_write_capacity (s := t) hen gt hk hcur.symm hlen
  have hkept : RingFill s (s.lin s.win.cursor) data m' :=
    ⟨hfill'.stored, fun a ha => (hfill'.kept a ha).trans (hfill.kept a ha)⟩
  exact ⟨t, _, hm, hm', rfl, rfl, hfill.read_eq g hk hlen hkept⟩

/-- Byte `col` of row `row` of the window of a rectangle (41_framebuffer R133, R135). -/
theorem addr_of_windowOf {s : State} {x y w h : Nat} (hv : s.ss.validRect x y w h = true)
    (hw : s.win = windowOf s.ss x y w h) {row col : Nat} (hcol : col < winRowOf s.ss.fmt w) :
    s.addr (row * winRowOf s.ss.fmt w + col) = (y + row) * s.stride + colOff s.ss.fmt x + col := by
  obtain ⟨-, -, hrow, -⟩ := windowOf_geometry hv hw
  rw [← hrow] at hcol ⊢
  have hfront : s.win.front = s.stride * y + colOff s.ss.fmt x := by rw [hw]; rfl
  rw [Geometry.addr_row hcol, hfront]
  ring

/-- The bytes of the window of a rectangle, by row and column. -/
theorem inWset_of_windowOf {s : State} {x y w h a : Nat} (hv : s.ss.validRect x y w h = true)
    (hw : s.win = windowOf s.ss x y w h) (ha : InWset s a) :
    ∃ row col, row < h ∧ col < winRowOf s.ss.fmt w ∧ a = (y + row) * s.stride + colOff s.ss.fmt x + col := by
  obtain ⟨g, hheight, hrow, -⟩ := windowOf_geometry hv hw
  obtain ⟨k, hk, rfl⟩ := (g.inWset_iff a).1 ha
  obtain ⟨row, col, hr, hc, rfl⟩ := g.position hk
  rw [hheight] at hr
  rw [hrow] at hc ⊢
  exact ⟨row, col, hr, hc, addr_of_windowOf hv hw hc⟩

/-- Settles O27: the set-window puts the cursor at position 0, and the write fills the ring from there. -/
theorem rasterFillIsExact : Obligations.RasterFillIsExact := by
  intro s r extra data hen hv hlen
  let t : State := { s with win := windowOf s.ss r.x.toNat r.y.toNat r.w.toNat r.h.toNat }
  have hvt : t.ss.validRect r.x.toNat r.y.toNat r.w.toNat r.h.toNat = true := hv
  obtain ⟨g, hheight, hrow, hcur⟩ := windowOf_geometry hvt rfl
  have hcap : data.length = t.capacity := by rw [hlen, State.capacity_eq, hheight, hrow]
  obtain ⟨m, hm, hfill⟩ := exec_write_capacity (s := t) hen g g.capacity_pos hcur hcap
  refine ⟨t, _, exec_setWindow_valid hen extra hv, hm, fun row col hr hc => ?_, fun a ha => ?_, rfl⟩
  · have hpos : row * t.winRow + col < t.capacity := Geometry.position_lt (hheight ▸ hr) (hrow ▸ hc)
    rw [hrow] at hpos
    have hstored := hfill.stored _ (hcap ▸ hpos)
    rw [Nat.zero_add, Nat.mod_eq_of_lt hpos, addr_of_windowOf hvt rfl hc] at hstored
    rw [List.getElem?_eq_getElem (hcap ▸ hpos)]
    exact congrArg some hstored.symm
  · refine hfill.kept a fun hin => ?_
    obtain ⟨row, col, hr, hc, heq⟩ := inWset_of_windowOf hvt rfl hin
    exact ha row col hr hc heq

end Sys2Proof.Machine
end

section
/-! The pixels of the screen after a store of one (42_pixel_format R164, R165, R167). -/

namespace Sys2Proof.Machine

/-- Two numbers of a column below `n` in rows of `n` columns agree just in the row and in the column. -/
theorem mul_add_inj {n a b i j : Nat} (hi : i < n) (hj : j < n) (h : a * n + i = b * n + j) : a = b ∧ i = j := by
  have hrow : ∀ c k, k < n → (c * n + k) / n = c := fun c k hk => by
    rw [Nat.mul_comm, Nat.mul_add_div (Nat.zero_lt_of_lt hk), Nat.div_eq_of_lt hk, Nat.add_zero]
  obtain rfl : a = b := by rw [← hrow a i hi, h, hrow b j hj]
  exact ⟨rfl, Nat.add_left_cancel h⟩

theorem State.pixel_of_outside {s : State} {x y : Nat} (h : ¬ (x < s.ss.width.toNat ∧ y < s.ss.height.toNat)) :
    s.pixel x y = none := if_neg h

theorem State.pixel_of_bytes {s : State} {x y n : Nat} (hc : formatClass s.ss.fmt = .bytes n)
    (hx : x < s.ss.width.toNat) (hy : y < s.ss.height.toNat) :
    s.pixel x y = some (s.memRead (y * s.stride + n * x) n) := by
  simp only [State.pixel, hc, if_pos (And.intro hx hy)]

theorem State.pixel_of_packed {s : State} {x y : Nat} (hc : formatClass s.ss.fmt = .packed)
    (hx : x < s.ss.width.toNat) (hy : y < s.ss.height.toNat) :
    s.pixel x y = some ((s.byteAt (y * s.stride + x / 8)).getLsbD (7 - x % 8)).toNat := by
  simp only [State.pixel, hc, if_pos (And.intro hx hy), BitVec.getLsbD, Nat.toNat_testBit, Nat.shiftRight_eq_div_pow]

/-- The bytes of a pixel of a byte format lie inside its row. -/
theorem State.pixelByte_lt_stride {s : State} {x n i : Nat} (hc : formatClass s.ss.fmt = .bytes n)
    (hx : x < s.ss.width.toNat) (hi : i < n) : n * x + i < s.stride :=
  calc n * x + i < n * (x + 1) := by rw [Nat.mul_succ]; exact Nat.add_lt_add_left hi _
    _ ≤ n * s.ss.width.toNat := Nat.mul_le_mul_left n hx
    _ = s.stride := (stride_of_bytes hc).symm

/-- Different pixels of a byte format share no byte: byte `i` of one is not among the bytes of the other. -/
theorem State.pixelBytes_apart {s : State} {x y x' y' n i : Nat} (hc : formatClass s.ss.fmt = .bytes n)
    (hx : x < s.ss.width.toNat) (hx' : x' < s.ss.width.toNat) (hne : ¬ (x' = x ∧ y' = y)) (hi : i < n) :
    y' * s.stride + n * x' + i < y * s.stride + n * x ∨ y * s.stride + n * x + n ≤ y' * s.stride + n * x' + i := by
  by_contra hshared
  obtain ⟨j, hj⟩ := Nat.exists_eq_add_of_le (Nat.le_of_not_lt (mt .inl hshared))
  have hjn : j < n := by omega
  obtain ⟨hyy, hcol⟩ := mul_add_inj (a := y') (b := y) (State.pixelByte_lt_stride hc hx' hi)
    (State.pixelByte_lt_stride hc hx hjn) (by omega)
  rw [Nat.mul_comm n x', Nat.mul_comm n x] at hcol
  exact hne ⟨(mul_add_inj hi hjn hcol).1, hyy⟩

/-- Different pixels of a packed format lie in different bytes or at different bits of one. -/
theorem State.pixelBit_apart {s : State} {x y x' y' : Nat} (hc : formatClass s.ss.fmt = .packed)
    (hx : x < s.ss.width.toNat) (hx' : x' < s.ss.width.toNat) (hne : ¬ (x' = x ∧ y' = y)) :
    y' * s.stride + x' / 8 ≠ y * s.stride + x / 8 ∨ 7 - x' % 8 ≠ 7 - x % 8 := by
  by_contra hshared
  have hstride : s.stride = (s.ss.width.toNat + 7) / 8 := stride_of_packed hc
  obtain ⟨hyy, hxx⟩ := mul_add_inj (n := s.stride) (a := y') (b := y) (i := x' / 8) (j := x / 8)
    (by omega) (by omega) (by omega)
  omega

/-- On a byte format a pixel reads the same in two memories that agree on its bytes. -/
theorem State.pixel_congr_of_bytes {s : State} {m : Memory} {x y n : Nat} (hc : formatClass s.ss.fmt = .bytes n)
    (h : x < s.ss.width.toNat → ∀ i, i < n →
      m.read (y * s.stride + n * x + i) = s.byteAt (y * s.stride + n * x + i)) :
    ({ s with fb := m } : State).pixel x y = s.pixel x y := by
  by_cases hin : x < s.ss.width.toNat ∧ y < s.ss.height.toNat
  · obtain ⟨hx, hy⟩ := hin
    rw [State.pixel_of_bytes (s := { s with fb := m }) hc hx hy, State.pixel_of_bytes hc hx hy]
    exact congrArg (fun l => some (leNat l)) (List.map_congr_left fun i hi => h hx i (List.mem_range.1 hi))
  · rw [State.pixel_of_outside hin, State.pixel_of_outside (s := { s with fb := m }) hin]

/-- On a packed format a pixel reads the same in two memories that agree on its bit. -/
theorem State.pixel_congr_of_packed {s : State} {m : Memory} {x y : Nat} (hc : formatClass s.ss.fmt = .packed)
    (h : x < s.ss.width.toNat → (m.read (y * s.stride + x / 8)).getLsbD (7 - x % 8) =
      (s.byteAt (y * s.stride + x / 8)).getLsbD (7 - x % 8)) :
    ({ s with fb := m } : State).pixel x y = s.pixel x y := by
  by_cases hin : x < s.ss.width.toNat ∧ y < s.ss.height.toNat
  · obtain ⟨hx, hy⟩ := hin
    rw [State.pixel_of_packed (s := { s with fb := m }) hc hx hy, State.pixel_of_packed hc hx hy]
    exact congrArg (fun b : Bool => some b.toNat) (h hx)
  · rw [State.pixel_of_outside hin, State.pixel_of_outside (s := { s with fb := m }) hin]

/-- The stores of an in-range point: its pixel reads as the colour truncated to the format, every other pixel as before
(42_pixel_format R167). -/
theorem State.storePixel_pixel {s t : State} {x y : Nat} {color : U32} (hx : x < s.ss.width.toNat)
    (hy : y < s.ss.height.toNat) (h : s.storePixel x y color = .next t) :
    t.pixel x y =
        some (match formatClass s.ss.fmt with
          | .bytes n => color.toNat % 256 ^ n
          | .packed => color.toNat % 2) ∧
      ∀ x' y' : Nat, ¬ (x' = x ∧ y' = y) → t.pixel x' y' = s.pixel x' y' := by
  obtain ⟨m, hm, hread⟩ := State.storePixel_next s x y color hx hy
  obtain rfl := Host.Outcome.next.inj (hm.symm.trans h)
  cases hc : formatClass s.ss.fmt with
  | bytes n =>
    simp only [hc] at hread ⊢
    obtain ⟨hstored, hkept⟩ := hread
    refine ⟨?_, fun x' y' hne => State.pixel_congr_of_bytes hc fun hx' i hi => ?_⟩
    · rw [State.pixel_of_bytes (s := { s with fb := m }) hc hx hy]
      exact congrArg some (leNat_map_range n _ _ hstored)
    · exact hkept _ (State.pixelBytes_apart hc hx hx' hne hi)
  | packed =>
    simp only [hc] at hread ⊢
    obtain ⟨hstored, hkept⟩ := hread
    refine ⟨?_, fun x' y' hne => State.pixel_congr_of_packed hc fun hx' => ?_⟩
    · have hbit := (hstored (7 - x % 8) (by omega)).trans (if_pos rfl)
      have hvalue := Nat.toNat_testBit color.toNat 0
      rw [← hbit, Nat.pow_zero, Nat.div_one] at hvalue
      rw [State.pixel_of_packed (s := { s with fb := m }) hc hx hy]
      exact congrArg some hvalue
    · by_cases hsame : y' * s.stride + x' / 8 = y * s.stride + x / 8
      · have hbit := (State.pixelBit_apart hc hx hx' hne).resolve_left (not_not_intro hsame)
        rw [hsame, hstored _ (by omega), if_neg hbit]
      · rw [hkept _ hsame]

/-- Settles O29: the draw-point makes the stores of its point and notifies. -/
theorem drawnPixelReadsBack : Obligations.DrawnPixelReadsBack := by
  intro s a rest hen hx hy
  obtain ⟨m, hm, -⟩ := State.storePixel_next s a.x.toNat a.y.toNat a.color hx hy
  have hpixel := State.storePixel_pixel hx hy hm
  exact ⟨_, exec_drawPoint_inside hen rest hx hy hm, hpixel⟩

end Sys2Proof.Machine
end

section
/-! Rows, padding bits and polarity of the pixel formats (42_pixel_format R160 to R168). -/

namespace Sys2Proof.Machine

theorem rowBytes_of_bytes {f : Format} {b : Nat} (hc : formatClass f = .bytes b) (n : Nat) : rowBytes f n = b * n := by
  simp only [rowBytes, hc]

theorem rowBytes_of_packed {f : Format} (hc : formatClass f = .packed) (n : Nat) : rowBytes f n = (n + 7) / 8 := by
  simp only [rowBytes, hc, ceilDiv]

/-- Settles O31, by the class of each format; the stride and the buffer's length are the definitions of R162. -/
theorem rowsAndBufferSizes : Obligations.RowsAndBufferSizes :=
  ⟨fun n => ⟨rowBytes_of_bytes rfl n, rowBytes_of_bytes rfl n, (rowBytes_of_bytes rfl n).trans (Nat.one_mul n),
    rowBytes_of_packed rfl n, rowBytes_of_packed rfl n⟩, fun _ => ⟨rfl, rfl⟩⟩

theorem State.lit_of_mono {s : State} (hf : s.ss.fmt = .mono) (x y : Nat) :
    s.lit x y = (s.pixel x y).map fun v => decide (v = 1) := by
  simp only [State.lit, hf]

theorem State.lit_of_monoInv {s : State} (hf : s.ss.fmt = .monoInv) (x y : Nat) :
    s.lit x y = (s.pixel x y).map fun v => decide (v = 0) := by
  simp only [State.lit, hf]

/-- Settles O32: a pixel of a packed format is its stored bit, 1 is lit in MONO and 0 in MONO_INV. -/
theorem polarityOfPackedPixels : Obligations.PolarityOfPackedPixels := by
  intro s x y hx hy bit
  have hpixel (hc : formatClass s.ss.fmt = .packed) : s.pixel x y = some bit.toNat := State.pixel_of_packed hc hx hy
  constructor
  · intro hf
    rw [State.lit_of_mono hf, hpixel (congrArg formatClass hf)]
    cases bit <;> rfl
  · intro hf
    rw [State.lit_of_monoInv hf, hpixel (congrArg formatClass hf)]
    cases bit <;> rfl

theorem State.paddingBit_iff (s : State) (a i : Nat) :
    s.paddingBit a i = true ↔ formatClass s.ss.fmt = .packed ∧ s.ss.width.toNat % 8 ≠ 0 ∧
      a % s.stride = s.stride - 1 ∧ i < 8 - s.ss.width.toNat % 8 := by
  simp [State.paddingBit, isPacked, and_assoc]

/-- The bit of a pixel of the screen is no padding bit: in the last byte of a row the pixels hold the bits from
`8 - width % 8` up (42_pixel_format R168). -/
theorem State.pixelBit_not_padding {s : State} {x : Nat} (y : Nat) (hx : x < s.ss.width.toNat) :
    ¬ s.paddingBit (y * s.stride + x / 8) (7 - x % 8) = true := by
  intro hpad
  obtain ⟨hc, hwidth, hlast, hbit⟩ := (State.paddingBit_iff _ _ _).1 hpad
  have hstride : s.stride = (s.ss.width.toNat + 7) / 8 := stride_of_packed hc
  have hcol : x / 8 < s.stride := by omega
  rw [Nat.mul_add_mod_of_lt hcol] at hlast
  omega

/-- The stores of an in-range point keep every padding bit: the one bit they write is its pixel's. -/
theorem State.storePixel_keeps_padding {s t : State} {x y a i : Nat} {color : U32} (hx : x < s.ss.width.toNat)
    (hy : y < s.ss.height.toNat) (h : s.storePixel x y color = .next t) (hpad : s.paddingBit a i = true) :
    (t.byteAt a).getLsbD i = (s.byteAt a).getLsbD i := by
  obtain ⟨m, hm, hread⟩ := State.storePixel_next s x y color hx hy
  obtain rfl := Host.Outcome.next.inj (hm.symm.trans h)
  obtain ⟨hc, -, -, hi⟩ := (State.paddingBit_iff _ _ _).1 hpad
  simp only [hc] at hread
  obtain ⟨hbits, hkept⟩ := hread
  by_cases ha : a = y * s.stride + x / 8
  · subst ha
    have hne : i ≠ 7 - x % 8 := fun hbit => State.pixelBit_not_padding y hx (hbit ▸ hpad)
    exact (hbits i (by omega)).trans (if_neg hne)
  · exact congrArg (fun b : Byte => b.getLsbD i) (hkept a ha)

/-- Settles O30: only the stores of a point in range change the buffer. -/
theorem drawPointKeepsPadding : Obligations.DrawPointKeepsPadding := by
  intro s t p a i h hpad
  rcases whenEnabled_withFixedPart_cases (show execDrawPoint p s = .next t from h) with
    rfl | ⟨e, rfl⟩ | ⟨point, rest, -, hrun⟩
  · rfl
  · rfl
  · rcases drawPointThen_eq_next.1 hrun with ⟨⟨hx, hy⟩, u, hu, hn⟩ | ⟨-, rfl⟩
    · obtain rfl := Host.Outcome.next.inj hn
      exact (State.storePixel_keeps_padding hx hy hu hpad :)
    · rfl

end Sys2Proof.Machine
end

section
/-! The ignored types (43_commands R189). -/

namespace Sys2Proof.Machine

/-- A type that is 0x00 or at least 0x06 selects an ignored row, which keeps the state (30_encoding R85). -/
theorem exec_decodeInbound_of_ignored {t : Byte} (ht : t.toNat = 0 ∨ 6 ≤ t.toNat) (p : List Byte) (s : State) :
    exec (decodeInbound t p) s = .next s := by
  have hne {c : Byte} (hlo : 1 ≤ c.toNat) (hhi : c.toNat ≤ 5) : t ≠ c := by
    rintro rfl
    omega
  refine decodeInbound_cases (fun i => exec i s = .next s) t p ?init ?setWindow ?write ?setWindowWrite ?drawPoint
    (fun _ => rfl) (fun _ => rfl) (fun _ => rfl) (fun _ => rfl) (fun _ => rfl) (fun _ => rfl) (fun _ => rfl)
  case init | setWindow | write | setWindowWrite | drawPoint =>
    exact fun h => absurd h (hne (by decide) (by decide))

/-- The first byte of a marker is kept (40_reassembler R112). -/
theorem rxByte_first_of_marker {s : State} (hs : s.ra.state = .seekSync) (hq : s.ra.q = []) :
    rxByte 0xAA s = .next { s with ra := { s.ra with q := [0xAA] } } := by
  have hreceived : s.ra.q ++ [0xAA] = [0xAA] := congrArg (· ++ [0xAA]) hq
  rw [rxByte_without_marker hs (by rw [hreceived]; rfl), hreceived]
  simp [State.withoutMarker, keptTail, droppedCount, keptBytes, discardOutput, discardReport]

/-- A frame of an accepted length received from an empty SeekSync runs its command once, nothing dropped (40_reassembler
R112 to R117). -/
theorem rxBytes_frame {t : Byte} {p : List Byte} {s : State} (hs : s.ra.state = .seekSync) (hq : s.ra.q = [])
    (hmax : p.length ≤ s.cfg.maxPayload.toNat) : RunsFrame s t p (rxBytes (frameBytes t p) s) := by
  have hsplit : frameBytes t p = 0xAA :: (frameBytes t p).tail := rfl
  rw [hsplit, rxBytes, rxByte_first_of_marker hs hq, andThen_next]
  exact rxBytes_frame_tail (s := { s with ra := { s.ra with q := [0xAA] } }) hs rfl hmax

/-- Settles O24: the ignored rows are the identity, and a whole frame runs its command once. -/
theorem ignoredTypesDoNothing : Obligations.IgnoredTypesDoNothing := by
  refine ⟨fun _ _ => ⟨rfl, fun _ => rfl, fun _ => rfl, fun _ => rfl, fun _ => rfl, fun _ => rfl, fun _ => rfl⟩, ?_⟩
  intro s t p ht hmax hs hq
  obtain ⟨ra, hstate, hempty, hrun⟩ := rxBytes_frame (t := t) hs hq hmax
  exact ⟨ra, hstate, hempty, hrun.trans (exec_decodeInbound_of_ignored ht p _)⟩

end Sys2Proof.Machine
end

section
/-! INIT, one equation per case of its checks (43_commands R182 to R184). -/

namespace Sys2Proof.Machine

theorem exec_init_short (b : List Byte) (s : State) :
    exec (.init (.short b)) s = .next { s with out := s.out ++ [.err (.bufferShortfall 0x01 b.length)] } := rfl

theorem exec_init_full (a : InitArgs) (rest : List Byte) (s : State) :
    exec (.init (.full a rest)) s = s.initScreen a := rfl

/-- The field checks in their order, on a format byte that has a format (43_commands R182). -/
theorem State.initScreen_of_format {a : InitArgs} {s : State} {fmt : Format}
    (hf : formatOfCode s.cfg a.fmtCode = some fmt) :
    s.initScreen a =
      if 3 < a.rotCode.toNat then s.rejectInit (.invalidInit (.rotation a.rotCode))
      else if a.width.toNat = 0 ∨ a.height.toNat = 0 then s.rejectInit (.invalidInit (.size a.width a.height))
      else if s.cfg.maxFbBytes < initBytesNeeded fmt a then
        s.rejectInit (.invalidInit (.capacity (initBytesNeeded fmt a)))
      else s.acceptInit fmt a := by
  simp only [State.initScreen, hf]

theorem State.initScreen_of_no_format {a : InitArgs} {s : State} (hf : formatOfCode s.cfg a.fmtCode = none) :
    s.initScreen a = s.rejectInit (.unsupportedFormat a.fmtCode) := by
  simp only [State.initScreen, hf]

/-- The bound `x1` or `y1` of the full-screen window of a screen that is not empty (41_framebuffer R134). -/
theorem sub_one_eq_ofNat {v : U16} (h : v.toNat ≠ 0) : v - 1 = BitVec.ofNat 16 (v.toNat - 1) := by
  bv_omega

/-- Settles O16, by the checks in their order. -/
theorem initFollowsItsRules : Obligations.InitFollowsItsRules := by
  intro s p
  dsimp only
  by_cases hshort : p.length < 7
  · rw [if_pos hshort, parseInit_short hshort, exec_init_short]
  obtain ⟨a, rest, hp, hw, hh, hcode, hrot, hindev, -⟩ := parseInit_full (Nat.le_of_not_lt hshort)
  rw [if_neg hshort, hp, exec_init_full, ← hw, ← hh, ← hcode, ← hrot, ← hindev]
  cases hf : formatOfCode s.cfg a.fmtCode with
  | none => exact (State.initScreen_of_no_format hf).trans (State.rejectInit_eq _ s)
  | some fmt =>
    dsimp only
    rw [State.initScreen_of_format hf, initBytesNeeded]
    split_ifs with hrotation hsize hcapacity
    · exact State.rejectInit_eq _ s
    · rw [State.rejectInit_eq, BitVec.ofNat_toNat, BitVec.ofNat_toNat, BitVec.setWidth_eq, BitVec.setWidth_eq]
    · exact State.rejectInit_eq _ s
    · obtain ⟨hwidth, hheight⟩ := not_or.1 hsize
      refine ⟨{ cells := [], draw := s.draws }, s.draws + 1, ?_⟩
      simp only [State.acceptInit_eq, screenOf, fullScreen, sub_one_eq_ofNat hwidth, sub_one_eq_ofNat hheight,
        BitVec.ofNat_toNat, BitVec.setWidth_eq]

end Sys2Proof.Machine
end

section
/-! WRITE and SET_WINDOW_WRITE on an enabled screen: the data goes round the window's ring (41_framebuffer R136, R139;
43_commands R186, R187). -/

namespace Sys2Proof.Machine

/-- The memory `m` after a write of `data` from position `k` of the window's ring: the last byte to reach a position stays
and every other byte is kept (41_framebuffer R136); after HAVOC the bytes outside the window are kept (R139). -/
structure WrittenMemory (s : State) (k : Nat) (data : List Byte) (m : Memory) : Prop where
  stored : s.havocs data = false → ∀ (j : Nat) (hj : j < data.length), data.length ≤ j + s.capacity →
    m.read (s.addr ((k + j) % s.capacity)) = data[j]
  kept : s.havocs data = false → ∀ a, (∀ j, j < data.length → a ≠ s.addr ((k + j) % s.capacity)) →
    m.read a = s.byteAt a
  outside : s.havocs data = true → ∀ a, ¬ InWset s a → m.read a = s.byteAt a

/-- A write on a window in order and its notification. -/
theorem writeData_notify_ring (data : List Byte) {s : State} {k : Nat} (g : Geometry s) (hk : k < s.capacity)
    (hcur : s.win.cursor = s.addr k) :
    ∃ (m : Memory) (d : Nat),
      andThen (s.writeData data) (fun u => .next (u.notify .frame)) = .next { s with
        fb := m, draws := d, win := { s.win with cursor := s.addr ((k + data.length) % s.capacity) },
        out := s.out ++ [.notify .frame] } ∧ WrittenMemory s k data m := by
  obtain ⟨m, d, hrun, hring, hhavoc⟩ := State.writeData_ring (data := data) g hk hcur
  refine ⟨m, d, ?_, fun h => ?_, fun h => ?_, fun h => ?_⟩
  · rw [hrun, andThen_next]
    rfl
  · exact (hring h).2.1
  · exact (hring h).2.2
  · exact (hhavoc h).2.2.2

theorem State.havocs_eq_false_iff (s : State) (data : List Byte) :
    s.havocs data = false ↔
      ¬ ((s.ss.fmt = .mono ∨ s.ss.fmt = .monoInv) ∧ data.length % s.winRow ≠ 0 ∧ s.cfg.monoPartial = .havoc) := by
  rw [← State.havocs_iff, Bool.not_eq_true]

theorem exec_write_of_disabled {s : State} (hen : s.ss.enabled = false) (data : List Byte) :
    exec (.write data) s = .next s := by
  show execWrite data s = .next s
  exact whenEnabled_of_disabled hen

/-- Settles O20: the cursor of a window in order is a position of its ring, and the write starts there. -/
theorem writeFollowsItsRules : Obligations.WriteFollowsItsRules := by
  intro s data h
  by_cases hoff : s.ss.enabled = false
  · rw [if_pos hoff, exec_write_of_disabled hoff]
  rw [if_neg hoff]
  obtain ⟨hk, hcur⟩ := h.geometry.cursor_position h.cursor
  obtain ⟨m, d, hrun, hm⟩ := writeData_notify_ring data h.geometry hk hcur.symm
  refine ⟨m, d, ?_, fun hn => ?_, fun hv => ?_⟩
  · exact (exec_write_of_enabled (Bool.eq_true_of_not_eq_false hoff) data).trans hrun
  · have hring := (s.havocs_eq_false_iff data).2 hn
    exact ⟨hm.stored hring, hm.kept hring⟩
  · exact hm.outside ((s.havocs_iff data).2 hv)

/-! ## The window of a rectangle and the data after it -/

/-- The offset of position `j`, taken round the ring, of the window of a rectangle (41_framebuffer R133, R135). -/
def ScreenState.ringOffset (ss : ScreenState) (x y w h j : Nat) : Nat :=
  let row := winRowOf ss.fmt w
  ss.stride * y + colOff ss.fmt x + j % (h * row) / row * ss.stride + j % (h * row) % row

section Rectangle

variable {s : State} {x y w h : Nat} (hv : s.ss.validRect x y w h = true) (hw : s.win = windowOf s.ss x y w h)
include hv hw

theorem capacity_of_windowOf : s.capacity = h * winRowOf s.ss.fmt w := by
  obtain ⟨-, hheight, hrow, -⟩ := windowOf_geometry hv hw
  rw [State.capacity_eq, hheight, hrow]

theorem addr_ring_of_windowOf (j : Nat) : s.addr (j % s.capacity) = s.ss.ringOffset x y w h j := by
  obtain ⟨-, -, hrow, -⟩ := windowOf_geometry hv hw
  have hfront : s.win.front = s.stride * y + colOff s.ss.fmt x := by rw [hw]; rfl
  rw [State.addr, capacity_of_windowOf hv hw, hrow, hfront]
  rfl

/-- Every byte of a rectangle's window is a position of its ring. -/
theorem exists_ring_of_inWset {a : Nat} (ha : InWset s a) :
    ∃ j, j < h * winRowOf s.ss.fmt w ∧ a = s.ss.ringOffset x y w h j := by
  obtain ⟨g, -, -, -⟩ := windowOf_geometry hv hw
  obtain ⟨j, hj, rfl⟩ := (g.inWset_iff a).1 ha
  refine ⟨j, capacity_of_windowOf hv hw ▸ hj, ?_⟩
  rw [← addr_ring_of_windowOf hv hw, Nat.mod_eq_of_lt hj]

end Rectangle

theorem exec_setWindowWrite_of_disabled {s : State} (hen : s.ss.enabled = false) (p : Payload RectArgs) :
    exec (.setWindowWrite p) s = .next s := by
  show execSetWindowWrite p s = .next s
  exact whenEnabled_of_disabled hen

section Enabled

variable {s : State} (hen : s.ss.enabled = true)
include hen

theorem exec_setWindowWrite_of_enabled (p : Payload RectArgs) :
    exec (.setWindowWrite p) s = withFixedPart 0x04 p s fun r data s =>
      setWindowThen r s fun s => andThen (s.writeData data) fun u => .next (u.notify .frame) := by
  show execSetWindowWrite p s = _
  exact whenEnabled_of_enabled hen

theorem exec_setWindowWrite_short (b : List Byte) :
    exec (.setWindowWrite (.short b)) s = .next { s with out := s.out ++ [.err (.bufferShortfall 0x04 b.length)] } :=
  exec_setWindowWrite_of_enabled hen (.short b)

theorem exec_setWindowWrite_valid {r : RectArgs} (data : List Byte)
    (hv : s.ss.validRect r.x.toNat r.y.toNat r.w.toNat r.h.toNat = true) :
    exec (.setWindowWrite (.full r data)) s =
      andThen (({ s with win := windowOf s.ss r.x.toNat r.y.toNat r.w.toNat r.h.toNat } : State).writeData data)
        fun u => .next (u.notify .frame) :=
  (exec_setWindowWrite_of_enabled hen (.full r data)).trans (if_pos hv)

theorem exec_setWindowWrite_invalid {r : RectArgs} (data : List Byte)
    (hv : ¬ s.ss.validRect r.x.toNat r.y.toNat r.w.toNat r.h.toNat = true) :
    exec (.setWindowWrite (.full r data)) s =
      .next { s with out := s.out ++ [.err (.invalidWindow r.x.toNat r.y.toNat r.w.toNat r.h.toNat)] } :=
  (exec_setWindowWrite_of_enabled hen (.full r data)).trans (if_neg hv)

end Enabled

/-- Settles O22: the window of a valid rectangle is in order with its cursor at position 0, where the write starts. -/
theorem setWindowWriteFollowsItsRules : Obligations.SetWindowWriteFollowsItsRules := by
  intro s p
  dsimp only
  by_cases hoff : s.ss.enabled = false
  · rw [if_pos hoff, exec_setWindowWrite_of_disabled hoff]
  have hen := Bool.eq_true_of_not_eq_false hoff
  rw [if_neg hoff]
  by_cases hshort : p.length < 8
  · rw [if_pos hshort, parseRect_short hshort, exec_setWindowWrite_short hen]
  obtain ⟨r, data, hp, hx, hy, hw, hh, hdata⟩ := parseRect_full (Nat.le_of_not_lt hshort)
  rw [if_neg hshort, hp, ← hx, ← hy, ← hw, ← hh, ← hdata]
  by_cases hv : s.ss.validRect r.x.toNat r.y.toNat r.w.toNat r.h.toNat = true
  · rw [if_pos ((validRect_iff_named _ _ _ _ _).1 hv), exec_setWindowWrite_valid hen data hv]
    let t : State := { s with win := windowOf s.ss r.x.toNat r.y.toNat r.w.toNat r.h.toNat }
    obtain ⟨g, -, hrow, hcur⟩ := windowOf_geometry (s := t) hv rfl
    obtain ⟨m, d, hrun, hstored, hkept, houtside⟩ := writeData_notify_ring data g g.capacity_pos hcur
    simp only [Nat.zero_add, addr_ring_of_windowOf (s := t) hv rfl] at hrun hstored hkept
    rw [capacity_of_windowOf (s := t) hv rfl] at hstored
    rw [t.havocs_eq_false_iff data, hrow] at hstored hkept
    rw [t.havocs_iff data, hrow] at houtside
    refine ⟨m, d, hrun, fun hn => ⟨hstored hn, hkept hn⟩, fun hhavoc a ha => houtside hhavoc a fun hin => ?_⟩
    obtain ⟨k, hk, rfl⟩ := exists_ring_of_inWset (s := t) hv rfl hin
    exact ha k hk rfl
  · rw [if_neg (mt (validRect_iff_named _ _ _ _ _).2 hv), exec_setWindowWrite_invalid hen data hv]

end Sys2Proof.Machine
end

section
/-! The events of the Event Encoder written out (44_events R210 to R217): the gate, the throttle, and the bytes of each
frame. -/

namespace Sys2Proof.Machine

/-! ## Frames -/

/-- The low two bytes of a field, as slices of its bits (00_scope R19). -/
theorem leBytes_two_eq_slices {w : Nat} (v : BitVec w) :
    leBytes 2 v.toNat = [v.extractLsb' 0 8, v.extractLsb' 8 8] := by
  have hhigh : BitVec.ofNat 8 (v.toNat / 256) = v.extractLsb' 8 8 := by
    rw [BitVec.extractLsb', Nat.shiftRight_eq_div_pow]
  show [v.extractLsb' 0 8, BitVec.ofNat 8 (v.toNat / 256)] = _
  rw [hhigh]

theorem boolByte_eq_ofNat (b : Bool) : boolByte b = BitVec.ofNat 8 b.toNat := by cases b <;> rfl

theorem keyStateByte_eq_ofNat (pressed rep : Bool) :
    keyStateByte pressed rep = BitVec.ofNat 8 (2 * rep.toNat + pressed.toNat) := by
  cases pressed <;> cases rep <;> rfl

/-- A frame with the length of its payload read off its instruction (30_encoding R80, R82). -/
theorem encode_eq (i : Instr) :
    encode i = 0xAA :: 0x55 :: typeByte i :: (leBytes 4 i.payloadSize ++ payloadBytes i) := by
  rw [encode, frameBytes, payloadBytes_length]

theorem encode_evKeyboard (pressed rep : Bool) (keycode : U16) (modifiers : U32) (ascii : Byte) :
    encode (.evKeyboard pressed rep keycode modifiers ascii) = [0xAA, 0x55, 0x00, 6, 0, 0, 0,
      BitVec.ofNat 8 (2 * rep.toNat + pressed.toNat), keycode.extractLsb' 0 8, keycode.extractLsb' 8 8,
      modifiers.extractLsb' 0 8, modifiers.extractLsb' 8 8, ascii] := by
  simp only [encode_eq, Instr.payloadSize, payloadBytes, leBytes_two_eq_slices, keyStateByte_eq_ofNat]
  rfl

theorem encode_evTouch (x y : U16) (down : Bool) :
    encode (.evTouch x y down) = [0xAA, 0x55, 0x01, 5, 0, 0, 0, x.extractLsb' 0 8, x.extractLsb' 8 8,
      y.extractLsb' 0 8, y.extractLsb' 8 8, BitVec.ofNat 8 down.toNat] := by
  simp only [encode_eq, Instr.payloadSize, payloadBytes, leBytes_two_eq_slices, boolByte_eq_ofNat]
  rfl

theorem encode_evMouse (x y : U16) (wheel buttons : Byte) :
    encode (.evMouse x y wheel buttons) = [0xAA, 0x55, 0x02, 6, 0, 0, 0, x.extractLsb' 0 8, x.extractLsb' 8 8,
      y.extractLsb' 0 8, y.extractLsb' 8 8, wheel, buttons] := by
  simp only [encode_eq, Instr.payloadSize, payloadBytes, leBytes_two_eq_slices]
  rfl

theorem encode_evButton (index : Byte) (pressed : Bool) :
    encode (.evButton index pressed) = [0xAA, 0x55, 0x03, 2, 0, 0, 0, index, BitVec.ofNat 8 pressed.toNat] := by
  simp only [encode_eq, Instr.payloadSize, payloadBytes, boolByte_eq_ofNat]
  rfl

theorem encode_evEncoder (delta : Byte) (pressed : Bool) :
    encode (.evEncoder delta pressed) = [0xAA, 0x55, 0x04, 2, 0, 0, 0, delta, BitVec.ofNat 8 pressed.toNat] := by
  simp only [encode_eq, Instr.payloadSize, payloadBytes, boolByte_eq_ofNat]
  rfl

/-! ## Gate and throttle -/

theorem State.gate_iff (c : InputClass) (s : State) :
    s.gate c = true ↔ s.ss.enabled = true ∧ s.ss.indev.getLsbD (indevBitOf s.cfg c) = true :=
  Bool.and_eq_true_iff

theorem sendGated_eq (c : InputClass) (i : Instr) (s : State) :
    sendGated c i s = .next
      (if s.ss.enabled = true ∧ s.ss.indev.getLsbD (indevBitOf s.cfg c) = true then
        { s with out := s.out ++ [.tx (encode i)] }
      else s) := by
  simp only [sendGated, State.gate_iff]
  split <;> rfl

/-- The time since `t0`, modulo 2^32, in natural numbers (44_events R217, R218). -/
theorem State.elapsed_eq (t0 : U32) (s : State) :
    s.elapsed t0 = (s.now.toNat + 2 ^ 32 - t0.toNat) % 2 ^ 32 := by
  rw [State.elapsed, BitVec.toNat_sub]
  have := t0.isLt
  congr 1
  omega

/-- On registers that are written together the throttle lets through what its rule names: log 13's state is none of
them. -/
theorem State.throttleSends_iff {th : Throttle} (hth : th.lastT.isSome = th.lastBtn.isSome) (btn : Byte) (extra : Bool)
    (s : State) :
    s.throttleSends th btn extra = true ↔ th.lastBtn = none ∨ th.lastBtn ≠ some btn ∨ extra = true ∨
      ∃ t0, th.lastT = some t0 ∧ s.cfg.throttleMs.toNat ≤ s.elapsed t0 := by
  obtain ⟨lastT, lastBtn⟩ := th
  cases lastT with
  | none =>
    obtain rfl : lastBtn = none := by simpa using hth
    simp [State.throttleSends]
  | some t0 => simp [State.throttleSends, or_assoc]

/-- A class's registers after a sent event hold back the same button field until the window has passed. -/
theorem State.throttleSends_mark_iff (s t : State) (last btn : Byte) :
    t.throttleSends (s.throttleMark last) btn false = true ↔
      last ≠ btn ∨ t.cfg.throttleMs.toNat ≤ t.elapsed s.now := by
  rw [State.throttleSends_iff rfl]
  simp [State.throttleMark]

/-! ## The throttled events -/

theorem exec_evTouch_eq (x y : U16) (down : Bool) (s : State) :
    exec (.evTouch x y down) s = .next
      (if s.gate .touch = true ∧ s.throttleSends s.enc.touch (boolByte down) false = true then
        { s with
          enc := { s.enc with touch := s.throttleMark (boolByte down) }
          out := s.out ++ [.tx (encode (.evTouch x y down))] }
      else s) := by
  show execEvTouch x y down s = _
  simp only [execEvTouch, Bool.and_eq_true_iff]
  split <;> rfl

theorem exec_evMouse_eq (x y : U16) (wheel buttons : Byte) (s : State) :
    exec (.evMouse x y wheel buttons) s = .next
      (if s.gate .mouse = true ∧ s.throttleSends s.enc.mouse buttons (decide (wheel ≠ 0)) = true then
        { s with
          enc := { s.enc with mouse := s.throttleMark buttons }
          out := s.out ++ [.tx (encode (.evMouse x y wheel buttons))] }
      else s) := by
  show execEvMouse x y wheel buttons s = _
  simp only [execEvMouse, Bool.and_eq_true_iff]
  split <;> rfl

/-- Settles O34: the gate and the throttle of the touch class are the conditions the rule names. -/
theorem touchEventsThrottle : Obligations.TouchEventsThrottle := by
  intro s x y down henc
  dsimp only
  obtain ⟨htouch, -⟩ := henc
  have hsends := and_congr (s.gate_iff .touch) (s.throttleSends_iff htouch (boolByte down) false)
  simp only [Bool.false_eq_true, false_or, State.elapsed_eq, boolByte_eq_ofNat, and_assoc] at hsends
  rw [exec_evTouch_eq, encode_evTouch, boolByte_eq_ofNat]
  exact ⟨fun h => congrArg _ (if_pos (hsends.2 h)), fun h => congrArg _ (if_neg (mt hsends.1 h))⟩

/-- Settles O35: the gate and the throttle of the mouse class are the conditions the rule names. -/
theorem mouseEventsThrottle : Obligations.MouseEventsThrottle := by
  intro s x y wheel buttons henc
  dsimp only
  obtain ⟨-, hmouse⟩ := henc
  have hsends := and_congr (s.gate_iff .mouse) (s.throttleSends_iff hmouse buttons (decide (wheel ≠ 0)))
  simp only [decide_eq_true_iff, State.elapsed_eq, and_assoc] at hsends
  rw [exec_evMouse_eq, encode_evMouse]
  exact ⟨fun h => congrArg _ (if_pos (hsends.2 h)), fun h => congrArg _ (if_neg (mt hsends.1 h))⟩

/-- A mouse event that adds an output was let through, and marked its registers. -/
theorem exec_evMouse_sent {x y : U16} {wheel buttons : Byte} {s t : State}
    (h : exec (.evMouse x y wheel buttons) s = .next t) (hout : t.out ≠ s.out) :
    s.gate .mouse = true ∧ t = { s with
      enc := { s.enc with mouse := s.throttleMark buttons }
      out := s.out ++ [.tx (encode (.evMouse x y wheel buttons))] } := by
  rw [exec_evMouse_eq] at h
  obtain rfl := Host.Outcome.next.inj h
  split at hout
  next hsends => exact ⟨hsends.1, if_pos hsends⟩
  · exact absurd rfl hout

/-- Settles O36: the second event finds the registers as the first one marked them, and the gate as it was. -/
theorem mouseSendsOncePerWindow : Obligations.MouseSendsOncePerWindow := by
  intro s t x y x' y' wheel buttons buttons' now' h hout hwindow
  obtain ⟨hgate, rfl⟩ := exec_evMouse_sent h hout
  have hinside : ¬ s.cfg.throttleMs.toNat ≤ (now' - s.now).toNat := Nat.not_le_of_lt hwindow
  constructor
  · rw [exec_evMouse_eq, if_neg]
    rintro ⟨-, hsends⟩
    rcases (State.throttleSends_mark_iff s _ _ _).1 hsends with hne | hpassed
    · exact hne rfl
    · exact hinside hpassed
  · intro hne
    rw [exec_evMouse_eq, if_pos ⟨hgate, (State.throttleSends_mark_iff s _ _ _).2 (.inl hne.symm)⟩]
    exact ⟨_, _, rfl, rfl⟩

/-- Settles O33, class by class. -/
theorem unthrottledEventsSend : Obligations.UnthrottledEventsSend := by
  refine ⟨fun s pressed rep keycode modifiers ascii => ?_, fun s index pressed => ?_, fun s delta pressed => ?_⟩
  · rw [← encode_evKeyboard]
    exact sendGated_eq .keyboard _ s
  · rw [← encode_evButton]
    exact sendGated_eq .button _ s
  · rw [← encode_evEncoder]
    exact sendGated_eq .encoder _ s

end Sys2Proof.Machine
end

section
/-! The init-request timer (44_events R218, R219): when it sends, and that nothing else sends its frame. -/

namespace Sys2Proof.Machine

/-- Settles O37: the cases of the timer, the elapsed time in natural numbers. -/
theorem initRequestTimerFollowsItsRule : Obligations.InitRequestTimerFollowsItsRule := by
  intro s
  show execInitRequest s = _
  unfold execInitRequest
  simp only [State.elapsed_eq]
  split_ifs
  · rfl
  · cases s.enc.ireqStart with
    | none => rfl
    | some t0 => dsimp only; split_ifs <;> rfl

/-- The init-request timer is due: it runs, on a disabled screen, and its period has passed (44_events R218). -/
def State.TimerDue (s : State) : Prop :=
  s.ss.enabled = false ∧ ∃ t0, s.enc.ireqStart = some t0 ∧ s.cfg.initReqPeriodMs.toNat ≤ s.elapsed t0

theorem exec_initRequest_of_due {s : State} (h : s.TimerDue) :
    exec .initRequest s = .next { s with
      enc := { s.enc with ireqStart := some s.now }
      out := s.out ++ [.tx (encode .initRequest)] } := by
  obtain ⟨hoff, t0, hstart, hpassed⟩ := h
  show execInitRequest s = _
  simp only [execInitRequest, hoff, hstart, if_pos hpassed]
  rfl

theorem exec_initRequest_of_not_due {s t : State} (h : ¬ s.TimerDue) (ht : exec .initRequest s = .next t) :
    t.out = s.out := by
  replace ht : execInitRequest s = .next t := ht
  unfold execInitRequest at ht
  split at ht
  · obtain rfl := Host.Outcome.next.inj ht
    rfl
  next hon =>
    split at ht
    · obtain rfl := Host.Outcome.next.inj ht
      rfl
    next t0 hstart =>
      rw [if_neg fun hpassed => h ⟨Bool.eq_false_of_not_eq_true hon, t0, hstart, hpassed⟩] at ht
      obtain rfl := Host.Outcome.next.inj ht
      rfl

/-- The input-device mask does not gate the timer (44_events R219). -/
theorem State.TimerDue.setMask {s : State} (h : s.TimerDue) (mask : Byte) :
    State.TimerDue { s with ss := { s.ss with indev := mask } } := h

/-- A Tick that transmits finds the timer due, and transmits the init-request (44_events R218, R219). -/
theorem exec_initRequest_transmits {s t : State} {bytes : List Byte} (hnil : s.out = [])
    (h : exec .initRequest s = .next t) (htx : .tx bytes ∈ t.out) : s.TimerDue ∧ bytes = encode .initRequest := by
  by_cases hdue : s.TimerDue
  · rw [exec_initRequest_of_due hdue] at h
    obtain rfl := Host.Outcome.next.inj h
    exact ⟨hdue, by simpa [hnil] using htx⟩
  · rw [exec_initRequest_of_not_due hdue h, hnil] at htx
    nomatch htx

/-- An outbound instruction sends its own frame or nothing (44_events R210, R220). -/
theorem exec_outbound_sends_encode {i : Instr} {s t : State} (hd : i.direction = .outbound)
    (h : exec i s = .next t) : t.out = s.out ∨ t.out = s.out ++ [.tx (encode i)] := by
  cases i with
  | evKeyboard _ _ _ _ _ | evButton _ _ | evEncoder _ _ =>
    rcases sendGated_eq_next.1 h with ⟨-, rfl⟩ | ⟨-, rfl⟩
    · exact .inr rfl
    · exact .inl rfl
  | evTouch x y down =>
    rw [exec_evTouch_eq] at h
    obtain rfl := Host.Outcome.next.inj h
    split
    · exact .inr rfl
    · exact .inl rfl
  | evMouse x y wheel buttons =>
    rw [exec_evMouse_eq] at h
    obtain rfl := Host.Outcome.next.inj h
    split
    · exact .inr rfl
    · exact .inl rfl
  | initRequest =>
    by_cases hdue : s.TimerDue
    · rw [exec_initRequest_of_due hdue] at h
      obtain rfl := Host.Outcome.next.inj h
      exact .inr rfl
    · exact .inl (exec_initRequest_of_not_due hdue h)
  | _ => nomatch hd

theorem typeByte_eventInstr_ne (ev : Event) : typeByte (eventInstr ev) ≠ 0xFF := by
  cases ev <;> simp [eventInstr, typeByte]

/-- No input event transmits a frame of type 0xFF (44_events R219). -/
theorem exec_eventInstr_type_ne {ev : Event} {s t : State} {bytes : List Byte} (hnil : s.out = [])
    (h : exec (eventInstr ev) s = .next t) (htx : .tx bytes ∈ t.out) : bytes[2]? ≠ some 0xFF := by
  rcases exec_outbound_sends_encode (eventInstr_direction ev) h with hout | hout <;> rw [hout, hnil] at htx
  · nomatch htx
  · obtain rfl : bytes = encode (eventInstr ev) := by simpa using htx
    exact mt Option.some.inj (typeByte_eventInstr_ne ev)

/-- Settles O38: a byte sends nothing and an event no frame of this type; the timer is due whatever the mask. -/
theorem onlyTicksSendInitRequests : Obligations.OnlyTicksSendInitRequests := by
  intro s t bytes h htx htype
  cases hin : s.inbox with
  | nil =>
    rw [step, hin] at h
    obtain rfl := Host.Outcome.next.inj h
    nomatch htx
  | cons tr rest =>
    rw [step_of_inbox hin] at h
    cases tr with
    | rxByte b => exact absurd ((rxByte_outboundKept h).sent bytes htx) List.not_mem_nil
    | input ev now => exact absurd htype (exec_eventInstr_type_ne rfl h htx)
    | tick now =>
      obtain ⟨hdue, rfl⟩ := exec_initRequest_transmits rfl h htx
      obtain rfl := Host.Outcome.next.inj ((exec_initRequest_of_due hdue).symm.trans h)
      exact ⟨rfl, hdue.1, now, rest, rfl, fun mask => ⟨_, exec_initRequest_of_due (hdue.setMask mask), rfl⟩⟩

end Sys2Proof.Machine
end

section
/-! Nothing is fatal (60_exceptions R247): the step goes on from every state that meets the invariant. -/

namespace Sys2Proof.Machine

/-- Settles O47: the one fault is a store outside the buffer, and the invariant keeps every store inside (`exec_goesOn`),
also between the commands of one step (`runActions_inv`). -/
theorem noStepStops : Obligations.NoStepStops := by
  intro s h
  obtain ⟨t, hstep, -⟩ := step_inv h
  exact ⟨t, hstep⟩

end Sys2Proof.Machine
end

section
/-! The reset values (70_reset_and_hazards R270). -/

namespace Sys2Proof.Machine

/-- Settles O44, one part of the state at a time; of the Reassembler only the two registers the rule specifies. -/
theorem resetFollowsItsTable : Obligations.ResetFollowsItsTable := by
  intro c
  have screen : (State.resetWith c).ss = ⟨c.defaultW, c.defaultH, c.defaultFmt, 0, 0x00, false⟩ := rfl
  have window : (State.resetWith c).win = ⟨0, 0, c.defaultW - 1, c.defaultH - 1, 0, 0, 0, 0⟩ := rfl
  have encoder : (State.resetWith c).enc = ⟨⟨none, none⟩, ⟨none, none⟩, none⟩ := rfl
  have waiting : (State.resetWith c).ra.state = .seekSync ∧ (State.resetWith c).ra.q = [] := ⟨rfl, rfl⟩
  have silent : (State.resetWith c).out = [] := rfl
  simp [screen, window, encoder, waiting, silent]

end Sys2Proof.Machine
end

section
/-! One transaction a step, and the parameters kept (00_scope R5, R11): what a step keeps beside the parts that its
transaction writes. -/

namespace Sys2Proof.Machine

@[simp] theorem State.afterAction_inbox (r : ActionResult) (s : State) : (s.afterAction r).inbox = s.inbox := by
  obtain ⟨ra, report, emitted, waits⟩ := r
  cases report <;> rfl

/-- The command of an emitted frame takes no transaction. -/
theorem State.doAction_inbox {s u : State} (h : s.doAction = .next u) : u.inbox = s.inbox := by
  rcases s.doAction_cases with ⟨t, p, -, hdo⟩ | ⟨-, hdo⟩
  · exact (exec_inbox (hdo.symm.trans h)).trans (State.afterAction_inbox _ s)
  · obtain rfl := Host.Outcome.next.inj (hdo.symm.trans h)
    exact State.afterAction_inbox _ s

theorem State.runToWait_keeps_environment (s : State) {t : State} (h : s.runToWait = .next t) :
    t.cfg = s.cfg ∧ t.inbox = s.inbox := by
  induction s using State.runToWait_induction with
  | waits s hw =>
    rw [State.runToWait_of_waits hw] at h
    obtain rfl := Host.Outcome.next.inj h
    exact ⟨State.afterAction_cfg _ s, State.afterAction_inbox _ s⟩
  | continues s hw ih =>
    rw [State.runToWait_of_continues hw] at h
    obtain ⟨u, hu, hrest⟩ := andThen_eq_next.1 h
    obtain ⟨hcfg, hinbox⟩ := ih u hu hrest
    exact ⟨hcfg.trans (State.doAction_next hu).2, hinbox.trans (State.doAction_inbox hu)⟩

/-- An instruction at the time its transaction brings. -/
theorem exec_setNow_keeps_environment {i : Instr} {now : U32} {s t : State} (h : exec i (s.setNow now) = .next t) :
    t.cfg = s.cfg ∧ t.inbox = s.inbox :=
  ⟨(exec_cfg h).trans (State.setNow_cfg now s), (exec_inbox h).trans (State.setNow_inbox now s)⟩

/-- No transaction writes the parameters or takes another one. -/
theorem transact_keeps_environment {tr : Transaction} {s t : State} (h : transact tr s = .next t) :
    t.cfg = s.cfg ∧ t.inbox = s.inbox := by
  cases tr with
  | rxByte b => exact (s.receive [b]).runToWait_keeps_environment h
  | tick now => exact exec_setNow_keeps_environment (i := .initRequest) h
  | input ev now => exact exec_setNow_keeps_environment h

theorem step_of_idle {s : State} (hin : s.inbox = []) : step s = .next s.startStep := by
  rw [step, hin]

/-- Settles O43: the step takes the first transaction, and the transaction keeps the parameters and the others. -/
theorem stepKeepsParameters : Obligations.StepKeepsParameters := by
  intro s t h
  cases hin : s.inbox with
  | nil =>
    rw [step_of_idle hin] at h
    obtain rfl := Host.Outcome.next.inj h
    exact ⟨rfl, hin⟩
  | cons tr rest =>
    rw [step_of_inbox hin] at h
    exact transact_keeps_environment h

/-- Settles O8: `transact` sets the time and runs the timer's or the event's instruction. -/
theorem stepRunsTimeAndEvents : Obligations.StepRunsTimeAndEvents :=
  ⟨fun _ _ _ hin => step_of_inbox hin, fun _ _ _ _ hin => step_of_inbox hin, fun _ hin => step_of_idle hin⟩

end Sys2Proof.Machine
end

section
/-! The free draws of the model: the fresh buffer of an init (43_commands R183) and the window after HAVOC
(41_framebuffer R139). -/

namespace Sys2Proof.Machine

/-- Settles O21: HAVOC stores the draw at every position of the window that the write goes round. -/
theorem havocDrawsFreshBytes : Obligations.HavocDrawsFreshBytes := by
  intro s t data h hen hpacked hrow hpartial ht
  have hhavocs : s.havocs data = true := by simp [State.havocs, hpacked, hrow, hpartial]
  obtain ⟨hk, hcur⟩ := h.geometry.cursor_position h.cursor
  obtain ⟨m, d, hrun, -, hhavoc⟩ := State.writeData_ring (data := data) h.geometry hk hcur.symm
  obtain ⟨hdraws, hdraw, hfree, -⟩ := hhavoc hhavocs
  rw [exec_write_of_enabled hen, hrun, andThen_next] at ht
  obtain rfl := Host.Outcome.next.inj ht
  exact ⟨hdraws, hdraw, hfree⟩

/-- Settles O17: only an accepted init changes the buffer, and it leaves nothing written over the next free draw. -/
theorem initDrawsFreshBytes : Obligations.InitDrawsFreshBytes := by
  intro s t p h hne
  cases p with
  | short b =>
    obtain rfl := Host.Outcome.next.inj h
    exact absurd rfl hne
  | full a rest =>
    rw [exec_init_full] at h
    rcases State.initScreen_cases a s with ⟨e, he⟩ | ⟨fmt, -, -, -, -, -, hacc⟩
    · rw [he, State.rejectInit_eq] at h
      obtain rfl := Host.Outcome.next.inj h
      exact absurd rfl hne
    · rw [hacc, State.acceptInit_eq] at h
      obtain rfl := Host.Outcome.next.inj h
      exact ⟨rfl, rfl, fun o => Memory.empty_read s.draws o⟩

end Sys2Proof.Machine
end
